-- ==== Sys2Proof/Word.lean ====
section
/-! DEFINITION. The words of HUFFCORE, by the width the spec gives each of them (00_scope R7, 10_state R20). Every
number is unsigned and bit 0 is the least significant bit of a word (00_scope R8). -/

namespace Sys2Proof

/-- A command word or a response word (`CMDW` = `RSPW` = 64, R7). -/
abbrev Word64 := BitVec 64

/-- A byte of a stream (`BYTE` = 8, R7). -/
abbrev Byte := BitVec 8

/-- A frequency count (`CW` = 32, R7, R21). -/
abbrev Count := BitVec 32

/-- A node weight (`WW` = 41, R7, R22). -/
abbrev Weight := BitVec 41

/-- A node index (`NIW` = 10, R7, R8). -/
abbrev NodeIx := BitVec 10

/-- What the register `ERRINFO` holds (9 bits, R32). -/
abbrev Info := BitVec 9

end Sys2Proof
end

