-- ==== Sys2Proof/Syntax.lean ====
section
/-! DEFINITION. The thirteen commands of HUFFCORE, one constructor per row of spec/opcode_table.json (30_encoding R94),
with the operands of R93: `idx` is an unsigned number (a table index), `val` a 32-bit count, `b` one bit. -/

namespace Sys2Proof

/-- A command (30_encoding R94). -/
inductive Instr where
  /-- `NOP` (R121). -/
  | nop
  /-- `CLR` (R122). -/
  | clr
  /-- `RDS` (R123). -/
  | rds
  /-- `COUNT` (R131). -/
  | count
  /-- `WRF idx, val` (R136). -/
  | wrf (idx : Nat) (val : Count)
  /-- `RDF idx` (R137). -/
  | rdf (idx : Nat)
  /-- `BUILD` (R148). -/
  | build
  /-- `MKCODE` (R166). -/
  | mkcode
  /-- `ENCODE` (R201). -/
  | encode
  /-- `DECODE` (R216). -/
  | decode
  /-- `WBIT b` (R183). -/
  | wbit (b : Bool)
  /-- `WCLOSE` (R184). -/
  | wclose
  /-- `RBIT` (R186). -/
  | rbit
deriving DecidableEq, Repr

/-- The mnemonic of a command, as spec/opcode_table.json spells it. -/
def Instr.mnemonic : Instr → String
  | .nop => "NOP"
  | .clr => "CLR"
  | .rds => "RDS"
  | .count => "COUNT"
  | .wrf _ _ => "WRF"
  | .rdf _ => "RDF"
  | .build => "BUILD"
  | .mkcode => "MKCODE"
  | .encode => "ENCODE"
  | .decode => "DECODE"
  | .wbit _ => "WBIT"
  | .wclose => "WCLOSE"
  | .rbit => "RBIT"

end Sys2Proof
end

