-- ==== Sys2Proof/WellFormed.lean ====
section
/-! DEFINITION. Which commands can be written as a command word: the index of `WRF` and of `RDF` must fit the 9 bits of
the field `idx` (30_encoding R90, R93). An index of 257 to 511 IS well formed: it is "a legal encoding with an illegal
operand" (R95) and raises `E_INDEX` when it runs. -/

namespace Sys2Proof

/-- The operands of the command fit the fields of its format (R91, R93). -/
def Instr.WellFormed : Instr → Bool
  | .wrf idx _ => decide (idx < 512)
  | .rdf idx => decide (idx < 512)
  | .nop | .clr | .rds | .count | .build | .mkcode | .encode | .decode => true
  | .wbit _ | .wclose | .rbit => true

end Sys2Proof
end

