-- ==== Sys2Proof/Decode.lean ====
section
/-! DEFINITION. Decoding and encoding of the 64-bit command word (30_encoding R90 to R97). The decoder is total: every
word decodes to exactly one command or is rejected under a name. The encoder after it is written from the same formats.
The mask and match of every row of spec/opcode_table.json stand at the end, for the statement that they say the same. -/

namespace Sys2Proof

/-! ### The fields of a command word (R90) -/

/-- `op`, bits 63:56. -/
def opField (w : Word64) : BitVec 8 := w.extractLsb' 56 8

/-- `rsv`, bits 55:41, must be 0. -/
def rsvField (w : Word64) : BitVec 15 := w.extractLsb' 41 15

/-- `idx`, bits 40:32. -/
def idxField (w : Word64) : BitVec 9 := w.extractLsb' 32 9

/-- `data`, bits 31:0. -/
def dataField (w : Word64) : BitVec 32 := w.extractLsb' 0 32

/-! ### The decoder -/

/-- Why a word is no command (R95): both raise `E_ILLCMD`. -/
inductive Reject where
  /-- `op` is none of the thirteen of R94. -/
  | unknownOp
  /-- A bit that the format of `op` requires to be 0 is 1. -/
  | mustBeZero
deriving DecidableEq, Repr

/-- What the decoder answers. -/
inductive Decoded where
  | instr (i : Instr)
  | reject (r : Reject)
deriving DecidableEq, Repr

/-- Accept `i` if the must-be-zero bits of the format are 0 (R91, R95). -/
def requireZero (zero : Bool) (i : Instr) : Decoded :=
  if zero then .instr i else .reject .mustBeZero

/-- Format `N`: `op` alone (R91). -/
def formatN (w : Word64) (i : Instr) : Decoded :=
  requireZero (rsvField w == 0 && idxField w == 0 && dataField w == 0) i

/-- Format `X`: `op` and `idx` (R91). -/
def formatX (w : Word64) (i : Instr) : Decoded :=
  requireZero (rsvField w == 0 && dataField w == 0) i

/-- Format `XD`: `op`, `idx` and `data` (R91). -/
def formatXD (w : Word64) (i : Instr) : Decoded :=
  requireZero (rsvField w == 0) i

/-- Format `B`: `op` and `data[0]` (R91). -/
def formatB (w : Word64) (i : Instr) : Decoded :=
  requireZero (rsvField w == 0 && idxField w == 0 && (dataField w).extractLsb' 1 31 == 0) i

/-- The decoder (R93, R94, R97): the opcode map, then the format's must-be-zero bits. -/
def decode (w : Word64) : Decoded :=
  let op := opField w
  if op = 0x00#8 then formatN w .nop
  else if op = 0x01#8 then formatN w .clr
  else if op = 0x02#8 then formatN w .rds
  else if op = 0x10#8 then formatN w .count
  else if op = 0x11#8 then formatXD w (.wrf (idxField w).toNat (dataField w))
  else if op = 0x12#8 then formatX w (.rdf (idxField w).toNat)
  else if op = 0x20#8 then formatN w .build
  else if op = 0x21#8 then formatN w .mkcode
  else if op = 0x30#8 then formatN w .encode
  else if op = 0x31#8 then formatN w .decode
  else if op = 0x40#8 then formatB w (.wbit ((dataField w).getLsbD 0))
  else if op = 0x41#8 then formatN w .wclose
  else if op = 0x42#8 then formatN w .rbit
  else .reject .unknownOp

/-! ### The encoder -/

/-- A command word from its fields, `rsv` being 0 (R90). -/
def packWord (op : BitVec 8) (idx : BitVec 9) (data : BitVec 32) : Word64 :=
  op ++ 0#15 ++ idx ++ data

/-- The opcode of a command (R94). -/
def opcodeOf : Instr → BitVec 8
  | .nop => 0x00#8
  | .clr => 0x01#8
  | .rds => 0x02#8
  | .count => 0x10#8
  | .wrf _ _ => 0x11#8
  | .rdf _ => 0x12#8
  | .build => 0x20#8
  | .mkcode => 0x21#8
  | .encode => 0x30#8
  | .decode => 0x31#8
  | .wbit _ => 0x40#8
  | .wclose => 0x41#8
  | .rbit => 0x42#8

/-- The index a command carries in `idx`, 0 in the formats that have none (R90). -/
def idxOf : Instr → BitVec 9
  | .wrf idx _ => BitVec.ofNat 9 idx
  | .rdf idx => BitVec.ofNat 9 idx
  | .nop | .clr | .rds | .count | .build | .mkcode | .encode | .decode => 0
  | .wbit _ | .wclose | .rbit => 0

/-- The 32 bits a command carries in `data`, 0 in the formats that have none (R90). -/
def dataOf : Instr → BitVec 32
  | .wrf _ val => val
  | .wbit b => (BitVec.ofBool b).setWidth 32
  | .nop | .clr | .rds | .count | .rdf _ | .build | .mkcode | .encode | .decode => 0
  | .wclose | .rbit => 0

/-- The word of a well-formed command (30_encoding section 7). -/
def encode (i : Instr) : Word64 := packWord (opcodeOf i) (idxOf i) (dataOf i)

/-! ### The host's numbering of an instruction's bits -/

/-- The command word whose bits are `w` (bit 0 the least significant), `nbits` of them given and the others 0. -/
def wordOfTable (nbits w : Nat) : Word64 := BitVec.ofNat 64 (w % 2 ^ nbits)

/-- The instruction the decoder reads from the word whose bits are `w`. -/
def decodeTableWord (nbits w : Nat) : Option Instr :=
  match decode (wordOfTable nbits w) with
  | .instr i => some i
  | .reject _ => none

/-! ### The opcode table (R91, R97, spec/opcode_table.json) -/

/-- One row of spec/opcode_table.json. -/
structure OpcodeRow where
  mnemonic : String
  pattern : Word64
  mask : Word64
deriving DecidableEq, Repr

/-- The mask of each format (R91). -/
def maskN : Word64 := 0xFFFFFFFFFFFFFFFF#64
def maskX : Word64 := 0xFFFFFE00FFFFFFFF#64
def maskXD : Word64 := 0xFFFFFE0000000000#64
def maskB : Word64 := 0xFFFFFFFFFFFFFFFE#64

/-- The thirteen rows, in the table's order. -/
def opcodeTable : List OpcodeRow := [
  ⟨"NOP", 0x0000000000000000#64, maskN⟩,
  ⟨"CLR", 0x0100000000000000#64, maskN⟩,
  ⟨"RDS", 0x0200000000000000#64, maskN⟩,
  ⟨"COUNT", 0x1000000000000000#64, maskN⟩,
  ⟨"WRF", 0x1100000000000000#64, maskXD⟩,
  ⟨"RDF", 0x1200000000000000#64, maskX⟩,
  ⟨"BUILD", 0x2000000000000000#64, maskN⟩,
  ⟨"MKCODE", 0x2100000000000000#64, maskN⟩,
  ⟨"ENCODE", 0x3000000000000000#64, maskN⟩,
  ⟨"DECODE", 0x3100000000000000#64, maskN⟩,
  ⟨"WBIT", 0x4000000000000000#64, maskB⟩,
  ⟨"WCLOSE", 0x4100000000000000#64, maskN⟩,
  ⟨"RBIT", 0x4200000000000000#64, maskN⟩]

/-- The word fits the row: `(c & mask) = match` (R97). -/
def OpcodeRow.fits (r : OpcodeRow) (c : Word64) : Bool := c &&& r.mask == r.pattern

end Sys2Proof
end

