-- ==== Sys2Proof/Config.lean ====
section
/-! DEFINITION. The parameters of HUFFCORE and their values (00_scope R6, R7). The spec leaves no value open
(93_implementation_defined, section 2), so there is no free value here. `CW` is marked `param` in R7; the model fixes it
at the spec's value 32 (log entry 11). -/

namespace Sys2Proof.Config

/-- `NSYM`: the alphabet is the 256 byte values and the sentinel (R6). -/
abbrev nsym : Nat := 257

/-- `EOS`: the end-of-stream sentinel symbol (R6). -/
abbrev eos : Nat := 256

/-- `EOS` as a node index: the sentinel's Leaf is slot 256 (R22). -/
abbrev eosIx : NodeIx := 256#10

/-- `CW`: bits of one count (R7). -/
abbrev cw : Nat := 32

/-- `WW` = `CW + 9`: bits of one weight (R7). -/
abbrev ww : Nat := cw + 9

/-- `NNODE` = `2*NSYM - 1`: node slots (R7). -/
abbrev nnode : Nat := 2 * nsym - 1

/-- `NIW`: bits of a node index (R7). -/
abbrev niw : Nat := 10

/-- `MAXLEN` = `NSYM - 1`: the largest possible code length (R7). -/
abbrev maxlen : Nat := nsym - 1

/-- `CMDW`: bits of a command word (R7). -/
abbrev cmdw : Nat := 64

/-- `RSPW`: bits of a response word (R7). -/
abbrev rspw : Nat := 64

end Sys2Proof.Config
end

