-- ==== Sys2Proof/Machine/State.lean ====
section
/-! DEFINITION. The state of HUFFCORE (10_state R20 to R39) as plain data, the reasons a step can stop, and the state
right after reset (R36, R300). The fields up to `errInfo` are R20's list; `seq` is the sequencer's own condition (R92);
the fields after it are the HOST's side of the four ports, which R35 calls parameters of the step relation (log entry 1). -/

namespace Sys2Proof.Machine

/-- `NODE[n].kind`: 0 = Leaf, 1 = Internal (R22). -/
inductive NodeKind where
  | leaf
  | internal
deriving DecidableEq, Repr

/-- One entry of `NODE` (R22). -/
structure Node where
  /-- The slot holds a node of the current tree. -/
  valid : Bool
  kind : NodeKind
  /-- The weight. -/
  w : Weight
  /-- Internal only: the child reached by bit 0. -/
  left : NodeIx
  /-- Internal only: the child reached by bit 1. -/
  right : NodeIx
deriving DecidableEq, Repr

/-- A cleared entry of `NODE` (R36). -/
abbrev Node.empty : Node := ⟨false, .leaf, 0, 0, 0⟩

/-- One entry of `CODE`: an optional bit string, first transmitted bit first (R25, D23). `none` is `present = 0`, and
then `len` and `bits` are 0 and empty by construction (log entry 12). -/
abbrev Code := Option (List Bool)

/-- `FREQ[0..256]` (R21). -/
abbrev FreqTable := Vector Count 257

/-- `NODE[0..512]` (R22). -/
abbrev NodeTable := Vector Node 513

/-- `CODE[0..256]` (R25). -/
abbrev CodeTable := Vector Code 257

/-- What `ERR` can hold: "every other value of `ERR` never occurs" (R261). -/
inductive ErrCode where
  /-- No error. -/
  | none
  /-- `E_IO_SRC`: the source answered `FAIL`. -/
  | ioSrc
  /-- `E_IO_SNK`: the sink answered `FAIL`. -/
  | ioSnk
  /-- `E_FORMAT`: `FREQ[256] != 1` at `BUILD`. -/
  | format
  /-- `E_TRUNC`: the payload ended before the sentinel's Leaf. -/
  | trunc
  /-- `E_NOCODE`: an input byte has no code. -/
  | noCode
  /-- `E_BADCODE`: the root is a Leaf and the bit read is 1. -/
  | badCode
  /-- `E_OVERFLOW`: a count would pass `2^32 - 1`. -/
  | overflow
  /-- `E_SEQ`: a precondition of R262 failed. -/
  | seq
  /-- `E_ILLCMD`: the word decodes to no command. -/
  | illCmd
  /-- `E_INDEX`: `idx > 256`. -/
  | index
deriving DecidableEq, Repr

/-- One item delivered by the source port IN (R66). -/
inductive Token where
  /-- `BYTE(b)`. -/
  | byte (b : Byte)
  /-- `END`: the source is exhausted. -/
  | endTok
  /-- `FAIL`: the HOST could not deliver the next byte. -/
  | failTok
deriving DecidableEq, Repr

/-- The sink's answer to one byte (R68). -/
inductive SinkAnswer where
  | ok
  | fail
deriving DecidableEq, Repr

/-- The four ports of HUFFCORE (R60), with a name for each to say which one a command waits on (R81). -/
inductive Port where
  | cmd
  | inp
  | out
  | rsp
deriving DecidableEq, Repr

/-- The sequencer: "either idle or executing one command" (R92). Between two steps of the model a command is in
execution only where it waits on a port (R66, R68, R81); each constructor but `idle` is such a place, with what the rest
of the command still needs (log entry 2). -/
inductive Activity where
  /-- No command is being executed. -/
  | idle
  /-- `COUNT` waits for a token (R131). -/
  | countRead
  /-- `ENCODE` waits for a token (R201). -/
  | encodeRead
  /-- `ENCODE` waits for the sink, with the bits `rest` of the current code still to write. `eos`: the code is the
  sentinel's, so `Close` follows (R201). -/
  | encodeBits (rest : List Bool) (eos : Bool)
  /-- `ENCODE` waits for the sink inside its `Close` (R201). -/
  | encodeClose
  /-- `DECODE` waits for a token inside `ReadBit` (R216). -/
  | decodeRead
  /-- `DECODE` waits for the sink's answer to the byte `CUR[7:0]` (R216). -/
  | decodeEmit
  /-- `WBIT b` waits for the sink (R183). -/
  | wbit (b : Bool)
  /-- `WCLOSE` waits for the sink (R184). -/
  | wclose
  /-- `RBIT` waits for a token (R186). -/
  | rbitRead
  /-- A responding command waits for RSP to take `w`. `after` is the error it raises once `w` is taken (R96). -/
  | respond (w : Word64) (after : Option (ErrCode × Info))
deriving DecidableEq, Repr

/-- Why a step does not answer a next state. All four are waits of the hardware, no errors of it (R81: "The state is then
neither final nor faulted"); `step` alone raises them, and all are safe: the model stops where the hardware stands still
(log entry 3). -/
inductive Fault where
  /-- The sequencer is idle and no command word is offered on CMD. Raised by `step`; safe. -/
  | waitCmd
  /-- The command in execution waits for a token on IN. Raised by `step`; safe. -/
  | waitIn
  /-- The command in execution waits for the sink's answer on OUT. Raised by `step`; safe. -/
  | waitOut
  /-- The command in execution waits for RSP to be taken. Raised by `step`; safe. -/
  | waitRsp
deriving DecidableEq, Repr

/-- Why an instruction has no meaning. -/
inductive Refusal where
  /-- The instruction is not modelled yet. Raised by an arm of `exec` alone; safe. No arm raises it: every instruction
  has its meaning. -/
  | notModelled (mnemonic : String)
deriving DecidableEq, Repr

/-- The state (R20), the sequencer (R92), and the HOST's side of the ports (R35). -/
structure State where
  /-- `FREQ[0..256]` (R21). -/
  freq : FreqTable
  /-- `NODE[0..512]` (R22). -/
  node : NodeTable
  /-- `ROOT` (R23). -/
  root : NodeIx
  /-- `NN` (R23). -/
  nn : NodeIx
  /-- `CODE[0..256]` (R25). -/
  code : CodeTable
  /-- `BW.acc` (R26). -/
  bwAcc : BitVec 8
  /-- `BW.n` (R26). -/
  bwN : BitVec 3
  /-- `BR.buf` (R27). -/
  brBuf : BitVec 8
  /-- `BR.n` (R27). -/
  brN : BitVec 3
  /-- `BR.eof` (R27). -/
  brEof : Bool
  /-- `CUR` (R28). -/
  cur : NodeIx
  /-- `PQ`, the members of the priority queue, no repeats, order without meaning (R29). -/
  pq : List NodeIx
  /-- `TREE_VALID` (R30). -/
  treeValid : Bool
  /-- `CODES_VALID` (R30). -/
  codesValid : Bool
  /-- `ERR` (R31). -/
  err : ErrCode
  /-- `ERRINFO` (R32). -/
  errInfo : Info
  /-- The sequencer (R92). -/
  seq : Activity
  /-- HOST: the command words still to come on CMD (R35). -/
  cmd : List Word64
  /-- HOST: the tokens still to come on IN (R35). -/
  inp : List Token
  /-- HOST: the sink's next answers, in order (R35, R68). -/
  sinkNext : List SinkAnswer
  /-- HOST: the sink's answer once `sinkNext` is used up. `none`: it gives none, and the command waits (R68, R81). -/
  sinkRest : Option SinkAnswer
  /-- HOST: the bytes delivered on OUT, in order (R35). -/
  out : List Byte
  /-- HOST: the words delivered on RSP, in order (R35). -/
  rsp : List Word64
  /-- HOST: how many more words it takes from RSP before it stalls, or `none` for no limit (R80, R81). -/
  rspRoom : Option Nat
deriving DecidableEq, Repr

/-- The machine right after reset: R36's table (R300); the sequencer is idle. The HOST's side is not HUFFCORE's state and
reset does not touch it (R302). The values here (nothing offered, nothing delivered, a sink that answers `OK`, a HOST that
takes every response) are the model's. DESIGN CHOICE, unsafe (log entry 4). -/
def State.reset : State where
  freq := Vector.replicate 257 0
  node := Vector.replicate 513 Node.empty
  root := 0
  nn := 0
  code := Vector.replicate 257 none
  bwAcc := 0
  bwN := 0
  brBuf := 0
  brN := 0
  brEof := false
  cur := 0
  pq := []
  treeValid := false
  codesValid := false
  err := .none
  errInfo := 0
  seq := .idle
  cmd := []
  inp := []
  sinkNext := []
  sinkRest := some .ok
  out := []
  rsp := []
  rspRoom := none

end Sys2Proof.Machine
end

