-- ==== Sys2Proof/Machine/Ops.lean ====
section
/-! DEFINITION. The named operations over the tables, the ports and the error registers. Every read and write of `FREQ`,
`NODE` and `CODE`, every port transfer, error entry and the leaving of the error state goes through here. -/

namespace Sys2Proof.Machine

/-! ### Tables (20_memory R60 to R63)

An index outside a table names no entry. The rules never use one (R62 stops it, R63); the two operations are total all
the same: such a read gives the cleared entry, such a write does nothing (log entry 8). -/

/-- One entry of a table, `d` outside it. -/
def tableGet {α : Type} {n : Nat} (t : Vector α n) (i : Nat) (d : α) : α :=
  if h : i < n then t[i] else d

/-- The table with one entry written. -/
def tableSet {α : Type} {n : Nat} (t : Vector α n) (i : Nat) (v : α) : Vector α n :=
  t.setIfInBounds i v

/-- `FREQ[i]` of a frequency table. -/
def countIn (f : FreqTable) (i : Nat) : Count := tableGet f i 0#32

/-- `FREQ[i]` (R61). -/
def State.freqAt (s : State) (i : Nat) : Count := countIn s.freq i

/-- `FREQ[i] <- v` (R61). -/
def State.setFreq (s : State) (i : Nat) (v : Count) : State :=
  { s with freq := tableSet s.freq i v }

/-- `NODE[n]` of a node table. -/
def nodeIn (t : NodeTable) (n : NodeIx) : Node := tableGet t n.toNat Node.empty

/-- `NODE[n]` (R63). -/
def State.nodeAt (s : State) (n : NodeIx) : Node := nodeIn s.node n

/-- `CODE[i]` of a code table. -/
def codeIn (c : CodeTable) (i : Nat) : Code := tableGet c i none

/-- `CODE[i]` (R63). -/
def State.codeAt (s : State) (i : Nat) : Code := codeIn s.code i

/-- `CODE[i].present` (R25). -/
def Code.present (c : Code) : Bool := c.isSome

/-- `CODE[i].bits` (R25): the empty sequence when the code is absent. -/
def Code.bits (c : Code) : List Bool := c.getD []

/-- `CODE[i].len`, 9 bits (R25). -/
def Code.len (c : Code) : BitVec 9 := BitVec.ofNat 9 (Code.bits c).length

/-! ### Errors (60_exceptions R261, R270 to R273) -/

/-- The number `ERR` holds (R261). -/
def ErrCode.code : ErrCode → BitVec 8
  | .none => 0x00#8
  | .ioSrc => 0x01#8
  | .ioSnk => 0x02#8
  | .format => 0x03#8
  | .trunc => 0x04#8
  | .noCode => 0x05#8
  | .badCode => 0x06#8
  | .overflow => 0x07#8
  | .seq => 0x08#8
  | .illCmd => 0x09#8
  | .index => 0x0A#8

/-- `raise E(info)`, the one error entry of HUFFCORE: `ERR` and `ERRINFO` are written and the command is over, with
nothing saved and nothing taken back (R270, R271). -/
def State.raise (s : State) (e : ErrCode) (info : Info) : State :=
  { s with err := e, errInfo := info }

/-- Every piece of HUFFCORE's state to its reset value, the HOST's side as it was: what `CLR` and reset do, and the only
way out of the error state (R36, R122, R273, R302). -/
def State.clear (s : State) : State :=
  { State.reset with
    cmd := s.cmd
    inp := s.inp
    sinkNext := s.sinkNext
    sinkRest := s.sinkRest
    out := s.out
    rsp := s.rsp
    rspRoom := s.rspRoom }

/-- HUFFCORE is in the error state (R272). -/
def State.inError (s : State) : Bool := s.err != .none

/-! ### The sequencer (R92, R81) -/

/-- The command in execution waits at `a` (R81, log entry 2). -/
def State.suspend (s : State) (a : Activity) : State := { s with seq := a }

/-! ### The ports (R66, R68, R70) -/

/-- `SrcRead()`: the next token, removed from IN. `none`: IN holds no token, so the command waits (R66). -/
def State.srcRead (s : State) : Option (Token × State) :=
  match s.inp with
  | [] => none
  | t :: ts => some (t, { s with inp := ts })

/-- What `SinkWrite` comes to. -/
inductive SinkResult where
  /-- The sink answered `OK`: the byte stands on OUT. -/
  | accepted (s : State)
  /-- The sink answered `FAIL`: the byte does not stand on OUT. -/
  | failed (s : State)
  /-- The sink gives no answer: the command waits. -/
  | wait

/-- The sink's answer to the next byte, and the state in which it is used up. `none`: no answer. -/
def State.sinkAnswer (s : State) : Option (SinkAnswer × State) :=
  match s.sinkNext with
  | a :: rest => some (a, { s with sinkNext := rest })
  | [] =>
    match s.sinkRest with
    | some a => some (a, s)
    | none => none

/-- `SinkWrite(b)` (R68). -/
def State.sinkWrite (s : State) (b : Byte) : SinkResult :=
  match s.sinkAnswer with
  | some (.ok, s') => .accepted { s' with out := s'.out ++ [b] }
  | some (.fail, s') => .failed s'
  | none => .wait

/-- RSP takes the word `w`, or `none` while the HOST does not take it (R70, R81). -/
def State.rspPush (s : State) (w : Word64) : Option State :=
  match s.rspRoom with
  | none => some { s with rsp := s.rsp ++ [w] }
  | some (k + 1) => some { s with rsp := s.rsp ++ [w], rspRoom := some k }
  | some 0 => none

/-- The end of a responding command once its word is taken: `done`, or the `raise` that follows it (R96, R270). -/
def State.afterRespond (s : State) (after : Option (ErrCode × Info)) : State :=
  match after with
  | none => s
  | some (e, info) => s.raise e info

/-- `Respond(w)`, then what follows it. The command waits while RSP is not taken (R70, R81, R96). -/
def State.respond (s : State) (w : Word64) (after : Option (ErrCode × Info)) : State :=
  match s.rspPush w with
  | some s' => s'.afterRespond after
  | none => s.suspend (.respond w after)

/-- The response word of a discarded command or of one that raises an error (R96). -/
def zeroResponse : Word64 := 0

/-! ### Stage 2 of the sequencer (R92) -/

/-- A command in stage 2: in the error state it is discarded and nothing changes, else its later stages run (R272). -/
def State.unlessError (s : State) (body : State → State) : State :=
  if s.inError then s else body s

/-- The same for `RDF` and `RBIT`, which respond the zero word when they are discarded (R96, R272). -/
def State.unlessErrorResponding (s : State) (body : State → State) : State :=
  if s.inError then s.respond zeroResponse none else body s

end Sys2Proof.Machine
end

