-- ==== Sys2Proof/Machine/Operands.lean ====
section
/-! DEFINITION. The operand forms of HUFFCORE: a table index and its legality check (stage 4 of 30_encoding R92, 20_memory
R62), a symbol as an index, a byte as error information, the opcode as error information, a bit as a number (R93, R261). -/

namespace Sys2Proof.Machine

/-- Stage 4: an index of `WRF` or `RDF` names an entry of `FREQ` iff it is at most 256 (R62, R92). -/
def indexLegal (idx : Nat) : Bool := decide (idx ≤ 256)

/-- An index as error information (R261, `E_INDEX`). -/
def indexInfo (idx : Nat) : Info := BitVec.ofNat 9 idx

/-- `zext_9(b)` of a byte (R261, `E_NOCODE` and `E_OVERFLOW`). -/
def byteInfo (b : Byte) : Info := b.setWidth 9

/-- `zext_9(op)` (R261, `E_SEQ` and `E_ILLCMD`). -/
def opInfo (op : BitVec 8) : Info := op.setWidth 9

/-- The symbol a byte stands for, as a table index (R6). -/
def symbolOf (b : Byte) : Nat := b.toNat

/-- A symbol's Leaf slot: the symbol is the index (R22). -/
def leafIx (sym : Nat) : NodeIx := BitVec.ofNat 10 sym

/-- The byte a Leaf index stands for: `CUR[7:0]` (R216, R217). -/
def emittedByte (n : NodeIx) : Byte := n.setWidth 8

end Sys2Proof.Machine
end

