-- ==== Sys2Proof/Machine/CodeTable.lean ====
section
/-! DEFINITION. The CodeTableBuilder: `MKCODE` (43_code_table_builder). A bit 0 is `false`, a bit 1 is `true`. -/

namespace Sys2Proof.Machine

/-- `CODE` cleared. -/
def noCodes : CodeTable := Vector.replicate 257 none

/-- `Visit(n, p)` of R166, the path passed by value (R169). The first argument bounds the depth: a tree that `BUILD`
made has no path of more than 256 edges (R7, R152), so the bound `visitDepth` never cuts a visit short (log entry 8). -/
def visit (t : NodeTable) : Nat → NodeIx → List Bool → CodeTable → CodeTable
  | 0, _, _, c => c
  | k + 1, n, p, c =>
    match (nodeIn t n).kind with
    | .leaf => tableSet c n.toNat (some p)
    | .internal => visit t k (nodeIn t n).right (p ++ [true]) (visit t k (nodeIn t n).left (p ++ [false]) c)

/-- A bound on the depth of a visit: more than any path of a tree of 513 nodes. -/
def visitDepth : Nat := 513

/-- The code table of a tree (R166): for a Leaf root the one-bit code 0 (R168), else the paths. -/
def codeTable (t : NodeTable) (root : NodeIx) : CodeTable :=
  match (nodeIn t root).kind with
  | .leaf => tableSet noCodes root.toNat (some [false])
  | .internal => visit t visitDepth root [] noCodes

/-- Stage 5 and the body of `MKCODE`. -/
def State.makeCodes (s : State) : State :=
  if s.treeValid then { s with code := codeTable s.node s.root, codesValid := true }
  else s.raise .seq (opInfo 0x21#8)

/-- `MKCODE` (R166). -/
def execMkcode (s : State) : Host.Outcome State Fault Refusal :=
  .next (s.unlessError State.makeCodes)

end Sys2Proof.Machine
end

