-- ==== Sys2Proof/Machine/Flags.lean ====
section
/-! DEFINITION. The two validity flags (10_state R30), the status word that copies them (R33) and the level outputs (R39).
HUFFCORE has no condition codes. -/

namespace Sys2Proof.Machine

/-- Both flags to 0: the start of `COUNT`, and every executed `WRF` (R30, R312). -/
def State.invalidate (s : State) : State := { s with treeValid := false, codesValid := false }

/-- One bit at place `k` of a 64-bit word. -/
def bitAt (b : Bool) (k : Nat) : Word64 := (BitVec.ofBool b).setWidth 64 <<< k

/-- The status word `RDS` returns (R33, R123). -/
def State.statusWord (s : State) : Word64 :=
  bitAt true 63
    ||| (s.brBuf.setWidth 64 <<< 40)
    ||| (s.bwAcc.setWidth 64 <<< 32)
    ||| (s.brN.setWidth 64 <<< 23)
    ||| (s.bwN.setWidth 64 <<< 20)
    ||| bitAt s.brEof 19
    ||| bitAt s.codesValid 18
    ||| bitAt s.treeValid 17
    ||| (s.errInfo.setWidth 64 <<< 8)
    ||| s.err.code.setWidth 64

/-- `busy_o`: a command is being executed (R39). -/
def State.busyO (s : State) : Bool := s.seq != .idle

/-- `err_o`: the error state (R39, R275). -/
def State.errO (s : State) : Bool := s.inError

end Sys2Proof.Machine
end

