-- ==== Sys2Proof/Machine/BitAdapters.lean ====
section
/-! DEFINITION. The BitWriter and the BitReader: their primitives `WriteBit`, `Close`, `ReadBit`, and the commands `WBIT`,
`WCLOSE`, `RBIT` that call each once (44_bit_writer_reader). Most significant bit first (20_memory R72). -/

namespace Sys2Proof.Machine

/-! ### The BitWriter (R181, R182) -/

/-- What an operation of the BitWriter comes to. -/
inductive WriteResult where
  /-- It is over. -/
  | done (s : State)
  /-- The sink answered `FAIL`, and `E_IO_SNK` has been raised. -/
  | raised (s : State)
  /-- The sink gives no answer: it waits, with these bits still to write, and `s` is where it stands. -/
  | wait (rest : List Bool) (s : State)

/-- The accumulator with one more bit at its low end: `((BW.acc << 1) | b) & 0xFF` (R181). -/
def shiftIn (acc : BitVec 8) (b : Bool) : BitVec 8 := (acc <<< 1) ||| (BitVec.ofBool b).setWidth 8

/-- The byte `Close` emits: the pending bits at the high end, zeros below (R182). -/
def paddedByte (acc : BitVec 8) (n : BitVec 3) : BitVec 8 := acc <<< (8 - n.toNat)

/-- The BitWriter emits a whole byte: on `OK` it is empty, on `FAIL` it is as it was and `E_IO_SNK` is raised. `rest` is
what is still to write while the sink gives no answer. -/
def State.flushByte (s : State) (byte : Byte) (rest : List Bool) : WriteResult :=
  match s.sinkWrite byte with
  | .accepted s' => .done { s' with bwAcc := 0, bwN := 0 }
  | .failed s' => .raised (s'.raise .ioSnk 0)
  | .wait => .wait rest s

/-- `WriteBit(b)` (R181). -/
def State.writeBit (s : State) (b : Bool) : WriteResult :=
  if s.bwN.toNat < 7 then .done { s with bwAcc := shiftIn s.bwAcc b, bwN := s.bwN + 1 }
  else s.flushByte (shiftIn s.bwAcc b) [b]

/-- `WriteBit` on each bit in order. A wait leaves the bit it met and those after it. -/
def writeBits : List Bool → State → WriteResult
  | [], s => .done s
  | b :: bs, s =>
    match s.writeBit b with
    | .done s' => writeBits bs s'
    | .raised s' => .raised s'
    | .wait _ s' => .wait (b :: bs) s'

/-- `Close()` (R182). -/
def State.closeWriter (s : State) : WriteResult :=
  if s.bwN = 0 then .done s else s.flushByte (paddedByte s.bwAcc s.bwN) []

/-- `WBIT b` from its `WriteBit` on. -/
def State.wbitRun (s : State) (b : Bool) : State :=
  match s.writeBit b with
  | .done s' => s'
  | .raised s' => s'
  | .wait _ s' => s'.suspend (.wbit b)

/-- `WBIT b` (R183). -/
def execWbit (b : Bool) (s : State) : Host.Outcome State Fault Refusal :=
  .next (s.unlessError fun s => s.wbitRun b)

/-- `WCLOSE` from its `Close` on. -/
def State.wcloseRun (s : State) : State :=
  match s.closeWriter with
  | .done s' => s'
  | .raised s' => s'
  | .wait _ s' => s'.suspend .wclose

/-- `WCLOSE` (R184). -/
def execWclose (s : State) : Host.Outcome State Fault Refusal :=
  .next (s.unlessError State.wcloseRun)

/-! ### The BitReader (R185) -/

/-- What `ReadBit` comes to. -/
inductive ReadResult where
  /-- A bit. -/
  | bit (b : Bool) (s : State)
  /-- `EOS_SIG`: the source has ended. -/
  | eosSig (s : State)
  /-- The source answered `FAIL`; the caller raises `E_IO_SRC`. -/
  | failed (s : State)
  /-- IN holds no token: it waits. -/
  | wait

/-- `ReadBit()` (R185). -/
def State.readBit (s : State) : ReadResult :=
  if s.brEof then .eosSig s
  else if s.brN = 0 then
    match s.srcRead with
    | none => .wait
    | some (.byte v, s') => .bit v.msb { s' with brBuf := v <<< 1, brN := 7 }
    | some (.endTok, s') => .eosSig { s' with brEof := true }
    | some (.failTok, s') => .failed s'
  else .bit s.brBuf.msb { s with brBuf := s.brBuf <<< 1, brN := s.brN - 1 }

/-- The response of `RBIT` for a bit: bit 63 and the bit (R96, R186). -/
def bitResponse (b : Bool) : Word64 := bitAt true 63 ||| bitAt b 0

/-- The response of `RBIT` for `EOS_SIG`: bit 63 and 2 (R96, R186). -/
def eosResponse : Word64 := bitAt true 63 ||| bitAt true 1

/-- `RBIT` from its `ReadBit` on. -/
def State.rbitRun (s : State) : State :=
  match s.readBit with
  | .bit b s' => s'.respond (bitResponse b) none
  | .eosSig s' => s'.respond eosResponse none
  | .failed s' => s'.respond zeroResponse (some (.ioSrc, 0))
  | .wait => s.suspend .rbitRead

/-- `RBIT` (R186). -/
def execRbit (s : State) : Host.Outcome State Fault Refusal :=
  .next (s.unlessErrorResponding State.rbitRun)

end Sys2Proof.Machine
end

