-- ==== Sys2Proof/Machine/Decoder.lean ====
section
/-! DEFINITION. The Decoder: `DECODE` (46_decoder). -/

namespace Sys2Proof.Machine

/-- The start of `DECODE`: a fresh BitReader, and the walk at the root (R216). -/
def State.decodeStart (s : State) : State :=
  { s with brBuf := 0, brN := 0, brEof := false, cur := s.root }

/-- A Leaf root: exactly one bit is read and nothing descends (R218). -/
def State.decodeLeafRoot (s : State) : State :=
  match s.readBit with
  | .bit b s' => if b then s'.raise .badCode 0 else s'
  | .eosSig s' => s'.raise .trunc 0
  | .failed s' => s'.raise .ioSrc 0
  | .wait => s.suspend .decodeRead

/-- One descent: left on 0, right on 1 (R217). -/
def State.descend (s : State) (b : Bool) : State :=
  { s with cur := if b then (s.nodeAt s.cur).right else (s.nodeAt s.cur).left }

/-- The bits still to come from the BitReader and from IN, were every token a byte: each turn of the walk takes one. -/
def State.bitBudget (s : State) : Nat := 8 * s.inp.length + s.brN.toNat

/-- The loop of `DECODE` (R216, R217). The first argument bounds the turns; `decodeRun` gives one more than `bitBudget`,
which the walk never uses up, since the turn after the last bit ends or waits. -/
def decodeWalk : Nat → State → State
  | 0, s => s.suspend .decodeRead
  | k + 1, s =>
    match s.readBit with
    | .wait => s.suspend .decodeRead
    | .failed s' => s'.raise .ioSrc 0
    | .eosSig s' => s'.raise .trunc 0
    | .bit b s' =>
      let s := s'.descend b
      match (s.nodeAt s.cur).kind with
      | .internal => decodeWalk k s
      | .leaf =>
        if s.cur = Config.eosIx then s
        else
          match s.sinkWrite (emittedByte s.cur) with
          | .accepted s' => decodeWalk k { s' with cur := s'.root }
          | .failed s' => s'.raise .ioSnk 0
          | .wait => s.suspend .decodeEmit

/-- `DECODE` from where it reads its next bit. -/
def State.decodeRun (s : State) : State :=
  match (s.nodeAt s.root).kind with
  | .leaf => s.decodeLeafRoot
  | .internal => decodeWalk (s.bitBudget + 1) s

/-- `DECODE` from where it offers the byte of the Leaf it stands on (R216). -/
def State.decodeEmit (s : State) : State :=
  match s.sinkWrite (emittedByte s.cur) with
  | .accepted s' => { s' with cur := s'.root }.decodeRun
  | .failed s' => s'.raise .ioSnk 0
  | .wait => s.suspend .decodeEmit

/-- Stage 5 and the body of `DECODE` (R216, R262). -/
def State.decode (s : State) : State :=
  if s.treeValid then s.decodeStart.decodeRun else s.raise .seq (opInfo 0x31#8)

/-- `DECODE` (R216). -/
def execDecode (s : State) : Host.Outcome State Fault Refusal :=
  .next (s.unlessError State.decode)

end Sys2Proof.Machine
end

