-- ==== Sys2Proof/Machine/Encoder.lean ====
section
/-! DEFINITION. The Encoder: `ENCODE` (45_encoder). -/

namespace Sys2Proof.Machine

/-- The end of `ENCODE`: `Close()`, then `done` (R201). -/
def State.encodeClose (s : State) : State :=
  match s.closeWriter with
  | .done s' => s'
  | .raised s' => s'
  | .wait _ s' => s'.suspend .encodeClose

/-- The bits of the sentinel's code still to write, then `Close` (R201). -/
def State.encodeEos (s : State) (bits : List Bool) : State :=
  match writeBits bits s with
  | .done s' => s'.encodeClose
  | .raised s' => s'
  | .wait rest s' => s'.suspend (.encodeBits rest true)

/-- The loop of `ENCODE` over the tokens of IN; each turn is one `SrcRead`. It waits when IN is used up (R201, R66). -/
def encodeLoop : List Token → State → State
  | [], s => { s with inp := [] }.suspend .encodeRead
  | .byte b :: ts, s =>
    let s := { s with inp := ts }
    match s.codeAt (symbolOf b) with
    | none => s.raise .noCode (byteInfo b)
    | some bits =>
      match writeBits bits s with
      | .done s' => encodeLoop ts s'
      | .raised s' => s'
      | .wait rest s' => s'.suspend (.encodeBits rest false)
  | .endTok :: ts, s =>
    let s := { s with inp := ts }
    s.encodeEos (Code.bits (s.codeAt 256))
  | .failTok :: ts, s => { s with inp := ts }.raise .ioSrc 0

/-- `ENCODE` from where it reads its next token. -/
def State.encodeRun (s : State) : State := encodeLoop s.inp s

/-- `ENCODE` from inside a code: the bits still to write, then the next token, or `Close` after the sentinel's code. -/
def State.encodeResume (s : State) (rest : List Bool) (eos : Bool) : State :=
  if eos then s.encodeEos rest
  else
    match writeBits rest s with
    | .done s' => s'.encodeRun
    | .raised s' => s'
    | .wait rest' s' => s'.suspend (.encodeBits rest' false)

/-- Stage 5 and the body of `ENCODE`: the two preconditions in the order checked (R201, R262). -/
def State.encode (s : State) : State :=
  if s.codesValid = false then s.raise .seq (opInfo 0x30#8)
  else if s.bwN ≠ 0 then s.raise .seq (opInfo 0x30#8)
  else s.encodeRun

/-- `ENCODE` (R201). -/
def execEncode (s : State) : Host.Outcome State Fault Refusal :=
  .next (s.unlessError State.encode)

end Sys2Proof.Machine
end

