-- ==== Sys2Proof/Machine/Frequency.lean ====
section
/-! DEFINITION. The FrequencyCounter: `COUNT`, `WRF`, `RDF` (41_frequency_counter). -/

namespace Sys2Proof.Machine

/-! ### COUNT (R131) -/

/-- The start of `COUNT`: both flags 0, every entry of `FREQ` 0. -/
def State.countStart (s : State) : State :=
  { s.invalidate with freq := Vector.replicate 257 0 }

/-- The largest count (R134). -/
def countMax : Count := 0xFFFFFFFF#32

/-- The loop of `COUNT` over the tokens of IN; each turn is one `SrcRead`. It waits when IN is used up (R131, R66). -/
def countLoop : List Token → State → State
  | [], s => { s with inp := [] }.suspend .countRead
  | .byte b :: ts, s =>
    let s := { s with inp := ts }
    if s.freqAt (symbolOf b) = countMax then s.raise .overflow (byteInfo b)
    else countLoop ts (s.setFreq (symbolOf b) (s.freqAt (symbolOf b) + 1))
  | .endTok :: ts, s => { s with inp := ts }.setFreq 256 1
  | .failTok :: ts, s => { s with inp := ts }.raise .ioSrc 0

/-- `COUNT` from where it reads its next token. -/
def State.countRun (s : State) : State := countLoop s.inp s

/-- `COUNT` (R131). -/
def execCount (s : State) : Host.Outcome State Fault Refusal :=
  .next (s.unlessError fun s => s.countStart.countRun)

/-! ### WRF (R136) -/

/-- Stage 4 and the body of `WRF`. -/
def State.writeFreq (s : State) (idx : Nat) (val : Count) : State :=
  if indexLegal idx then (s.setFreq idx val).invalidate else s.raise .index (indexInfo idx)

/-- `WRF idx, val` (R136). -/
def execWrf (idx : Nat) (val : Count) (s : State) : Host.Outcome State Fault Refusal :=
  .next (s.unlessError fun s => s.writeFreq idx val)

/-! ### RDF (R137) -/

/-- The response of `RDF`: bit 63 and the entry (R96). -/
def freqResponse (c : Count) : Word64 := bitAt true 63 ||| c.setWidth 64

/-- Stage 4 and the body of `RDF`. -/
def State.readFreq (s : State) (idx : Nat) : State :=
  if indexLegal idx then s.respond (freqResponse (s.freqAt idx)) none
  else s.respond zeroResponse (some (.index, indexInfo idx))

/-- `RDF idx` (R137). -/
def execRdf (idx : Nat) (s : State) : Host.Outcome State Fault Refusal :=
  .next (s.unlessErrorResponding fun s => s.readFreq idx)

end Sys2Proof.Machine
end

