-- ==== Sys2Proof/Machine/System.lean ====
section
/-! DEFINITION. The system commands `NOP`, `CLR`, `RDS` (40_system_commands). They execute in the error state too (R120). -/

namespace Sys2Proof.Machine

/-- `NOP` (R121): nothing. -/
def execNop (s : State) : Host.Outcome State Fault Refusal := .next s

/-- `CLR` (R122): every piece of state to its reset value; the HOST's side of the ports untouched. -/
def execClr (s : State) : Host.Outcome State Fault Refusal := .next s.clear

/-- `RDS` (R123): responds the status word. -/
def execRds (s : State) : Host.Outcome State Fault Refusal := .next (s.respond s.statusWord none)

end Sys2Proof.Machine
end

