-- ==== Sys2Proof/Machine/Tree.lean ====
section
/-! DEFINITION. The TreeBuilder and its priority queue: `BUILD` (42_tree_builder). The tree is a function of `FREQ`
alone (R153), so the algorithm of R148 runs on the four pieces of state it writes, gathered in `Tree`. -/

namespace Sys2Proof.Machine

/-- `NODE`, `ROOT`, `NN` and `PQ`: what the TreeBuilder writes. -/
structure Tree where
  node : NodeTable
  root : NodeIx
  nn : NodeIx
  pq : List NodeIx
deriving DecidableEq, Repr

/-! ### The queue (R147, R149) -/

/-- `key(x) < key(y)`: weight first, then index (R147). -/
def keyLt (t : NodeTable) (x y : NodeIx) : Bool :=
  decide ((nodeIn t x).w.toNat < (nodeIn t y).w.toNat
    ∨ ((nodeIn t x).w.toNat = (nodeIn t y).w.toNat ∧ x.toNat < y.toNat))

/-- The member with the smallest key among `m` and the list. -/
def minKey (t : NodeTable) : NodeIx → List NodeIx → NodeIx
  | m, [] => m
  | m, x :: xs => minKey t (if keyLt t x m then x else m) xs

/-- `ExtractMin()`: the member with the smallest key, and the queue without it. `none` on an empty queue, where the
operation is not defined (R147, R149). -/
def extractMin (t : NodeTable) : List NodeIx → Option (NodeIx × List NodeIx)
  | [] => none
  | x :: xs => some (minKey t x xs, (x :: xs).erase (minKey t x xs))

/-- `PQ + {n}` (R149). -/
def pqInsert (q : List NodeIx) (n : NodeIx) : List NodeIx := q ++ [n]

/-! ### The algorithm (R148) -/

/-- The Leaf of a symbol with count `c` (R148, R155). -/
def leafNode (c : Count) : Node := ⟨true, .leaf, c.setWidth 41, 0, 0⟩

/-- The Internal node over `a` (removed first, reached by bit 0) and `b` (removed second, reached by bit 1) (R150). -/
def internalNode (t : NodeTable) (a b : NodeIx) : Node :=
  ⟨true, .internal, (nodeIn t a).w + (nodeIn t b).w, a, b⟩

/-- The empty arena: every `NODE` entry cleared, `PQ` empty, `NN` at its first slot 257. -/
def Tree.start : Tree := ⟨Vector.replicate 513 Node.empty, 0, 257#10, []⟩

/-- One symbol: a nonzero count makes a Leaf and puts it into the queue. -/
def Tree.addLeaf (f : FreqTable) (t : Tree) (sym : Nat) : Tree :=
  if countIn f sym = 0#32 then t
  else { t with node := tableSet t.node sym (leafNode (countIn f sym)), pq := pqInsert t.pq (leafIx sym) }

/-- All symbols, ascending. -/
def leafTree (f : FreqTable) : Tree := (List.range 257).foldl (Tree.addLeaf f) Tree.start

/-- One merge: the two smallest entries become the children of a new Internal node in slot `NN`. -/
def Tree.merge (t : Tree) : Tree :=
  match extractMin t.node t.pq with
  | none => t
  | some (a, q) =>
    match extractMin t.node q with
    | none => t
    | some (b, q') =>
      { t with
        node := tableSet t.node t.nn.toNat (internalNode t.node a b)
        pq := pqInsert q' t.nn
        nn := t.nn + 1 }

/-- Merges while the queue holds more than one entry. Each merge shortens the queue by one, so a bound of its length
never cuts the loop short. -/
def Tree.mergeAll : Nat → Tree → Tree
  | 0, t => t
  | k + 1, t => if t.pq.length > 1 then Tree.mergeAll k t.merge else t

/-- `ROOT <- ExtractMin()`: the one entry that remains. -/
def Tree.takeRoot (t : Tree) : Tree :=
  match extractMin t.node t.pq with
  | none => t
  | some (r, q) => { t with root := r, pq := q }

/-- The tree of a frequency table (R148). -/
def buildTree (f : FreqTable) : Tree :=
  ((leafTree f).mergeAll (leafTree f).pq.length).takeRoot

/-! ### BUILD (R146, R148) -/

/-- The body of `BUILD`: the check of R146, then the tree of `FREQ`. -/
def State.build (s : State) : State :=
  if s.freqAt 256 = 1 then
    let t := buildTree s.freq
    { s with
      node := t.node
      root := t.root
      nn := t.nn
      pq := t.pq
      treeValid := true
      codesValid := false }
  else s.raise .format 0

/-- `BUILD` (R148). -/
def execBuild (s : State) : Host.Outcome State Fault Refusal :=
  .next (s.unlessError State.build)

end Sys2Proof.Machine
end

