-- ==== Sys2Proof/Machine/Dispatch.lean ====
section
/-! DEFINITION. The dispatch of a decoded command to its meaning (30_encoding R92, R94), one arm per constructor. -/

namespace Sys2Proof.Machine

def exec (i : Instr) (s : State) : Host.Outcome State Fault Refusal :=
  match i with
  | .nop => Sys2Proof.Machine.execNop s
  | .clr => Sys2Proof.Machine.execClr s
  | .rds => Sys2Proof.Machine.execRds s
  | .count => Sys2Proof.Machine.execCount s
  | .wrf idx val => Sys2Proof.Machine.execWrf idx val s
  | .rdf idx => Sys2Proof.Machine.execRdf idx s
  | .build => Sys2Proof.Machine.execBuild s
  | .mkcode => Sys2Proof.Machine.execMkcode s
  | .encode => Sys2Proof.Machine.execEncode s
  | .decode => Sys2Proof.Machine.execDecode s
  | .wbit b => Sys2Proof.Machine.execWbit b s
  | .wclose => Sys2Proof.Machine.execWclose s
  | .rbit => Sys2Proof.Machine.execRbit s

end Sys2Proof.Machine
end

