-- ==== Sys2Proof/Machine/Sequencer.lean ====
section
/-! DEFINITION. The sequencer around the meanings: taking the next word from CMD, a word that decodes to no command, and
the going on of a command that waited (30_encoding R92, R95; 20_memory R66, R68, R81). -/

namespace Sys2Proof.Machine

/-- The next command word, taken from CMD. `none`: the HOST offers none (R80, R92). -/
def State.takeCommand (s : State) : Option (Word64 × State) :=
  match s.cmd with
  | [] => none
  | w :: ws => some (w, { s with cmd := ws })

/-- Stages 2 and 3 for a word that decodes to nothing: discarded in the error state, else `E_ILLCMD` (R92, R95). -/
def State.illegal (s : State) (w : Word64) : State :=
  s.unlessError fun s => s.raise .illCmd (opInfo (opField w))

/-- One accepted word from its stage 1 on (R92). -/
def runWord (w : Word64) (s : State) : Host.Outcome State Fault Refusal :=
  match decode w with
  | .instr i => exec i s
  | .reject _ => .next (s.illegal w)

/-- The port a waiting command waits on; an idle sequencer waits on CMD (R81). -/
def waitingPort : Activity → Port
  | .idle => .cmd
  | .countRead | .encodeRead | .decodeRead | .rbitRead => .inp
  | .encodeBits _ _ | .encodeClose | .decodeEmit | .wbit _ | .wclose => .out
  | .respond _ _ => .rsp

/-- The HOST supplies what the port needs: a word, a token, an answer, room (R80, R81). -/
def State.portReady (s : State) : Port → Bool
  | .cmd => !s.cmd.isEmpty
  | .inp => !s.inp.isEmpty
  | .out => !s.sinkNext.isEmpty || s.sinkRest.isSome
  | .rsp => s.rspRoom != some 0

/-- The name of the wait on a port. -/
def waitFault : Port → Fault
  | .cmd => .waitCmd
  | .inp => .waitIn
  | .out => .waitOut
  | .rsp => .waitRsp

/-- A command that waited goes on from where it stood (R66, R68, R81). -/
def State.resume (s : State) : Activity → State
  | .idle => s
  | .countRead => s.countRun
  | .encodeRead => s.encodeRun
  | .encodeBits rest eos => s.encodeResume rest eos
  | .encodeClose => s.encodeClose
  | .decodeRead => s.decodeRun
  | .decodeEmit => s.decodeEmit
  | .wbit b => s.wbitRun b
  | .wclose => s.wcloseRun
  | .rbitRead => s.rbitRun
  | .respond w after => s.respond w after

/-- What a sequencer that is not stuck does: an idle one accepts the next word, a busy one goes on with its command. -/
def advance (s : State) : Host.Outcome State Fault Refusal :=
  match s.seq with
  | .idle =>
    match s.takeCommand with
    | none => .fault .waitCmd
    | some (w, s') => runWord w s'
  | a => .next ((s.suspend .idle).resume a)

end Sys2Proof.Machine
end

