-- ==== Sys2Proof/Machine/Step.lean ====
section
/-! DEFINITION. One step of HUFFCORE: the sequencer takes one command word and runs it to its end or to where it waits, or
a command that waited goes on (30_encoding R92; 20_memory R66, R81). There is no program counter (10_state R24). -/

namespace Sys2Proof.Machine

/-- One step. A sequencer whose port is not supplied has no step (R81): the wait has a name of its own, and is neither a
final state nor an error (log entry 3). -/
def step (s : State) : Host.Outcome State Fault Refusal :=
  if s.portReady (waitingPort s.seq) then advance s else .fault (waitFault (waitingPort s.seq))

/-- `s` with the instruction whose bits are `w` as the next word on CMD, and the sequencer idle, so that the next step
accepts exactly that word (R24, R92; log entry 9). -/
def State.withFetchWord (s : State) (nbits w : Nat) : State :=
  { s with seq := .idle, cmd := wordOfTable nbits w :: s.cmd }

end Sys2Proof.Machine
end

