-- ==== Sys2Proof/Machine/HostSide.lean ====
section
/-! DEFINITION. What the HOST can do to the machine (00_scope R10; 20_memory R71, R80; 70_reset_and_hazards R300 to R302).
Each action changes the HOST's side of a port only, but for reset. An action falls between two steps: a waiting command
sees it when it goes on. -/

namespace Sys2Proof.Machine

/-- An action of the HOST (R80). -/
inductive HostAction where
  /-- Offer a command word on CMD, after those already offered. -/
  | command (w : Word64)
  /-- Supply a token on IN, after those already there. -/
  | token (t : Token)
  /-- Give the sink's answer to one more byte. -/
  | answer (a : SinkAnswer)
  /-- Be ready to take `k` more words from RSP. -/
  | room (k : Nat)
  /-- Hold `rst_n` low (R300). -/
  | reset
deriving DecidableEq, Repr

/-- Reset: HUFFCORE's state to R36's values and the sequencer idle; the HOST's side is not touched, and what an abandoned
command had transferred stays transferred (R300, R301, R302; log entry 10). -/
def State.assertReset (s : State) : State := s.clear

/-- The state after an action of the HOST. -/
def State.hostAct (s : State) : HostAction → State
  | .command w => { s with cmd := s.cmd ++ [w] }
  | .token t => { s with inp := s.inp ++ [t] }
  | .answer a => { s with sinkNext := s.sinkNext ++ [a] }
  | .room k => { s with rspRoom := s.rspRoom.map (· + k) }
  | .reset => s.assertReset

/-- The token on the pins `in_kind` and `in_data`: 0 = `BYTE`, 1 = `END`, 2 = `FAIL`, 3 "treated as `FAIL`" (R71). -/
def tokenOfPins (kind : BitVec 2) (data : Byte) : Token :=
  if kind = 0#2 then .byte data else if kind = 1#2 then .endTok else .failTok

/-- The answer on the pin `out_fail`, sampled at the transfer: 1 = `FAIL` (R71). -/
def answerOfPin (outFail : Bool) : SinkAnswer := if outFail then .fail else .ok

end Sys2Proof.Machine
end

