-- ==== Sys2Proof/Safety.lean ====
section
/-! DEFINITION. The terms the claims use: when a command may execute, the invariants of the machine, what each command may
change, respond and raise, and the spec's own vocabulary for tables, trees, codes and bit streams. -/

namespace Sys2Proof.Machine

/-! ### Conditions on a state -/

/-- The sequencer is idle and the machine is not in the error state, so that a command other than `NOP`, `CLR`, `RDS`
reaches its later stages (R92). -/
abbrev State.Ready (s : State) : Prop := s.seq = .idle ∧ s.err = .none

/-- RSP is taken (R81). -/
abbrev State.RspTakes (s : State) : Prop := s.rspRoom ≠ some 0

/-- "The sink answers `OK` throughout" (R187, R202). -/
abbrev State.SinkOk (s : State) : Prop := (∀ a ∈ s.sinkNext, a = SinkAnswer.ok) ∧ s.sinkRest = some .ok

/-- The sink answers `OK` to `k` more bytes and `FAIL` to the next; `as` are the answers listed after that one (R68). -/
abbrev State.SinkRefuses (s : State) (k : Nat) (as : List SinkAnswer) : Prop :=
  s.sinkNext = List.replicate k SinkAnswer.ok ++ SinkAnswer.fail :: as
    ∨ (s.sinkNext = List.replicate k SinkAnswer.ok ∧ s.sinkRest = some .fail ∧ as = [])

/-- The sink answers `OK` to `k` more bytes and gives no answer to the next (R68, R81). -/
abbrev State.SinkSilent (s : State) (k : Nat) : Prop :=
  s.sinkNext = List.replicate k SinkAnswer.ok ∧ s.sinkRest = none

/-- `s` with `w` taken by RSP (R70). -/
def State.answered (s : State) (w : Word64) : State :=
  { s with rsp := s.rsp ++ [w], rspRoom := s.rspRoom.map (· - 1) }

/-- Every row of R36's table. -/
structure State.Cleared (s : State) : Prop where
  freq : ∀ i, s.freqAt i = 0
  node : ∀ n, s.nodeAt n = ⟨false, .leaf, 0, 0, 0⟩
  pointers : s.root = 0 ∧ s.nn = 0 ∧ s.cur = 0
  code : ∀ i, Code.present (s.codeAt i) = false ∧ Code.len (s.codeAt i) = 0 ∧ Code.bits (s.codeAt i) = []
  writer : s.bwAcc = 0 ∧ s.bwN = 0
  reader : s.brBuf = 0 ∧ s.brN = 0 ∧ s.brEof = false
  queue : s.pq = []
  flags : s.treeValid = false ∧ s.codesValid = false
  error : s.err.code = 0 ∧ s.errInfo = 0
  levels : s.busyO = false ∧ s.errO = false

/-! ### Invariants -/

/-- The bit adapters at rest: `BW.acc[7:BW.n] = 0` (R26) and `BR.buf[7-BR.n:0] = 0` (R27). -/
abbrev State.BitsOk (s : State) : Prop :=
  s.bwAcc.toNat < 2 ^ s.bwN.toNat ∧ s.brBuf.toNat % 2 ^ (8 - s.brN.toNat) = 0

/-- `PQ` is "empty whenever no `BUILD` is running" (R29). -/
abbrev State.QueueOk (s : State) : Prop := s.pq = []

/-- "`TREE_VALID = 1` implies `FREQ[256] = 1` and `NODE`, `ROOT`, `NN` are exactly what `BUILD` computes from the current
`FREQ`" (R30). -/
abbrev State.TreeOk (s : State) : Prop :=
  s.treeValid = true →
    s.freqAt 256 = 1
      ∧ s.node = (buildTree s.freq).node
      ∧ s.root = (buildTree s.freq).root
      ∧ s.nn = (buildTree s.freq).nn

/-- "`CODES_VALID = 1` implies `TREE_VALID = 1` and `CODE` is exactly what `MKCODE` computes from the current `NODE` and
`ROOT`" (R30). -/
abbrev State.CodesOk (s : State) : Prop :=
  s.codesValid = true → s.treeValid = true ∧ s.code = codeTable s.node s.root

/-- A command in execution is one that could have come to wait where it waits: the machine is not in the error state, but
for a response whose command raises nothing after it; `COUNT` has both flags cleared and the sentinel's count not yet
written; `ENCODE` and `DECODE` passed their preconditions. -/
def State.SeqOk (s : State) : Prop :=
  match s.seq with
  | .idle => True
  | .countRead => s.err = .none ∧ s.treeValid = false ∧ s.codesValid = false ∧ s.freqAt 256 = 0
  | .encodeRead | .encodeClose => s.err = .none ∧ s.codesValid = true
  | .encodeBits rest _ => s.err = .none ∧ s.codesValid = true ∧ rest ≠ []
  | .decodeRead | .decodeEmit => s.err = .none ∧ s.treeValid = true
  | .wbit _ | .wclose | .rbitRead => s.err = .none
  | .respond _ after => after ≠ none → s.err = .none

/-- The invariant of the two validity flags (R30) with the sequencer's condition that carries it through a wait. -/
structure State.FlagsInv (s : State) : Prop where
  tree : s.TreeOk
  codes : s.CodesOk
  seq : s.SeqOk

/-! ### What each command may do -/

/-- The commands that respond (R70, R96). -/
def responds : Instr → Bool
  | .rds | .rdf _ | .rbit => true
  | .nop | .clr | .count | .wrf _ _ | .build | .mkcode | .encode | .decode | .wbit _ | .wclose => false

/-- The errors that the command waiting at `a` can still raise: those of its row of R263, and for a response that waits
the one it raises after it. -/
def errorsAfterWait : Activity → List ErrCode
  | .idle => []
  | .countRead => [.ioSrc, .overflow]
  | .encodeRead | .encodeBits _ _ | .encodeClose => [.ioSrc, .noCode, .ioSnk]
  | .decodeRead | .decodeEmit => [.ioSrc, .trunc, .badCode, .ioSnk]
  | .wbit _ | .wclose => [.ioSnk]
  | .rbitRead => [.ioSrc]
  | .respond _ none => []
  | .respond _ (some (e, _)) => [e]

/-- The commands that execute in the error state (R120, R272). -/
def runsInError : Instr → Bool
  | .nop | .clr | .rds => true
  | .count | .wrf _ _ | .rdf _ | .build | .mkcode | .encode | .decode | .wbit _ | .wclose | .rbit => false

/-- The errors each command can raise (R263). -/
def errorsOf : Instr → List ErrCode
  | .nop | .clr | .rds => []
  | .count => [.ioSrc, .overflow]
  | .wrf _ _ => [.index]
  | .rdf _ => [.index]
  | .build => [.format]
  | .mkcode => [.seq]
  | .encode => [.seq, .ioSrc, .noCode, .ioSnk]
  | .decode => [.seq, .ioSrc, .trunc, .badCode, .ioSnk]
  | .wbit _ | .wclose => [.ioSnk]
  | .rbit => [.ioSrc]

/-- `s` with the pieces of state that the command may write (the lines "State written" and "Ports used" of its rule, error
entry and waiting included) taken from `t`: `t = frameOf i s t` says that every other piece is unchanged. -/
def frameOf (i : Instr) (s t : State) : State :=
  match i with
  | .nop => s
  | .clr =>
    { t with
      cmd := s.cmd, inp := s.inp, sinkNext := s.sinkNext, sinkRest := s.sinkRest,
      out := s.out, rsp := s.rsp, rspRoom := s.rspRoom }
  | .rds => { s with rsp := t.rsp, rspRoom := t.rspRoom, seq := t.seq }
  | .count =>
    { s with
      freq := t.freq, treeValid := t.treeValid, codesValid := t.codesValid,
      err := t.err, errInfo := t.errInfo, seq := t.seq, inp := t.inp }
  | .wrf _ _ =>
    { s with
      freq := t.freq, treeValid := t.treeValid, codesValid := t.codesValid, err := t.err, errInfo := t.errInfo }
  | .rdf _ => { s with rsp := t.rsp, rspRoom := t.rspRoom, err := t.err, errInfo := t.errInfo, seq := t.seq }
  | .build =>
    { s with
      node := t.node, root := t.root, nn := t.nn, pq := t.pq,
      treeValid := t.treeValid, codesValid := t.codesValid, err := t.err, errInfo := t.errInfo }
  | .mkcode => { s with code := t.code, codesValid := t.codesValid, err := t.err, errInfo := t.errInfo }
  | .encode =>
    { s with
      bwAcc := t.bwAcc, bwN := t.bwN, inp := t.inp, out := t.out, sinkNext := t.sinkNext,
      err := t.err, errInfo := t.errInfo, seq := t.seq }
  | .decode =>
    { s with
      brBuf := t.brBuf, brN := t.brN, brEof := t.brEof, cur := t.cur, inp := t.inp, out := t.out,
      sinkNext := t.sinkNext, err := t.err, errInfo := t.errInfo, seq := t.seq }
  | .wbit _ | .wclose =>
    { s with
      bwAcc := t.bwAcc, bwN := t.bwN, out := t.out, sinkNext := t.sinkNext,
      err := t.err, errInfo := t.errInfo, seq := t.seq }
  | .rbit =>
    { s with
      brBuf := t.brBuf, brN := t.brN, brEof := t.brEof, inp := t.inp, rsp := t.rsp, rspRoom := t.rspRoom,
      err := t.err, errInfo := t.errInfo, seq := t.seq }

/-- What can become of the machine while the HOST acts (R80) and a command that waits goes on (R81), from `s` until the
command has ended: no new command is taken. -/
inductive GoesOn (s : State) : State → Prop where
  /-- Nothing has happened yet. -/
  | start : GoesOn s s
  /-- The HOST acts. -/
  | host {t : State} (h : GoesOn s t) (a : HostAction) : GoesOn s (t.hostAct a)
  /-- The command that waits goes on. -/
  | goOn {t u : State} (h : GoesOn s t) (waits : t.seq ≠ .idle) (step : step t = .next u) : GoesOn s u

/-! ### Trees, codes and bit streams -/

/-- The number of nonzero entries of a frequency table, `L` of R152. -/
def leafCount (f : FreqTable) : Nat := (List.range 257).countP fun i => countIn f i != 0#32

/-- The sum of all 257 counts (R152). -/
def totalCount (f : FreqTable) : Nat := ((List.range 257).map fun i => (countIn f i).toNat).sum

/-- The child reached by one bit: left by 0, right by 1 (R167). -/
def childOf (t : NodeTable) (n : NodeIx) (b : Bool) : NodeIx := if b then (nodeIn t n).right else (nodeIn t n).left

/-- The node reached from `n` by a bit string (R167). -/
def follow (t : NodeTable) : NodeIx → List Bool → NodeIx
  | n, [] => n
  | n, b :: bs => follow t (childOf t n b) bs

/-- The bytes of a bit stream: byte `k` is the sum over `i` in 0 to 7 of `s_(8k+i) << (7 - i)`, where bits past the end are
0 (R187). -/
def packedByte (bits : List Bool) (k : Nat) : Byte :=
  BitVec.ofNat 8 ((List.range 8).map fun i => (bits.getD (8 * k + i) false).toNat * 2 ^ (7 - i)).sum

/-- The packing of a bit stream, zero padding in the last byte (R74, R187). -/
def packBits (bits : List Bool) : List Byte := (List.range ((bits.length + 7) / 8)).map (packedByte bits)

/-- The bits of a byte in the order they are read: bit 7 first (R72, R188). -/
def byteBits (v : Byte) : List Bool := (List.range 8).map fun i => v.getLsbD (7 - i)

/-- The concatenated codes of a byte sequence under a code table. -/
def codeBits (c : CodeTable) (x : List Byte) : List Bool :=
  x.flatMap fun b => Code.bits (codeIn c (symbolOf b))

/-- The bit stream of a payload: the codes of the bytes, then the sentinel's (R202). -/
def payloadBits (c : CodeTable) (x : List Byte) : List Bool := codeBits c x ++ Code.bits (codeIn c 256)

/-- The pending bits of the BitWriter, first written first (R26). -/
def State.pending (s : State) : List Bool := (List.range s.bwN.toNat).map fun i => s.bwAcc.getLsbD (s.bwN.toNat - 1 - i)

/-- The unread bits of the BitReader, the next one first (R27). -/
def State.unread (s : State) : List Bool := (List.range s.brN.toNat).map fun i => s.brBuf.getLsbD (7 - i)

/-- How an `ENCODE` in `s` that raises an error leaves the machine: `written` added to OUT, the bits `pend` pending in `BW`,
the tokens before `rest` consumed, and nothing changed beside these and the sink's answers (R203, R271). -/
def EncodeStopsAt (s t : State) (written : List Byte) (pend : List Bool) (rest : List Token) (e : ErrCode) (info : Info) :
    Prop :=
  t.err = e ∧ t.errInfo = info ∧ t.out = s.out ++ written ∧ t.pending = pend
    ∧ t = { s with
            bwAcc := t.bwAcc, bwN := t.bwN, inp := rest, out := t.out, sinkNext := t.sinkNext,
            err := t.err, errInfo := t.errInfo }

/-- How an `ENCODE` in `s` that waits leaves the machine: as `EncodeStopsAt` says, with no error, waiting at `place` (R81). -/
def EncodeWaitsAt (s t : State) (written : List Byte) (pend : List Bool) (rest : List Token) (place : Activity) : Prop :=
  t.out = s.out ++ written ∧ t.pending = pend
    ∧ t = { s with
            bwAcc := t.bwAcc, bwN := t.bwN, inp := rest, out := t.out, sinkNext := t.sinkNext, seq := place }

/-- Where a `DECODE` in `s` that ran out of bits stands: the bits were the codes of `x`, every byte of which is on OUT, and
then `q`, which holds no whole code, the sentinel's included, and down which `CUR` has walked from the root (R220) to an Internal
node (R217). -/
def DecodeStandsAt (s t : State) (bits : List Bool) : Prop :=
  ∃ x q, bits = codeBits (codeTable s.node s.root) x ++ q
    ∧ (∀ b ∈ x, codeIn (codeTable s.node s.root) b.toNat ≠ none)
    ∧ (∀ i p, codeIn (codeTable s.node s.root) i = some p → ¬ p <+: q)
    ∧ t.out = s.out ++ x ∧ t.cur = follow s.node s.root q ∧ (nodeIn s.node t.cur).kind = .internal

/-- Where a `DECODE` in `s` of the bytes `v`, with `rest` after them, stands when it offers `b` after the bytes `x`: on the Leaf
of `b`, `x` on OUT, every token up to the one with the last bit of `b`'s code taken, and the bits of that byte after it still to be
read (R216). -/
def DecodeOffers (s t : State) (v : List Byte) (rest : List Token) (x : List Byte) (b : Byte) : Prop :=
  ∃ n, n = (codeBits (codeTable s.node s.root) (x ++ [b])).length
    ∧ t.cur = b.setWidth 10 ∧ t.out = s.out ++ x
    ∧ t.inp = (v.drop ((n + 7) / 8)).map .byte ++ rest
    ∧ t.unread = ((v.flatMap byteBits).drop n).take t.brN.toNat ∧ (n + t.brN.toNat) % 8 = 0

/-- `k` calls of `ReadBit` that all return a bit: the bits in order, and the state after them. -/
def readBits : Nat → State → Option (List Bool × State)
  | 0, s => some ([], s)
  | k + 1, s =>
    match s.readBit with
    | .bit b s' =>
      match readBits k s' with
      | some (bs, t) => some (b :: bs, t)
      | none => none
    | .eosSig _ => none
    | .failed _ => none
    | .wait => none

end Sys2Proof.Machine
end

