-- ==== Sys2Proof/Certificates/Slice0/Obligations.lean ====
section
/-! DEFINITION. The statements about HUFFCORE for the provers. Each docstring names the rules it comes from. -/

open Sys2Proof Sys2Proof.Machine

/-! ### Encoding (30_encoding) -/

/-- R90, R91, R93, R94: no operand of a well-formed command is lost between its word and the decoder. -/
def Obligations.EncodeThenDecodeGivesTheCommand : Prop :=
  ∀ i : Instr, i.WellFormed = true → decode (encode i) = .instr i

/-- R95, R97: the decoder accepts no word but those that encode a well-formed command, and reads it as that command. -/
def Obligations.DecodeAcceptsOnlyEncodings : Prop :=
  ∀ (w : Word64) (i : Instr), decode w = .instr i → i.WellFormed = true ∧ encode i = w

/-- R97: a word decodes to the row of the opcode table it fits; at most one row matches, `match` is `op << 56` for every
row, and a word that no row matches decodes to no command. -/
def Obligations.DecodeAgreesWithOpcodeTable : Prop :=
  (∀ (w : Word64) (r : OpcodeRow), r ∈ opcodeTable →
      ((∃ i, decode w = .instr i ∧ i.mnemonic = r.mnemonic) ↔ w &&& r.mask = r.pattern))
    ∧ (∀ (w : Word64) (r r' : OpcodeRow), r ∈ opcodeTable → r' ∈ opcodeTable →
        w &&& r.mask = r.pattern → w &&& r'.mask = r'.pattern → r = r')
    ∧ (∀ r ∈ opcodeTable, ∃ op : BitVec 8, r.pattern = op.setWidth 64 <<< 56)
    ∧ (∀ w : Word64, (∀ r ∈ opcodeTable, w &&& r.mask ≠ r.pattern) → ∃ x, decode w = .reject x)

/-- 30_encoding section 7: the words written out there decode to the commands they stand for. -/
def Obligations.ReferenceWordsDecode : Prop :=
  decode 0x0000000000000000#64 = .instr .nop
    ∧ decode 0x1000000000000000#64 = .instr .count
    ∧ decode 0x1100004100000003#64 = .instr (.wrf 65 3)
    ∧ decode 0x1200010000000000#64 = .instr (.rdf 256)
    ∧ decode 0x2000000000000000#64 = .instr .build
    ∧ decode 0x2100000000000000#64 = .instr .mkcode
    ∧ decode 0x3000000000000000#64 = .instr .encode
    ∧ decode 0x3100000000000000#64 = .instr .decode
    ∧ decode 0x4000000000000001#64 = .instr (.wbit true)
    ∧ decode 0x4200000000000000#64 = .instr .rbit

/-! ### The sequencer (R92, R95, R272, R81) -/

/-- R92: an idle sequencer takes the next word of CMD and runs the command it decodes to. -/
def Obligations.StepRunsTheDecodedCommand : Prop :=
  ∀ (s : State) (w : Word64) (ws : List Word64) (i : Instr),
    s.seq = .idle → s.cmd = w :: ws → decode w = .instr i → step s = exec i { s with cmd := ws }

/-- R95: a word that fits no row of the opcode table raises `E_ILLCMD` with its opcode outside the error state, and is
discarded in it. -/
def Obligations.IllegalWordRaisesIllcmd : Prop :=
  ∀ (s : State) (w : Word64) (ws : List Word64),
    s.seq = .idle → s.cmd = w :: ws → (∀ r ∈ opcodeTable, w &&& r.mask ≠ r.pattern) →
      (s.err = .none →
        step s = .next { s with cmd := ws, err := .illCmd, errInfo := (w.extractLsb' 56 8).setWidth 9 })
      ∧ (s.err ≠ .none → step s = .next { s with cmd := ws })

/-- R92 stage 2, R272: in the error state a command other than `NOP`, `CLR`, `RDS` is discarded, and `RDF` and `RBIT`
respond the zero word. While RSP is not taken they wait with it, in the model's own form of a wait (log entries 2 and 6). -/
def Obligations.ErrorStateDiscardsCommands : Prop :=
  ∀ (s : State) (i : Instr), s.err ≠ .none → runsInError i = false →
    (responds i = false → exec i s = .next s)
      ∧ (responds i = true → s.RspTakes → exec i s = .next (s.answered 0))
      ∧ (responds i = true → s.rspRoom = some 0 → exec i s = .next { s with seq := .respond 0 none })

/-- 93_implementation_defined section 2: every command in every state has one outcome; none refuses and none faults. -/
def Obligations.EveryCommandAnswersANextState : Prop :=
  ∀ (i : Instr) (s : State), ∃ t, exec i s = .next t

/-- R81: the machine stands still exactly where a port the sequencer waits on is not supplied, and nothing else stops it. -/
def Obligations.StepStopsOnlyToWait : Prop :=
  ∀ s : State,
    (∀ r, step s ≠ .refused r)
      ∧ (step s = .fault .waitCmd ↔ s.seq = .idle ∧ s.cmd = [])
      ∧ (step s = .fault .waitIn ↔ s.seq ∈ [.countRead, .encodeRead, .decodeRead, .rbitRead] ∧ s.inp = [])
      ∧ (step s = .fault .waitRsp ↔ (∃ w after, s.seq = .respond w after) ∧ s.rspRoom = some 0)
      ∧ (step s = .fault .waitOut ↔
          ((∃ rest eos, s.seq = .encodeBits rest eos) ∨ (∃ b, s.seq = .wbit b)
              ∨ s.seq ∈ [.encodeClose, .decodeEmit, .wclose])
            ∧ s.sinkNext = [] ∧ s.sinkRest = none)

/-! ### System commands (R120 to R123, R33) -/

/-- R120, R121, R122, R123: `NOP`, `CLR` and `RDS` execute in every state, the error state too. `NOP` changes nothing;
`CLR` clears all of R20's state and leaves the HOST's side of the ports (R302); `RDS` responds the status word. -/
def Obligations.SystemCommandsExecuteInEveryState : Prop :=
  ∀ s : State,
    exec .nop s = .next s
      ∧ (∃ t, exec .clr s = .next t ∧ t.Cleared
          ∧ t.cmd = s.cmd ∧ t.inp = s.inp ∧ t.sinkNext = s.sinkNext ∧ t.sinkRest = s.sinkRest
          ∧ t.out = s.out ∧ t.rsp = s.rsp ∧ t.rspRoom = s.rspRoom)
      ∧ (s.RspTakes → exec .rds s = .next (s.answered s.statusWord))

/-- R33: the fields of the status word that `RDS` responds. -/
def Obligations.RdsRespondsTheStatusFields : Prop :=
  ∀ s : State, s.RspTakes → ∃ w, exec .rds s = .next (s.answered w)
    ∧ w.getLsbD 63 = true
    ∧ w.extractLsb' 48 15 = 0
    ∧ w.extractLsb' 40 8 = s.brBuf
    ∧ w.extractLsb' 32 8 = s.bwAcc
    ∧ w.extractLsb' 26 6 = 0
    ∧ w.extractLsb' 23 3 = s.brN
    ∧ w.extractLsb' 20 3 = s.bwN
    ∧ w.getLsbD 19 = s.brEof
    ∧ w.getLsbD 18 = s.codesValid
    ∧ w.getLsbD 17 = s.treeValid
    ∧ w.extractLsb' 8 9 = s.errInfo
    ∧ w.extractLsb' 0 8 = s.err.code

/-- R36: what reset leaves, and what `CLR` leaves: every field R36 names at its value. R302: reset leaves what the HOST owns,
the tokens, the words and what was delivered, and with them the model's own form of the sink and of RSP's room (log entries 5
and 6); `CLR` equals reset in its effect on state, and takes it when its word comes. -/
def Obligations.ResetAndClrLeaveEverythingCleared : Prop :=
  State.reset.Cleared
    ∧ (∀ s : State, s.hostAct .reset = s.assertReset ∧ s.assertReset.Cleared
        ∧ s.assertReset.cmd = s.cmd ∧ s.assertReset.inp = s.inp
        ∧ s.assertReset.sinkNext = s.sinkNext ∧ s.assertReset.sinkRest = s.sinkRest
        ∧ s.assertReset.out = s.out ∧ s.assertReset.rsp = s.rsp ∧ s.assertReset.rspRoom = s.rspRoom)
    ∧ (∀ s t : State, exec .clr s = .next t → t.Cleared ∧ t = s.assertReset)
    ∧ (∀ (s : State) (ws : List Word64), s.seq = .idle → s.cmd = 0x0100000000000000#64 :: ws →
        step s = .next { s with cmd := ws }.assertReset)

/-! ### FrequencyCounter (41_frequency_counter) -/

/-- R133: after `COUNT` on `X ++ [END]` each entry is the number of occurrences, the byte entries sum to the length, and
the sentinel's count is 1. R131: both flags are 0, the tokens are consumed, nothing else changes. -/
def Obligations.CountCountsOccurrences : Prop :=
  ∀ (s : State) (x : List Byte) (rest : List Token),
    s.Ready → (∀ b, x.count b < 2 ^ 32) → s.inp = x.map .byte ++ .endTok :: rest →
      ∃ t, exec .count s = .next t
        ∧ (∀ b : Byte, (t.freqAt b.toNat).toNat = x.count b)
        ∧ ((List.range 256).map fun i => (t.freqAt i).toNat).sum = x.length
        ∧ t.freqAt 256 = 1
        ∧ t = { s with freq := t.freq, treeValid := false, codesValid := false, inp := rest }

/-- R131: a `FAIL` token ends `COUNT` with `E_IO_SRC`; the entries counted so far stay, the sentinel's count is still 0,
the token is consumed. -/
def Obligations.CountStopsOnFail : Prop :=
  ∀ (s : State) (x : List Byte) (rest : List Token),
    s.Ready → (∀ b, x.count b < 2 ^ 32) → s.inp = x.map .byte ++ .failTok :: rest →
      ∃ t, exec .count s = .next t
        ∧ (∀ b : Byte, (t.freqAt b.toNat).toNat = x.count b)
        ∧ t.freqAt 256 = 0
        ∧ t = { s with
                freq := t.freq, treeValid := false, codesValid := false, inp := rest,
                err := .ioSrc, errInfo := 0 }

/-- R131, R134: a count never wraps; the byte that would pass `2^32 - 1` raises `E_OVERFLOW`, is consumed, and leaves
the count at `0xFFFFFFFF`. -/
def Obligations.CountNeverWraps : Prop :=
  ∀ (s : State) (x : List Byte) (b : Byte) (rest : List Token),
    s.Ready → (∀ c, x.count c < 2 ^ 32) → x.count b = 2 ^ 32 - 1 → s.inp = x.map .byte ++ .byte b :: rest →
      ∃ t, exec .count s = .next t
        ∧ t.freqAt b.toNat = 0xFFFFFFFF#32
        ∧ (∀ c : Byte, (t.freqAt c.toNat).toNat = x.count c)
        ∧ t.freqAt 256 = 0
        ∧ t = { s with
                freq := t.freq, treeValid := false, codesValid := false, inp := rest,
                err := .overflow, errInfo := b.setWidth 9 }

/-- R131, R66: `COUNT` with no `END` in sight waits for the next token, with what it counted in `FREQ`. -/
def Obligations.CountWaitsForTokens : Prop :=
  ∀ (s : State) (x : List Byte),
    s.Ready → (∀ b, x.count b < 2 ^ 32) → s.inp = x.map .byte →
      ∃ t, exec .count s = .next t
        ∧ (∀ b : Byte, (t.freqAt b.toNat).toNat = x.count b)
        ∧ t.freqAt 256 = 0
        ∧ t = { s with freq := t.freq, treeValid := false, codesValid := false, inp := [], seq := .countRead }

/-- R136, R312: `WRF` writes one entry whole and clears both flags. -/
def Obligations.WrfWritesOneEntry : Prop :=
  ∀ (s : State) (idx : Nat) (val : Count), s.Ready → idx ≤ 256 →
    ∃ t, exec (.wrf idx val) s = .next t
      ∧ t.freqAt idx = val
      ∧ (∀ j, j ≠ idx → t.freqAt j = s.freqAt j)
      ∧ t = { s with freq := t.freq, treeValid := false, codesValid := false }

/-- R62, R92 stage 4: an index of 257 to 511 raises `E_INDEX` and changes nothing else; `RDF` responds zero first. -/
def Obligations.IndexPastSentinelRaisesIndex : Prop :=
  ∀ (s : State) (idx : Nat) (val : Count), s.Ready → 256 < idx → idx < 512 →
    exec (.wrf idx val) s = .next { s with err := .index, errInfo := BitVec.ofNat 9 idx }
      ∧ (s.RspTakes →
          exec (.rdf idx) s = .next { s.answered 0 with err := .index, errInfo := BitVec.ofNat 9 idx })

/-- R137, R96: `RDF` responds bit 63 and the entry, with zeros between, and changes nothing else. -/
def Obligations.RdfRespondsTheEntry : Prop :=
  ∀ (s : State) (idx : Nat), s.Ready → s.RspTakes → idx ≤ 256 →
    ∃ w, exec (.rdf idx) s = .next (s.answered w)
      ∧ w.getLsbD 63 = true ∧ w.extractLsb' 32 31 = 0 ∧ w.extractLsb' 0 32 = s.freqAt idx

/-! ### TreeBuilder (42_tree_builder) -/

/-- R146: `BUILD` on a table whose sentinel count is not 1 raises `E_FORMAT` and changes nothing else; any other table
passes. -/
def Obligations.BuildChecksTheSentinelCount : Prop :=
  ∀ s : State, s.Ready →
    (s.freqAt 256 ≠ 1 → exec .build s = .next { s with err := .format, errInfo := 0 })
      ∧ (s.freqAt 256 = 1 → ∃ t, exec .build s = .next t ∧ t.err = .none ∧ t.treeValid = true)

/-- R147: the order of the queue is strict and total. -/
def Obligations.QueueOrderIsStrictAndTotal : Prop :=
  ∀ (t : NodeTable) (x y z : NodeIx),
    keyLt t x x = false
      ∧ (keyLt t x y = true → keyLt t y z = true → keyLt t x z = true)
      ∧ (x ≠ y → (keyLt t x y = true ↔ keyLt t y x = false))

/-- R147, R149: keys are compared by weight first, then by index, both unsigned; `ExtractMin` on a non-empty queue removes
and returns the member with the smallest key. R148, R150: each merge of `BUILD` takes the two smallest keys among the nodes
that stand without a parent when it makes node `n`, the first removed as `left`, the second as `right`. -/
def Obligations.ExtractMinRemovesTheSmallestKey : Prop :=
  (∀ (t : NodeTable) (x y : NodeIx), keyLt t x y = true ↔
      ((nodeIn t x).w.toNat < (nodeIn t y).w.toNat
        ∨ ((nodeIn t x).w.toNat = (nodeIn t y).w.toNat ∧ x.toNat < y.toNat)))
    ∧ (∀ (t : NodeTable) (q : List NodeIx), q.Nodup → q ≠ [] →
        ∃ m q', extractMin t q = some (m, q') ∧ q.Perm (m :: q') ∧ ∀ x ∈ q', keyLt t m x = true)
    ∧ (∀ s t : State, s.Ready → s.freqAt 256 = 1 → exec .build s = .next t →
        ∀ n : NodeIx, (t.nodeAt n).valid = true → (t.nodeAt n).kind = .internal →
          keyLt t.node (t.nodeAt n).left (t.nodeAt n).right = true
            ∧ ∀ x : NodeIx, (t.nodeAt x).valid = true → x.toNat < n.toNat →
                (∀ p : NodeIx, (t.nodeAt p).valid = true → (t.nodeAt p).kind = .internal → p.toNat < n.toNat →
                  (t.nodeAt p).left ≠ x ∧ (t.nodeAt p).right ≠ x) →
                x ≠ (t.nodeAt n).left → x ≠ (t.nodeAt n).right → keyLt t.node (t.nodeAt n).right x = true)

/-- R148, R152 items 1, 2 and 6: the Leaves are the symbols with a nonzero count, the Internal nodes fill the slots from
257 on, the root is the last of them, the queue is empty again, and both flags are as R148 says. -/
def Obligations.BuildFillsTheArena : Prop :=
  ∀ s : State, s.Ready → s.freqAt 256 = 1 →
    ∃ t, exec .build s = .next t
      ∧ (∀ i ≤ 256, t.nodeAt (BitVec.ofNat 10 i) =
          if s.freqAt i = 0 then ⟨false, .leaf, 0, 0, 0⟩ else ⟨true, .leaf, (s.freqAt i).setWidth 41, 0, 0⟩)
      ∧ t.nn.toNat + 1 = 257 + leafCount s.freq
      ∧ (∀ n : NodeIx, 257 ≤ n.toNat → ((t.nodeAt n).valid = true ↔ n.toNat < t.nn.toNat))
      ∧ (∀ n : NodeIx, 257 ≤ n.toNat → (t.nodeAt n).valid = true → (t.nodeAt n).kind = .internal)
      ∧ (t.root.toNat = if leafCount s.freq = 1 then 256 else t.nn.toNat - 1)
      ∧ t = { s with
              node := t.node, root := t.root, nn := t.nn, pq := [], treeValid := true, codesValid := false }

/-- R152 items 3 and 4: every Internal node has two distinct valid children of smaller index, every valid node but the
root is the child of exactly one Internal node, and the root of none. -/
def Obligations.BuildMakesAFullTree : Prop :=
  ∀ (s t : State), s.Ready → s.freqAt 256 = 1 → exec .build s = .next t →
    (∀ n : NodeIx, (t.nodeAt n).valid = true → (t.nodeAt n).kind = .internal →
      (t.nodeAt n).left ≠ (t.nodeAt n).right
        ∧ (t.nodeAt (t.nodeAt n).left).valid = true ∧ (t.nodeAt (t.nodeAt n).right).valid = true
        ∧ (t.nodeAt n).left.toNat < n.toNat ∧ (t.nodeAt n).right.toNat < n.toNat)
    ∧ (∀ n : NodeIx, (t.nodeAt n).valid = true → n ≠ t.root →
      ∃ p : NodeIx, ((t.nodeAt p).valid = true ∧ (t.nodeAt p).kind = .internal
          ∧ ((t.nodeAt p).left = n ∨ (t.nodeAt p).right = n))
        ∧ ∀ p' : NodeIx, (t.nodeAt p').valid = true → (t.nodeAt p').kind = .internal →
            ((t.nodeAt p').left = n ∨ (t.nodeAt p').right = n) → p' = p)
    ∧ (∀ p : NodeIx, (t.nodeAt p).valid = true → (t.nodeAt p).kind = .internal →
      (t.nodeAt p).left ≠ t.root ∧ (t.nodeAt p).right ≠ t.root)

/-- R152 item 5, R155: an Internal node's weight is the sum of its children's with no overflow, and the root's is the sum
of all of `FREQ`, below `2^41`. -/
def Obligations.BuildAddsWeightsWithoutOverflow : Prop :=
  ∀ (s t : State), s.Ready → s.freqAt 256 = 1 → exec .build s = .next t →
    (∀ n : NodeIx, (t.nodeAt n).valid = true → (t.nodeAt n).kind = .internal →
      (t.nodeAt n).w.toNat = (t.nodeAt (t.nodeAt n).left).w.toNat + (t.nodeAt (t.nodeAt n).right).w.toNat)
    ∧ (t.nodeAt t.root).w.toNat = totalCount s.freq
    ∧ totalCount s.freq < 2 ^ 41

/-- R151: with no symbol but the sentinel the root is its Leaf and there is no Internal node. -/
def Obligations.EmptyTableGivesALeafRoot : Prop :=
  ∀ s : State, s.Ready → (∀ i < 256, s.freqAt i = 0) → s.freqAt 256 = 1 →
    ∃ t, exec .build s = .next t ∧ t.root = 256#10 ∧ t.nn = 257#10 ∧ t.treeValid = true
      ∧ (t.nodeAt t.root).kind = .leaf ∧ (∀ n : NodeIx, 257 ≤ n.toNat → (t.nodeAt n).valid = false)

/-- R243: one byte value `k` times and the sentinel make two Leaves under the Internal root 257; which is left follows from
the order of R147, and both codes are one bit long. -/
def Obligations.SingleByteTableGivesTwoLeaves : Prop :=
  ∀ (s : State) (v : Byte) (k : Count), s.Ready → k ≠ 0 →
    (∀ i ≤ 256, s.freqAt i = if i = v.toNat then k else if i = 256 then 1 else 0) →
      ∃ t u, exec .build s = .next t ∧ exec .mkcode t = .next u
        ∧ t.root = 257#10 ∧ t.nn = 258#10
        ∧ t.nodeAt 257#10 =
            (if k = 1 then ⟨true, .internal, 2, v.setWidth 10, 256#10⟩
             else ⟨true, .internal, k.setWidth 41 + 1, 256#10, v.setWidth 10⟩)
        ∧ u.codeAt v.toNat = some [k != 1] ∧ u.codeAt 256 = some [k == 1]

/-- R153: the tree is a function of `FREQ` alone. -/
def Obligations.BuildDependsOnFreqAlone : Prop :=
  ∀ s s' t t' : State, s.Ready → s'.Ready → s.freqAt 256 = 1 → s.freq = s'.freq →
    exec .build s = .next t → exec .build s' = .next t' → t.node = t'.node ∧ t.root = t'.root ∧ t.nn = t'.nn

/-! ### CodeTableBuilder (43_code_table_builder) -/

/-- R262: the sequence preconditions; every other command has none, so `E_SEQ` is raised by these three alone. -/
def Obligations.SequencePreconditions : Prop :=
  ∀ s : State, s.Ready →
    (s.treeValid = false → exec .mkcode s = .next { s with err := .seq, errInfo := 0x021#9 })
      ∧ (s.codesValid = false → exec .encode s = .next { s with err := .seq, errInfo := 0x030#9 })
      ∧ (s.bwN ≠ 0 → exec .encode s = .next { s with err := .seq, errInfo := 0x030#9 })
      ∧ (s.treeValid = false → exec .decode s = .next { s with err := .seq, errInfo := 0x031#9 })
      ∧ (s.treeValid = true → ∀ t, exec .mkcode s = .next t ∨ exec .decode s = .next t → t.err ≠ .seq)
      ∧ (s.codesValid = true → s.bwN = 0 → ∀ t, exec .encode s = .next t → t.err ≠ .seq)
      ∧ (∀ i t, i ≠ .mkcode → i ≠ .encode → i ≠ .decode → exec i s = .next t → t.err ≠ .seq)

/-- R166, R167: with an Internal root the code of each Leaf is its path from the root: the path leads to it and meets an
Internal node at every earlier point. A symbol with no Leaf has no code. -/
def Obligations.MkcodeGivesEveryLeafItsPath : Prop :=
  ∀ s : State, s.Ready → s.treeValid = true → s.TreeOk → (s.nodeAt s.root).kind = .internal →
    ∃ t, exec .mkcode s = .next t
      ∧ (∀ i ≤ 256, (s.nodeAt (BitVec.ofNat 10 i)).valid = true →
          ∃ p, t.codeAt i = some p
            ∧ follow s.node s.root p = BitVec.ofNat 10 i
            ∧ ∀ p' q, p = p' ++ q → q ≠ [] → (s.nodeAt (follow s.node s.root p')).kind = .internal)
      ∧ (∀ i ≤ 256, (s.nodeAt (BitVec.ofNat 10 i)).valid = false → t.codeAt i = none)
      ∧ t = { s with code := t.code, codesValid := true }

/-- R168: the code of a Leaf root is the one bit 0, and there is no other. -/
def Obligations.LeafRootHasTheOneBitCode : Prop :=
  ∀ s : State, s.Ready → s.treeValid = true → s.TreeOk → (s.nodeAt s.root).kind = .leaf →
    ∃ t, exec .mkcode s = .next t ∧ s.root = 256#10
      ∧ (∀ i ≤ 256, t.codeAt i = if i = 256 then some [false] else none)
      ∧ t = { s with code := t.code, codesValid := true }

/-- R170 items 1 and 2: while the flags are 1, a code is present iff the symbol's count is not 0, and it has 1 to 256
bits. -/
def Obligations.CodesArePresentForCountedSymbols : Prop :=
  ∀ s : State, s.codesValid = true → s.TreeOk → s.CodesOk →
    ∀ i ≤ 256, (s.freqAt i = 0 → s.codeAt i = none)
      ∧ (s.freqAt i ≠ 0 → ∃ p, s.codeAt i = some p ∧ 1 ≤ p.length ∧ p.length ≤ 256)

/-- R170 item 3: no code is a prefix of another, nor equal to it. -/
def Obligations.CodesArePrefixFree : Prop :=
  ∀ s : State, s.codesValid = true → s.TreeOk → s.CodesOk →
    ∀ (i j : Nat) (p q : List Bool), i ≠ j → s.codeAt i = some p → s.codeAt j = some q → ¬ p <+: q

/-- R170 item 4: with an Internal root every bit sequence begins with a code, once it is as long as a code can be; with a
Leaf root exactly those that begin with 0. -/
def Obligations.CodesAreComplete : Prop :=
  ∀ s : State, s.codesValid = true → s.TreeOk → s.CodesOk →
    ∀ bits : List Bool, bits.length = 256 →
      ((∃ i p, s.codeAt i = some p ∧ p <+: bits) ↔
        ((s.nodeAt s.root).kind = .internal ∨ bits.head? = some false))

/-! ### BitWriter and BitReader (44_bit_writer_reader) -/

/-- R68: `SinkWrite` appends the byte on `OK` and not on `FAIL`, and has no outcome while the sink gives no answer. -/
def Obligations.SinkWriteFollowsTheAnswer : Prop :=
  ∀ (s : State) (b : Byte),
    (∀ as, s.sinkNext = .ok :: as → s.sinkWrite b = .accepted { s with sinkNext := as, out := s.out ++ [b] })
      ∧ (∀ as, s.sinkNext = .fail :: as → s.sinkWrite b = .failed { s with sinkNext := as })
      ∧ (s.sinkNext = [] → s.sinkRest = some .ok → s.sinkWrite b = .accepted { s with out := s.out ++ [b] })
      ∧ (s.sinkNext = [] → s.sinkRest = some .fail → s.sinkWrite b = .failed s)
      ∧ (s.sinkNext = [] → s.sinkRest = none → s.sinkWrite b = .wait)

/-- R181, R183: `WBIT` adds one bit at the low end of the accumulator; the eighth bit emits the byte and empties the
writer; a refused byte leaves the seven bits pending and raises `E_IO_SNK`; with no answer it waits (R81), in the model's own
form: a next state whose `seq` says so (log entry 2). -/
def Obligations.WbitWritesOneBit : Prop :=
  ∀ (s : State) (b : Bool), s.Ready →
    (s.bwN ≠ 7 →
      exec (.wbit b) s = .next { s with
        bwAcc := BitVec.ofNat 8 (2 * s.bwAcc.toNat + b.toNat), bwN := s.bwN + 1 })
    ∧ (∀ s', s.bwN = 7 →
        s.sinkWrite (BitVec.ofNat 8 (2 * s.bwAcc.toNat + b.toNat)) = .accepted s' →
          exec (.wbit b) s = .next { s' with bwAcc := 0, bwN := 0 })
    ∧ (∀ s', s.bwN = 7 →
        s.sinkWrite (BitVec.ofNat 8 (2 * s.bwAcc.toNat + b.toNat)) = .failed s' →
          exec (.wbit b) s = .next { s' with err := .ioSnk, errInfo := 0 })
    ∧ (s.bwN = 7 → s.sinkWrite (BitVec.ofNat 8 (2 * s.bwAcc.toNat + b.toNat)) = .wait →
        exec (.wbit b) s = .next { s with seq := .wbit b })

/-- R182, R184: `WCLOSE` with no pending bit does nothing; with `n` pending bits it emits them at the high end of a byte
and empties the writer; a refused byte leaves the writer as it was and raises `E_IO_SNK`; with no answer it waits (R81), in the
model's own form: a next state whose `seq` says so (log entry 2). -/
def Obligations.WcloseEmitsThePaddedByte : Prop :=
  ∀ s : State, s.Ready →
    (s.bwN = 0 → exec .wclose s = .next s)
    ∧ (∀ s', s.bwN ≠ 0 →
        s.sinkWrite (BitVec.ofNat 8 (s.bwAcc.toNat * 2 ^ (8 - s.bwN.toNat))) = .accepted s' →
          exec .wclose s = .next { s' with bwAcc := 0, bwN := 0 })
    ∧ (∀ s', s.bwN ≠ 0 →
        s.sinkWrite (BitVec.ofNat 8 (s.bwAcc.toNat * 2 ^ (8 - s.bwN.toNat))) = .failed s' →
          exec .wclose s = .next { s' with err := .ioSnk, errInfo := 0 })
    ∧ (s.bwN ≠ 0 → s.sinkWrite (BitVec.ofNat 8 (s.bwAcc.toNat * 2 ^ (8 - s.bwN.toNat))) = .wait →
        exec .wclose s = .next { s with seq := .wclose })

/-- R185, R186: `RBIT` responds the next bit of the byte it holds, else refills from one token; `END` makes the reader
answer 2 for good; `FAIL` responds zero and raises `E_IO_SRC`; with no token it waits (R81), in the model's own form: a next
state whose `seq` says so (log entry 2). Where RSP is not taken: `WaitingChangesNothing`. -/
def Obligations.RbitReadsOneBit : Prop :=
  ∀ s : State, s.Ready → s.RspTakes →
    (s.brEof = true → exec .rbit s = .next (s.answered 0x8000000000000002#64))
    ∧ (s.brEof = false → s.brN ≠ 0 →
        exec .rbit s = .next { s.answered (0x8000000000000000#64 + BitVec.ofNat 64 (s.brBuf.getLsbD 7).toNat) with
          brBuf := s.brBuf <<< 1, brN := s.brN - 1 })
    ∧ (∀ v ts, s.brEof = false → s.brN = 0 → s.inp = .byte v :: ts →
        exec .rbit s = .next { s.answered (0x8000000000000000#64 + BitVec.ofNat 64 (v.getLsbD 7).toNat) with
          brBuf := v <<< 1, brN := 7, inp := ts })
    ∧ (∀ ts, s.brEof = false → s.brN = 0 → s.inp = .endTok :: ts →
        exec .rbit s = .next { s.answered 0x8000000000000002#64 with brEof := true, inp := ts })
    ∧ (∀ ts, s.brEof = false → s.brN = 0 → s.inp = .failTok :: ts →
        exec .rbit s = .next { s.answered 0 with inp := ts, err := .ioSrc, errInfo := 0 })
    ∧ (s.brEof = false → s.brN = 0 → s.inp = [] → exec .rbit s = .next { s with seq := .rbitRead })

/-- R187, the writer law: `(m + pad) / 8` bytes are written, byte `k` being R187's sum (`packedByte`); the whole bytes are
written by `WriteBit`, each as its eighth bit arrives, and the last, padded, by `Close`. -/
def Obligations.WriterLaw : Prop :=
  ∀ (s : State) (bits : List Bool), s.bwN = 0 → s.SinkOk →
    (packBits bits).length = (bits.length + (8 - bits.length % 8) % 8) / 8
    ∧ (∀ k ≤ bits.length, ∃ t, writeBits (bits.take k) s = .done t
        ∧ t.out = s.out ++ (packBits bits).take (k / 8))
    ∧ ∃ t u, writeBits bits s = .done t ∧ t.closeWriter = .done u ∧ u.out = s.out ++ packBits bits ∧ u.bwN = 0

/-- R188, the reader law: the bits of the bytes in order, each byte taken from IN by the call that needs its first bit; then
`EOS_SIG` for good, one `END` being consumed. -/
def Obligations.ReaderLaw : Prop :=
  ∀ (s : State) (v : List Byte) (rest : List Token),
    s.brN = 0 → s.brEof = false → s.inp = v.map .byte ++ .endTok :: rest →
      (∀ c ≤ 8 * v.length, ∃ t, readBits c s = some ((v.flatMap byteBits).take c, t)
        ∧ t.inp = (v.drop ((c + 7) / 8)).map .byte ++ .endTok :: rest)
      ∧ ∃ t u, readBits (8 * v.length) s = some (v.flatMap byteBits, t)
          ∧ t.readBit = .eosSig u ∧ u.inp = rest ∧ u.readBit = .eosSig u

/-! ### Encoder (45_encoder) -/

/-- R202, the encoder law: the payload is the packing of the codes of the bytes and of the sentinel's code; the writer is
empty again, the tokens are consumed, nothing else changes. -/
def Obligations.EncoderLaw : Prop :=
  ∀ (s : State) (x : List Byte) (rest : List Token),
    s.Ready → s.codesValid = true → s.bwN = 0 → s.SinkOk → s.inp = x.map .byte ++ .endTok :: rest →
      (∀ b ∈ x, s.codeAt b.toNat ≠ none) →
        ∃ t, exec .encode s = .next t
          ∧ t.out = s.out ++ packBits (payloadBits s.code x)
          ∧ t = { s with bwAcc := t.bwAcc, inp := rest, out := t.out, sinkNext := t.sinkNext }

/-- Where `ENCODE` stops or waits, with the bits of the earlier tokens where `WriteBit` left them: whole bytes on OUT, the
others pending, nothing taken back. R203: on a byte with no code, `E_NOCODE`, no bit of it written. R201: on a `FAIL` token,
`E_IO_SRC`. R66, R81: with no further token, it waits for one. R181, R265: on a byte the sink refuses inside a code, `E_IO_SNK`,
the seven bits before its eighth pending as they were. R182: on the byte it refuses in the sentinel's code or in `Close`,
`E_IO_SNK`, the bits of that byte pending. R68, R81: where the sink gives no answer instead, it waits in that same place, in the
model's own form of a wait: a next state whose `seq` names the place and the bits still to write (log entry 2). -/
def Obligations.EncodeStopsOnAMissingCode : Prop :=
  ∀ (s : State) (x : List Byte) (b : Byte) (rest : List Token),
    s.Ready → s.codesValid = true → s.bwN = 0 → (∀ c ∈ x, s.codeAt c.toNat ≠ none) →
      (s.SinkOk → s.inp = x.map .byte ++ .byte b :: rest → s.codeAt b.toNat = none →
        ∃ t, exec .encode s = .next t
          ∧ EncodeStopsAt s t ((packBits (codeBits s.code x)).take ((codeBits s.code x).length / 8))
              ((codeBits s.code x).drop (8 * ((codeBits s.code x).length / 8))) rest .noCode (b.setWidth 9))
      ∧ (s.SinkOk → s.inp = x.map .byte ++ .failTok :: rest →
        ∃ t, exec .encode s = .next t
          ∧ EncodeStopsAt s t ((packBits (codeBits s.code x)).take ((codeBits s.code x).length / 8))
              ((codeBits s.code x).drop (8 * ((codeBits s.code x).length / 8))) rest .ioSrc 0)
      ∧ (s.SinkOk → s.inp = x.map .byte →
        ∃ t, exec .encode s = .next t
          ∧ EncodeWaitsAt s t ((packBits (codeBits s.code x)).take ((codeBits s.code x).length / 8))
              ((codeBits s.code x).drop (8 * ((codeBits s.code x).length / 8))) [] .encodeRead)
      ∧ (∀ k : Nat, s.inp = x.map .byte ++ .byte b :: rest → s.codeAt b.toNat ≠ none →
          (codeBits s.code x).length < 8 * (k + 1) → 8 * (k + 1) ≤ (codeBits s.code (x ++ [b])).length →
            (∀ as : List SinkAnswer, s.SinkRefuses k as →
              ∃ t, exec .encode s = .next t ∧ t.sinkNext = as
                ∧ EncodeStopsAt s t ((packBits (codeBits s.code (x ++ [b]))).take k)
                    (((codeBits s.code (x ++ [b])).drop (8 * k)).take 7) rest .ioSnk 0)
            ∧ (s.SinkSilent k →
              ∃ t, exec .encode s = .next t ∧ t.sinkNext = []
                ∧ EncodeWaitsAt s t ((packBits (codeBits s.code (x ++ [b]))).take k)
                    (((codeBits s.code (x ++ [b])).drop (8 * k)).take 7) rest
                    (.encodeBits ((codeBits s.code (x ++ [b])).drop (8 * k + 7)) false)))
      ∧ (∀ k : Nat, s.inp = x.map .byte ++ .endTok :: rest →
          (codeBits s.code x).length < 8 * (k + 1) → 8 * k < (payloadBits s.code x).length →
            (∀ as : List SinkAnswer, s.SinkRefuses k as →
              ∃ t, exec .encode s = .next t ∧ t.sinkNext = as
                ∧ EncodeStopsAt s t ((packBits (payloadBits s.code x)).take k)
                    (((payloadBits s.code x).drop (8 * k)).take 7) rest .ioSnk 0)
            ∧ (s.SinkSilent k →
              ∃ t, exec .encode s = .next t ∧ t.sinkNext = []
                ∧ EncodeWaitsAt s t ((packBits (payloadBits s.code x)).take k)
                    (((payloadBits s.code x).drop (8 * k)).take 7) rest
                    (if 8 * (k + 1) ≤ (payloadBits s.code x).length then
                      .encodeBits ((payloadBits s.code x).drop (8 * k + 7)) true
                    else .encodeClose)))

/-- R201, R313: an `ENCODE` that ends without error has emptied the BitWriter. -/
def Obligations.EncodeDoneLeavesTheWriterEmpty : Prop :=
  ∀ s t : State, s.Ready → exec .encode s = .next t → t.err = .none → t.seq = .idle → t.bwN = 0

/-! ### Decoder (46_decoder) -/

/-- R218: with a Leaf root exactly one bit is read: 0 ends the decode, 1 is `E_BADCODE`, the end of the source is
`E_TRUNC`; nothing is emitted. R66, R81: with no token it waits for one, in the model's own form of a wait (log entry 2). -/
def Obligations.DecodeReadsOneBitUnderALeafRoot : Prop :=
  ∀ s : State, s.Ready → s.treeValid = true → (s.nodeAt s.root).kind = .leaf →
    (∀ v ts, s.inp = .byte v :: ts → v.getLsbD 7 = false →
      exec .decode s = .next { s with brBuf := v <<< 1, brN := 7, brEof := false, cur := s.root, inp := ts })
    ∧ (∀ v ts, s.inp = .byte v :: ts → v.getLsbD 7 = true →
      exec .decode s = .next { s with
        brBuf := v <<< 1, brN := 7, brEof := false, cur := s.root, inp := ts, err := .badCode, errInfo := 0 })
    ∧ (∀ ts, s.inp = .endTok :: ts →
      exec .decode s = .next { s with
        brBuf := 0, brN := 0, brEof := true, cur := s.root, inp := ts, err := .trunc, errInfo := 0 })
    ∧ (∀ ts, s.inp = .failTok :: ts →
      exec .decode s = .next { s with
        brBuf := 0, brN := 0, brEof := false, cur := s.root, inp := ts, err := .ioSrc, errInfo := 0 })
    ∧ (s.inp = [] →
      exec .decode s = .next { s with brBuf := 0, brN := 0, brEof := false, cur := s.root, seq := .decodeRead })

/-- R221, the decoder law: the payload of a byte sequence under the codes of the tree decodes to that sequence. R219:
`DECODE` then stands on the sentinel's Leaf and has read nothing after the last byte that holds a bit of the sentinel's code;
what follows that code in the byte is not examined, so any bits may stand there, and they are left in `BR`. -/
def Obligations.DecoderLaw : Prop :=
  ∀ (s : State) (x : List Byte) (rest : List Token),
    s.Ready → s.treeValid = true → s.TreeOk → s.SinkOk →
      (∀ b ∈ x, codeIn (codeTable s.node s.root) b.toNat ≠ none) →
      (s.inp = (packBits (payloadBits (codeTable s.node s.root) x)).map .byte ++ rest →
        ∃ t, exec .decode s = .next t
          ∧ t.out = s.out ++ x
          ∧ t = { s with
                  brBuf := t.brBuf, brN := t.brN, brEof := false, cur := 256#10, inp := rest, out := t.out,
                  sinkNext := t.sinkNext })
      ∧ (∀ (v : List Byte) (pad : List Bool),
        s.inp = v.map .byte ++ rest → pad.length < 8 →
          v.flatMap byteBits = payloadBits (codeTable s.node s.root) x ++ pad →
            ∃ t, exec .decode s = .next t
              ∧ t.out = s.out ++ x ∧ t.unread = pad
              ∧ t = { s with
                      brBuf := t.brBuf, brN := t.brN, brEof := false, cur := 256#10, inp := rest, out := t.out,
                      sinkNext := t.sinkNext })

/-- R220, R222: with an Internal root and a sink that answers `OK`, `DECODE` has exactly two outcomes: it stops on the
sentinel's Leaf, or the source ends first: with `E_TRUNC` on `END`, with `E_IO_SRC` on `FAIL` (R185, R265), every byte decoded
so far being on OUT and `CUR` on the Internal node where the walk stood, no whole code being left over. R66, R81: where the source
has no further token instead, it waits for one, standing there. R216, R265: when the sink refuses the byte `b`, it ends with
`E_IO_SNK` and `CUR` on the Leaf of `b`, the earlier bytes on OUT and the bits after those of `b` still to be read. R68, R81: when
the sink gives no answer to `b`, it waits for one, standing there. The waits are the model's own form: a next state whose `seq`
names the place (log entry 2). -/
def Obligations.DecodeEndsOrIsTruncated : Prop :=
  ∀ (s : State) (v : List Byte) (rest : List Token),
    s.Ready → s.treeValid = true → (s.nodeAt s.root).kind = .internal →
      (∀ (tok : Token) (e : ErrCode), (tok, e) ∈ [(Token.endTok, ErrCode.trunc), (.failTok, .ioSrc)] →
        s.SinkOk → s.inp = v.map .byte ++ tok :: rest →
          ∃ t, exec .decode s = .next t ∧ t.seq = .idle
            ∧ ((t.err = .none ∧ t.cur = 256#10 ∧ t.brEof = false
                  ∧ ∃ k ≤ v.length, t.inp = (v.drop k).map .byte ++ tok :: rest)
              ∨ (t.err = e ∧ t.errInfo = 0 ∧ t.brEof = decide (tok = .endTok) ∧ t.brN = 0 ∧ t.inp = rest
                  ∧ (s.TreeOk → DecodeStandsAt s t (v.flatMap byteBits)))))
      ∧ (s.SinkOk → s.inp = v.map .byte →
          ∃ t, exec .decode s = .next t ∧ t.err = .none ∧ t.brEof = false
            ∧ ((t.seq = .idle ∧ t.cur = 256#10 ∧ ∃ k ≤ v.length, t.inp = (v.drop k).map .byte)
              ∨ (t.seq = .decodeRead ∧ t.brN = 0 ∧ t.inp = []
                  ∧ (s.TreeOk → DecodeStandsAt s t (v.flatMap byteBits)))))
      ∧ (∀ (x : List Byte) (b : Byte),
        s.TreeOk → s.inp = v.map .byte ++ rest →
          (∀ c ∈ x ++ [b], codeIn (codeTable s.node s.root) c.toNat ≠ none) →
          codeBits (codeTable s.node s.root) (x ++ [b]) <+: v.flatMap byteBits →
            (∀ as : List SinkAnswer, s.SinkRefuses x.length as →
              ∃ t, exec .decode s = .next t ∧ t.err = .ioSnk ∧ t.errInfo = 0 ∧ DecodeOffers s t v rest x b
                ∧ t = { s with
                        brBuf := t.brBuf, brN := t.brN, brEof := false, cur := t.cur, inp := t.inp, out := t.out,
                        sinkNext := as, err := t.err, errInfo := t.errInfo })
            ∧ (s.SinkSilent x.length →
              ∃ t, exec .decode s = .next t ∧ DecodeOffers s t v rest x b
                ∧ t = { s with
                        brBuf := t.brBuf, brN := t.brN, brEof := false, cur := t.cur, inp := t.inp, out := t.out,
                        sinkNext := [], seq := .decodeEmit }))

/-- R219: whatever the ports hold, a `DECODE` that ends without error stands on the sentinel's Leaf. -/
def Obligations.DecodeDoneStandsOnTheSentinel : Prop :=
  ∀ s t : State, s.Ready → s.treeValid = true → s.TreeOk → exec .decode s = .next t →
    t.err = .none → t.seq = .idle → t.cur = 256#10

/-! ### Frames (the lines "State written" and "Ports used" of each command's rule) -/

/-- R121, R122, R123, R137, R186: what the system commands and the responding ones leave unchanged. -/
def Obligations.FrameOfSystemAndRespondingCommands : Prop :=
  ∀ (i : Instr) (s t : State), (i = .nop ∨ i = .clr ∨ responds i = true) → exec i s = .next t → t = frameOf i s t

/-- R131, R136, R148, R166: what the table commands leave unchanged. -/
def Obligations.FrameOfTableCommands : Prop :=
  ∀ (s t : State) (idx : Nat) (val : Count),
    (exec .count s = .next t → t = frameOf .count s t)
      ∧ (exec (.wrf idx val) s = .next t → t = frameOf (.wrf idx val) s t)
      ∧ (exec .build s = .next t → t = frameOf .build s t)
      ∧ (exec .mkcode s = .next t → t = frameOf .mkcode s t)

/-- R183, R184, R201, R216: what the stream commands leave unchanged, on every path. -/
def Obligations.FrameOfStreamCommands : Prop :=
  ∀ (s t : State) (b : Bool),
    (exec (.wbit b) s = .next t → t = frameOf (.wbit b) s t)
      ∧ (exec .wclose s = .next t → t = frameOf .wclose s t)
      ∧ (exec .encode s = .next t → t = frameOf .encode s t)
      ∧ (exec .decode s = .next t → t = frameOf .decode s t)

/-! ### Rules of the whole machine -/

/-- R263: no command raises an error that is not in its row, at once or after however many waits, whatever the HOST does
meanwhile; what a command that waits can raise is also bounded by where it waits; and a word that decodes to no command raises
`E_ILLCMD`. -/
def Obligations.ErrorsOfEachCommand : Prop :=
  (∀ (i : Instr) (s t : State), s.Ready → exec i s = .next t → t.err = .none ∨ t.err ∈ errorsOf i)
    ∧ (∀ (i : Instr) (s t u : State),
        s.Ready → exec i s = .next t → GoesOn t u → u.err = .none ∨ u.err ∈ errorsOf i)
    ∧ (∀ s t : State, s.seq ≠ .idle → s.err = .none → step s = .next t → t.err = .none ∨ t.err ∈ errorsAfterWait s.seq)
    ∧ (∀ (w : Word64) (x : Reject) (s t : State),
        s.Ready → decode w = .reject x → runWord w s = .next t → t.err = .illCmd)

/-- R70, R96: a responding command that RSP and IN let finish sends exactly one word, in the error state too; no other
command sends any. That an `RBIT` with no token waits in a next state with `seq := .rbitRead` is the model's own form of R81's
wait (log entry 2). Where RSP is not taken: `WaitingChangesNothing`. -/
def Obligations.ResponsesOfEachCommand : Prop :=
  ∀ (i : Instr) (s t : State), s.seq = .idle → exec i s = .next t →
    (responds i = false → t.rsp = s.rsp)
      ∧ (responds i = true → s.RspTakes → t.seq = .idle → ∃ w, t.rsp = s.rsp ++ [w])
      ∧ (responds i = true → s.RspTakes → t.seq ≠ .idle → t.seq = .rbitRead ∧ t.rsp = s.rsp)

/-- R272, R273: in the error state a step is `CLR`, which puts everything to its reset value, or leaves everything but CMD
and RSP as it was, the sequencer being idle or left with a response that waits and raises nothing after it. -/
def Obligations.OnlyClrLeavesTheErrorState : Prop :=
  ∀ s t : State, s.err ≠ .none → s.SeqOk → step s = .next t →
    (∃ ws, s.seq = .idle ∧ s.cmd = 0x0100000000000000#64 :: ws ∧ t = { s with cmd := ws }.clear)
      ∨ (t = { s with cmd := t.cmd, rsp := t.rsp, rspRoom := t.rspRoom, seq := t.seq }
          ∧ (t.seq = .idle ∨ ∃ w, t.seq = .respond w none))

/-- R30: every step keeps what the two validity flags say of the tables. -/
def Obligations.StepKeepsTheValidityFlagsTrue : Prop :=
  ∀ s t : State, s.FlagsInv → step s = .next t → t.FlagsInv

/-- R26, R27: every step keeps the bits outside the pending and the unread ones at 0. -/
def Obligations.StepKeepsTheBitAdaptersClean : Prop :=
  ∀ s t : State, s.BitsOk → step s = .next t → t.BitsOk

/-- R29: the priority queue is empty between commands. -/
def Obligations.StepKeepsTheQueueEmpty : Prop :=
  ∀ s t : State, s.QueueOk → step s = .next t → t.QueueOk

/-- R80, R300, R302: no action of the HOST, reset included, breaks the invariants. -/
def Obligations.HostActionsKeepTheInvariants : Prop :=
  ∀ (s : State) (a : HostAction),
    (s.FlagsInv → (s.hostAct a).FlagsInv) ∧ (s.BitsOk → (s.hostAct a).BitsOk) ∧ (s.QueueOk → (s.hostAct a).QueueOk)

/-- R26, R27, R29, R30, R36: the invariants hold at reset. -/
def Obligations.ResetMeetsTheInvariants : Prop :=
  State.reset.FlagsInv ∧ State.reset.BitsOk ∧ State.reset.QueueOk

/-- R66, R68, R81: a command that waited for tokens, or for the sink, and then gets them ends as if they had been there from
the start. R81, R96: a responding command whose word RSP does not take sends nothing and raises nothing, and waits, unless it is
an `RBIT` that waits for a token first; once RSP takes the word it ends as if RSP had been taken from the start, the error that
follows the word included. The waits are the model's own form: a next state whose `seq` says where (log entries 2 and 6). -/
def Obligations.WaitingChangesNothing : Prop :=
  (∀ (s t : State) (i : Instr) (a b : List Token),
      s.Ready → b ≠ [] → exec i { s with inp := a } = .next t → waitingPort t.seq = .inp →
        step { t with inp := b } = exec i { s with inp := a ++ b })
    ∧ (∀ (s t : State) (i : Instr) (a b : List SinkAnswer),
        s.Ready → b ≠ [] → exec i { s with sinkNext := a, sinkRest := none } = .next t → waitingPort t.seq = .out →
          step { t with sinkNext := b } = exec i { s with sinkNext := a ++ b, sinkRest := none })
    ∧ (∀ (s : State) (i : Instr) (room : Option Nat), s.seq = .idle → responds i = true → room ≠ some 0 →
        ∃ t, exec i { s with rspRoom := some 0 } = .next t ∧ t.rsp = s.rsp ∧ t.err = s.err ∧ t.errInfo = s.errInfo
          ∧ ((i = .rbit ∧ s.err = .none ∧ s.brEof = false ∧ s.brN = 0 ∧ s.inp = [] ∧ t.seq = .rbitRead)
            ∨ ((∃ w after, t.seq = .respond w after)
              ∧ step { t with rspRoom := room } = exec i { s with rspRoom := room })))
    ∧ (∀ (s : State) (w : Word64) (after : Option (ErrCode × Info)),
        s.seq = .respond w after → s.RspTakes →
          step s = .next ({ (s.answered w).afterRespond after with seq := .idle }))

/-- R241, the round trip, on the commands of R235 and R236: `COUNT`, `BUILD`, `MKCODE` and `ENCODE` on `X`, twice presented,
end without error, and `BUILD` and `DECODE` on the payload in any state whose table is the one counted give `X` back. -/
def Obligations.RoundTrip : Prop :=
  ∀ (s : State) (x : List Byte) (rest : List Token),
    (∀ b, x.count b < 2 ^ 32) → s.SinkOk → s.inp = x.map .byte ++ .endTok :: (x.map .byte ++ .endTok :: rest) →
      ∃ s₁ s₂ s₃ s₄ payload,
        exec .count s.clear = .next s₁ ∧ exec .build s₁ = .next s₂ ∧ exec .mkcode s₂ = .next s₃
          ∧ exec .encode s₃ = .next s₄ ∧ s₄.err = .none ∧ s₄.seq = .idle ∧ s₄.inp = rest
          ∧ s₄.out = s.out ++ payload
          ∧ ∀ (d : State) (rest' : List Token),
              d.Ready → d.SinkOk → (∀ i ≤ 256, d.freqAt i = s₁.freqAt i) →
              d.inp = payload.map .byte ++ .endTok :: rest' →
                ∃ d₁ d₂, exec .build d = .next d₁ ∧ exec .decode d₁ = .next d₂
                  ∧ d₂.err = .none ∧ d₂.seq = .idle ∧ d₂.out = d.out ++ x ∧ d₂.inp = .endTok :: rest'
end

