-- ==== Sys2Proof/Laws/State.lean ====
section
/-! SUPPORT. One lemma per field per named update of the state, each true by definition, so that no proof unfolds a record
update. -/

namespace Sys2Proof.Machine

/-! ### `State.setFreq` -/

@[simp] theorem State.setFreq_freq (s : State) (i : Nat) (v : Count) : (s.setFreq i v).freq = tableSet s.freq i v := rfl
@[simp] theorem State.setFreq_node (s : State) (i : Nat) (v : Count) : (s.setFreq i v).node = s.node := rfl
@[simp] theorem State.setFreq_root (s : State) (i : Nat) (v : Count) : (s.setFreq i v).root = s.root := rfl
@[simp] theorem State.setFreq_nn (s : State) (i : Nat) (v : Count) : (s.setFreq i v).nn = s.nn := rfl
@[simp] theorem State.setFreq_code (s : State) (i : Nat) (v : Count) : (s.setFreq i v).code = s.code := rfl
@[simp] theorem State.setFreq_bwAcc (s : State) (i : Nat) (v : Count) : (s.setFreq i v).bwAcc = s.bwAcc := rfl
@[simp] theorem State.setFreq_bwN (s : State) (i : Nat) (v : Count) : (s.setFreq i v).bwN = s.bwN := rfl
@[simp] theorem State.setFreq_brBuf (s : State) (i : Nat) (v : Count) : (s.setFreq i v).brBuf = s.brBuf := rfl
@[simp] theorem State.setFreq_brN (s : State) (i : Nat) (v : Count) : (s.setFreq i v).brN = s.brN := rfl
@[simp] theorem State.setFreq_brEof (s : State) (i : Nat) (v : Count) : (s.setFreq i v).brEof = s.brEof := rfl
@[simp] theorem State.setFreq_cur (s : State) (i : Nat) (v : Count) : (s.setFreq i v).cur = s.cur := rfl
@[simp] theorem State.setFreq_pq (s : State) (i : Nat) (v : Count) : (s.setFreq i v).pq = s.pq := rfl
@[simp] theorem State.setFreq_treeValid (s : State) (i : Nat) (v : Count) : (s.setFreq i v).treeValid = s.treeValid := rfl
@[simp] theorem State.setFreq_codesValid (s : State) (i : Nat) (v : Count) : (s.setFreq i v).codesValid = s.codesValid := rfl
@[simp] theorem State.setFreq_err (s : State) (i : Nat) (v : Count) : (s.setFreq i v).err = s.err := rfl
@[simp] theorem State.setFreq_errInfo (s : State) (i : Nat) (v : Count) : (s.setFreq i v).errInfo = s.errInfo := rfl
@[simp] theorem State.setFreq_seq (s : State) (i : Nat) (v : Count) : (s.setFreq i v).seq = s.seq := rfl
@[simp] theorem State.setFreq_cmd (s : State) (i : Nat) (v : Count) : (s.setFreq i v).cmd = s.cmd := rfl
@[simp] theorem State.setFreq_inp (s : State) (i : Nat) (v : Count) : (s.setFreq i v).inp = s.inp := rfl
@[simp] theorem State.setFreq_sinkNext (s : State) (i : Nat) (v : Count) : (s.setFreq i v).sinkNext = s.sinkNext := rfl
@[simp] theorem State.setFreq_sinkRest (s : State) (i : Nat) (v : Count) : (s.setFreq i v).sinkRest = s.sinkRest := rfl
@[simp] theorem State.setFreq_out (s : State) (i : Nat) (v : Count) : (s.setFreq i v).out = s.out := rfl
@[simp] theorem State.setFreq_rsp (s : State) (i : Nat) (v : Count) : (s.setFreq i v).rsp = s.rsp := rfl
@[simp] theorem State.setFreq_rspRoom (s : State) (i : Nat) (v : Count) : (s.setFreq i v).rspRoom = s.rspRoom := rfl

/-! ### `State.raise` -/

@[simp] theorem State.raise_freq (s : State) (e : ErrCode) (info : Info) : (s.raise e info).freq = s.freq := rfl
@[simp] theorem State.raise_node (s : State) (e : ErrCode) (info : Info) : (s.raise e info).node = s.node := rfl
@[simp] theorem State.raise_root (s : State) (e : ErrCode) (info : Info) : (s.raise e info).root = s.root := rfl
@[simp] theorem State.raise_nn (s : State) (e : ErrCode) (info : Info) : (s.raise e info).nn = s.nn := rfl
@[simp] theorem State.raise_code (s : State) (e : ErrCode) (info : Info) : (s.raise e info).code = s.code := rfl
@[simp] theorem State.raise_bwAcc (s : State) (e : ErrCode) (info : Info) : (s.raise e info).bwAcc = s.bwAcc := rfl
@[simp] theorem State.raise_bwN (s : State) (e : ErrCode) (info : Info) : (s.raise e info).bwN = s.bwN := rfl
@[simp] theorem State.raise_brBuf (s : State) (e : ErrCode) (info : Info) : (s.raise e info).brBuf = s.brBuf := rfl
@[simp] theorem State.raise_brN (s : State) (e : ErrCode) (info : Info) : (s.raise e info).brN = s.brN := rfl
@[simp] theorem State.raise_brEof (s : State) (e : ErrCode) (info : Info) : (s.raise e info).brEof = s.brEof := rfl
@[simp] theorem State.raise_cur (s : State) (e : ErrCode) (info : Info) : (s.raise e info).cur = s.cur := rfl
@[simp] theorem State.raise_pq (s : State) (e : ErrCode) (info : Info) : (s.raise e info).pq = s.pq := rfl
@[simp] theorem State.raise_treeValid (s : State) (e : ErrCode) (info : Info) : (s.raise e info).treeValid = s.treeValid := rfl
@[simp] theorem State.raise_codesValid (s : State) (e : ErrCode) (info : Info) : (s.raise e info).codesValid = s.codesValid := rfl
@[simp] theorem State.raise_err (s : State) (e : ErrCode) (info : Info) : (s.raise e info).err = e := rfl
@[simp] theorem State.raise_errInfo (s : State) (e : ErrCode) (info : Info) : (s.raise e info).errInfo = info := rfl
@[simp] theorem State.raise_seq (s : State) (e : ErrCode) (info : Info) : (s.raise e info).seq = s.seq := rfl
@[simp] theorem State.raise_cmd (s : State) (e : ErrCode) (info : Info) : (s.raise e info).cmd = s.cmd := rfl
@[simp] theorem State.raise_inp (s : State) (e : ErrCode) (info : Info) : (s.raise e info).inp = s.inp := rfl
@[simp] theorem State.raise_sinkNext (s : State) (e : ErrCode) (info : Info) : (s.raise e info).sinkNext = s.sinkNext := rfl
@[simp] theorem State.raise_sinkRest (s : State) (e : ErrCode) (info : Info) : (s.raise e info).sinkRest = s.sinkRest := rfl
@[simp] theorem State.raise_out (s : State) (e : ErrCode) (info : Info) : (s.raise e info).out = s.out := rfl
@[simp] theorem State.raise_rsp (s : State) (e : ErrCode) (info : Info) : (s.raise e info).rsp = s.rsp := rfl
@[simp] theorem State.raise_rspRoom (s : State) (e : ErrCode) (info : Info) : (s.raise e info).rspRoom = s.rspRoom := rfl

/-! ### `State.suspend` -/

@[simp] theorem State.suspend_freq (s : State) (a : Activity) : (s.suspend a).freq = s.freq := rfl
@[simp] theorem State.suspend_node (s : State) (a : Activity) : (s.suspend a).node = s.node := rfl
@[simp] theorem State.suspend_root (s : State) (a : Activity) : (s.suspend a).root = s.root := rfl
@[simp] theorem State.suspend_nn (s : State) (a : Activity) : (s.suspend a).nn = s.nn := rfl
@[simp] theorem State.suspend_code (s : State) (a : Activity) : (s.suspend a).code = s.code := rfl
@[simp] theorem State.suspend_bwAcc (s : State) (a : Activity) : (s.suspend a).bwAcc = s.bwAcc := rfl
@[simp] theorem State.suspend_bwN (s : State) (a : Activity) : (s.suspend a).bwN = s.bwN := rfl
@[simp] theorem State.suspend_brBuf (s : State) (a : Activity) : (s.suspend a).brBuf = s.brBuf := rfl
@[simp] theorem State.suspend_brN (s : State) (a : Activity) : (s.suspend a).brN = s.brN := rfl
@[simp] theorem State.suspend_brEof (s : State) (a : Activity) : (s.suspend a).brEof = s.brEof := rfl
@[simp] theorem State.suspend_cur (s : State) (a : Activity) : (s.suspend a).cur = s.cur := rfl
@[simp] theorem State.suspend_pq (s : State) (a : Activity) : (s.suspend a).pq = s.pq := rfl
@[simp] theorem State.suspend_treeValid (s : State) (a : Activity) : (s.suspend a).treeValid = s.treeValid := rfl
@[simp] theorem State.suspend_codesValid (s : State) (a : Activity) : (s.suspend a).codesValid = s.codesValid := rfl
@[simp] theorem State.suspend_err (s : State) (a : Activity) : (s.suspend a).err = s.err := rfl
@[simp] theorem State.suspend_errInfo (s : State) (a : Activity) : (s.suspend a).errInfo = s.errInfo := rfl
@[simp] theorem State.suspend_seq (s : State) (a : Activity) : (s.suspend a).seq = a := rfl
@[simp] theorem State.suspend_cmd (s : State) (a : Activity) : (s.suspend a).cmd = s.cmd := rfl
@[simp] theorem State.suspend_inp (s : State) (a : Activity) : (s.suspend a).inp = s.inp := rfl
@[simp] theorem State.suspend_sinkNext (s : State) (a : Activity) : (s.suspend a).sinkNext = s.sinkNext := rfl
@[simp] theorem State.suspend_sinkRest (s : State) (a : Activity) : (s.suspend a).sinkRest = s.sinkRest := rfl
@[simp] theorem State.suspend_out (s : State) (a : Activity) : (s.suspend a).out = s.out := rfl
@[simp] theorem State.suspend_rsp (s : State) (a : Activity) : (s.suspend a).rsp = s.rsp := rfl
@[simp] theorem State.suspend_rspRoom (s : State) (a : Activity) : (s.suspend a).rspRoom = s.rspRoom := rfl

/-! ### `State.invalidate` -/

@[simp] theorem State.invalidate_freq (s : State) : (s.invalidate).freq = s.freq := rfl
@[simp] theorem State.invalidate_node (s : State) : (s.invalidate).node = s.node := rfl
@[simp] theorem State.invalidate_root (s : State) : (s.invalidate).root = s.root := rfl
@[simp] theorem State.invalidate_nn (s : State) : (s.invalidate).nn = s.nn := rfl
@[simp] theorem State.invalidate_code (s : State) : (s.invalidate).code = s.code := rfl
@[simp] theorem State.invalidate_bwAcc (s : State) : (s.invalidate).bwAcc = s.bwAcc := rfl
@[simp] theorem State.invalidate_bwN (s : State) : (s.invalidate).bwN = s.bwN := rfl
@[simp] theorem State.invalidate_brBuf (s : State) : (s.invalidate).brBuf = s.brBuf := rfl
@[simp] theorem State.invalidate_brN (s : State) : (s.invalidate).brN = s.brN := rfl
@[simp] theorem State.invalidate_brEof (s : State) : (s.invalidate).brEof = s.brEof := rfl
@[simp] theorem State.invalidate_cur (s : State) : (s.invalidate).cur = s.cur := rfl
@[simp] theorem State.invalidate_pq (s : State) : (s.invalidate).pq = s.pq := rfl
@[simp] theorem State.invalidate_treeValid (s : State) : (s.invalidate).treeValid = false := rfl
@[simp] theorem State.invalidate_codesValid (s : State) : (s.invalidate).codesValid = false := rfl
@[simp] theorem State.invalidate_err (s : State) : (s.invalidate).err = s.err := rfl
@[simp] theorem State.invalidate_errInfo (s : State) : (s.invalidate).errInfo = s.errInfo := rfl
@[simp] theorem State.invalidate_seq (s : State) : (s.invalidate).seq = s.seq := rfl
@[simp] theorem State.invalidate_cmd (s : State) : (s.invalidate).cmd = s.cmd := rfl
@[simp] theorem State.invalidate_inp (s : State) : (s.invalidate).inp = s.inp := rfl
@[simp] theorem State.invalidate_sinkNext (s : State) : (s.invalidate).sinkNext = s.sinkNext := rfl
@[simp] theorem State.invalidate_sinkRest (s : State) : (s.invalidate).sinkRest = s.sinkRest := rfl
@[simp] theorem State.invalidate_out (s : State) : (s.invalidate).out = s.out := rfl
@[simp] theorem State.invalidate_rsp (s : State) : (s.invalidate).rsp = s.rsp := rfl
@[simp] theorem State.invalidate_rspRoom (s : State) : (s.invalidate).rspRoom = s.rspRoom := rfl

/-! ### `State.countStart` -/

@[simp] theorem State.countStart_freq (s : State) : (s.countStart).freq = Vector.replicate 257 0 := rfl
@[simp] theorem State.countStart_node (s : State) : (s.countStart).node = s.node := rfl
@[simp] theorem State.countStart_root (s : State) : (s.countStart).root = s.root := rfl
@[simp] theorem State.countStart_nn (s : State) : (s.countStart).nn = s.nn := rfl
@[simp] theorem State.countStart_code (s : State) : (s.countStart).code = s.code := rfl
@[simp] theorem State.countStart_bwAcc (s : State) : (s.countStart).bwAcc = s.bwAcc := rfl
@[simp] theorem State.countStart_bwN (s : State) : (s.countStart).bwN = s.bwN := rfl
@[simp] theorem State.countStart_brBuf (s : State) : (s.countStart).brBuf = s.brBuf := rfl
@[simp] theorem State.countStart_brN (s : State) : (s.countStart).brN = s.brN := rfl
@[simp] theorem State.countStart_brEof (s : State) : (s.countStart).brEof = s.brEof := rfl
@[simp] theorem State.countStart_cur (s : State) : (s.countStart).cur = s.cur := rfl
@[simp] theorem State.countStart_pq (s : State) : (s.countStart).pq = s.pq := rfl
@[simp] theorem State.countStart_treeValid (s : State) : (s.countStart).treeValid = false := rfl
@[simp] theorem State.countStart_codesValid (s : State) : (s.countStart).codesValid = false := rfl
@[simp] theorem State.countStart_err (s : State) : (s.countStart).err = s.err := rfl
@[simp] theorem State.countStart_errInfo (s : State) : (s.countStart).errInfo = s.errInfo := rfl
@[simp] theorem State.countStart_seq (s : State) : (s.countStart).seq = s.seq := rfl
@[simp] theorem State.countStart_cmd (s : State) : (s.countStart).cmd = s.cmd := rfl
@[simp] theorem State.countStart_inp (s : State) : (s.countStart).inp = s.inp := rfl
@[simp] theorem State.countStart_sinkNext (s : State) : (s.countStart).sinkNext = s.sinkNext := rfl
@[simp] theorem State.countStart_sinkRest (s : State) : (s.countStart).sinkRest = s.sinkRest := rfl
@[simp] theorem State.countStart_out (s : State) : (s.countStart).out = s.out := rfl
@[simp] theorem State.countStart_rsp (s : State) : (s.countStart).rsp = s.rsp := rfl
@[simp] theorem State.countStart_rspRoom (s : State) : (s.countStart).rspRoom = s.rspRoom := rfl

/-! ### `State.decodeStart` -/

@[simp] theorem State.decodeStart_freq (s : State) : (s.decodeStart).freq = s.freq := rfl
@[simp] theorem State.decodeStart_node (s : State) : (s.decodeStart).node = s.node := rfl
@[simp] theorem State.decodeStart_root (s : State) : (s.decodeStart).root = s.root := rfl
@[simp] theorem State.decodeStart_nn (s : State) : (s.decodeStart).nn = s.nn := rfl
@[simp] theorem State.decodeStart_code (s : State) : (s.decodeStart).code = s.code := rfl
@[simp] theorem State.decodeStart_bwAcc (s : State) : (s.decodeStart).bwAcc = s.bwAcc := rfl
@[simp] theorem State.decodeStart_bwN (s : State) : (s.decodeStart).bwN = s.bwN := rfl
@[simp] theorem State.decodeStart_brBuf (s : State) : (s.decodeStart).brBuf = 0 := rfl
@[simp] theorem State.decodeStart_brN (s : State) : (s.decodeStart).brN = 0 := rfl
@[simp] theorem State.decodeStart_brEof (s : State) : (s.decodeStart).brEof = false := rfl
@[simp] theorem State.decodeStart_cur (s : State) : (s.decodeStart).cur = s.root := rfl
@[simp] theorem State.decodeStart_pq (s : State) : (s.decodeStart).pq = s.pq := rfl
@[simp] theorem State.decodeStart_treeValid (s : State) : (s.decodeStart).treeValid = s.treeValid := rfl
@[simp] theorem State.decodeStart_codesValid (s : State) : (s.decodeStart).codesValid = s.codesValid := rfl
@[simp] theorem State.decodeStart_err (s : State) : (s.decodeStart).err = s.err := rfl
@[simp] theorem State.decodeStart_errInfo (s : State) : (s.decodeStart).errInfo = s.errInfo := rfl
@[simp] theorem State.decodeStart_seq (s : State) : (s.decodeStart).seq = s.seq := rfl
@[simp] theorem State.decodeStart_cmd (s : State) : (s.decodeStart).cmd = s.cmd := rfl
@[simp] theorem State.decodeStart_inp (s : State) : (s.decodeStart).inp = s.inp := rfl
@[simp] theorem State.decodeStart_sinkNext (s : State) : (s.decodeStart).sinkNext = s.sinkNext := rfl
@[simp] theorem State.decodeStart_sinkRest (s : State) : (s.decodeStart).sinkRest = s.sinkRest := rfl
@[simp] theorem State.decodeStart_out (s : State) : (s.decodeStart).out = s.out := rfl
@[simp] theorem State.decodeStart_rsp (s : State) : (s.decodeStart).rsp = s.rsp := rfl
@[simp] theorem State.decodeStart_rspRoom (s : State) : (s.decodeStart).rspRoom = s.rspRoom := rfl

/-! ### `State.answered` -/

@[simp] theorem State.answered_freq (s : State) (w : Word64) : (s.answered w).freq = s.freq := rfl
@[simp] theorem State.answered_node (s : State) (w : Word64) : (s.answered w).node = s.node := rfl
@[simp] theorem State.answered_root (s : State) (w : Word64) : (s.answered w).root = s.root := rfl
@[simp] theorem State.answered_nn (s : State) (w : Word64) : (s.answered w).nn = s.nn := rfl
@[simp] theorem State.answered_code (s : State) (w : Word64) : (s.answered w).code = s.code := rfl
@[simp] theorem State.answered_bwAcc (s : State) (w : Word64) : (s.answered w).bwAcc = s.bwAcc := rfl
@[simp] theorem State.answered_bwN (s : State) (w : Word64) : (s.answered w).bwN = s.bwN := rfl
@[simp] theorem State.answered_brBuf (s : State) (w : Word64) : (s.answered w).brBuf = s.brBuf := rfl
@[simp] theorem State.answered_brN (s : State) (w : Word64) : (s.answered w).brN = s.brN := rfl
@[simp] theorem State.answered_brEof (s : State) (w : Word64) : (s.answered w).brEof = s.brEof := rfl
@[simp] theorem State.answered_cur (s : State) (w : Word64) : (s.answered w).cur = s.cur := rfl
@[simp] theorem State.answered_pq (s : State) (w : Word64) : (s.answered w).pq = s.pq := rfl
@[simp] theorem State.answered_treeValid (s : State) (w : Word64) : (s.answered w).treeValid = s.treeValid := rfl
@[simp] theorem State.answered_codesValid (s : State) (w : Word64) : (s.answered w).codesValid = s.codesValid := rfl
@[simp] theorem State.answered_err (s : State) (w : Word64) : (s.answered w).err = s.err := rfl
@[simp] theorem State.answered_errInfo (s : State) (w : Word64) : (s.answered w).errInfo = s.errInfo := rfl
@[simp] theorem State.answered_seq (s : State) (w : Word64) : (s.answered w).seq = s.seq := rfl
@[simp] theorem State.answered_cmd (s : State) (w : Word64) : (s.answered w).cmd = s.cmd := rfl
@[simp] theorem State.answered_inp (s : State) (w : Word64) : (s.answered w).inp = s.inp := rfl
@[simp] theorem State.answered_sinkNext (s : State) (w : Word64) : (s.answered w).sinkNext = s.sinkNext := rfl
@[simp] theorem State.answered_sinkRest (s : State) (w : Word64) : (s.answered w).sinkRest = s.sinkRest := rfl
@[simp] theorem State.answered_out (s : State) (w : Word64) : (s.answered w).out = s.out := rfl
@[simp] theorem State.answered_rsp (s : State) (w : Word64) : (s.answered w).rsp = s.rsp ++ [w] := rfl
@[simp] theorem State.answered_rspRoom (s : State) (w : Word64) : (s.answered w).rspRoom = s.rspRoom.map (· - 1) := rfl

/-! ### `State.descend` -/

@[simp] theorem State.descend_freq (s : State) (b : Bool) : (s.descend b).freq = s.freq := rfl
@[simp] theorem State.descend_node (s : State) (b : Bool) : (s.descend b).node = s.node := rfl
@[simp] theorem State.descend_root (s : State) (b : Bool) : (s.descend b).root = s.root := rfl
@[simp] theorem State.descend_nn (s : State) (b : Bool) : (s.descend b).nn = s.nn := rfl
@[simp] theorem State.descend_code (s : State) (b : Bool) : (s.descend b).code = s.code := rfl
@[simp] theorem State.descend_bwAcc (s : State) (b : Bool) : (s.descend b).bwAcc = s.bwAcc := rfl
@[simp] theorem State.descend_bwN (s : State) (b : Bool) : (s.descend b).bwN = s.bwN := rfl
@[simp] theorem State.descend_brBuf (s : State) (b : Bool) : (s.descend b).brBuf = s.brBuf := rfl
@[simp] theorem State.descend_brN (s : State) (b : Bool) : (s.descend b).brN = s.brN := rfl
@[simp] theorem State.descend_brEof (s : State) (b : Bool) : (s.descend b).brEof = s.brEof := rfl
@[simp] theorem State.descend_cur (s : State) (b : Bool) :
    (s.descend b).cur = childOf s.node s.cur b := rfl
@[simp] theorem State.descend_pq (s : State) (b : Bool) : (s.descend b).pq = s.pq := rfl
@[simp] theorem State.descend_treeValid (s : State) (b : Bool) : (s.descend b).treeValid = s.treeValid := rfl
@[simp] theorem State.descend_codesValid (s : State) (b : Bool) : (s.descend b).codesValid = s.codesValid := rfl
@[simp] theorem State.descend_err (s : State) (b : Bool) : (s.descend b).err = s.err := rfl
@[simp] theorem State.descend_errInfo (s : State) (b : Bool) : (s.descend b).errInfo = s.errInfo := rfl
@[simp] theorem State.descend_seq (s : State) (b : Bool) : (s.descend b).seq = s.seq := rfl
@[simp] theorem State.descend_cmd (s : State) (b : Bool) : (s.descend b).cmd = s.cmd := rfl
@[simp] theorem State.descend_inp (s : State) (b : Bool) : (s.descend b).inp = s.inp := rfl
@[simp] theorem State.descend_sinkNext (s : State) (b : Bool) : (s.descend b).sinkNext = s.sinkNext := rfl
@[simp] theorem State.descend_sinkRest (s : State) (b : Bool) : (s.descend b).sinkRest = s.sinkRest := rfl
@[simp] theorem State.descend_out (s : State) (b : Bool) : (s.descend b).out = s.out := rfl
@[simp] theorem State.descend_rsp (s : State) (b : Bool) : (s.descend b).rsp = s.rsp := rfl
@[simp] theorem State.descend_rspRoom (s : State) (b : Bool) : (s.descend b).rspRoom = s.rspRoom := rfl

/-! ### `State.clear` -/

@[simp] theorem State.clear_freq (s : State) : (s.clear).freq = State.reset.freq := rfl
@[simp] theorem State.clear_node (s : State) : (s.clear).node = State.reset.node := rfl
@[simp] theorem State.clear_root (s : State) : (s.clear).root = State.reset.root := rfl
@[simp] theorem State.clear_nn (s : State) : (s.clear).nn = State.reset.nn := rfl
@[simp] theorem State.clear_code (s : State) : (s.clear).code = State.reset.code := rfl
@[simp] theorem State.clear_bwAcc (s : State) : (s.clear).bwAcc = State.reset.bwAcc := rfl
@[simp] theorem State.clear_bwN (s : State) : (s.clear).bwN = State.reset.bwN := rfl
@[simp] theorem State.clear_brBuf (s : State) : (s.clear).brBuf = State.reset.brBuf := rfl
@[simp] theorem State.clear_brN (s : State) : (s.clear).brN = State.reset.brN := rfl
@[simp] theorem State.clear_brEof (s : State) : (s.clear).brEof = State.reset.brEof := rfl
@[simp] theorem State.clear_cur (s : State) : (s.clear).cur = State.reset.cur := rfl
@[simp] theorem State.clear_pq (s : State) : (s.clear).pq = State.reset.pq := rfl
@[simp] theorem State.clear_treeValid (s : State) : (s.clear).treeValid = State.reset.treeValid := rfl
@[simp] theorem State.clear_codesValid (s : State) : (s.clear).codesValid = State.reset.codesValid := rfl
@[simp] theorem State.clear_err (s : State) : (s.clear).err = State.reset.err := rfl
@[simp] theorem State.clear_errInfo (s : State) : (s.clear).errInfo = State.reset.errInfo := rfl
@[simp] theorem State.clear_seq (s : State) : (s.clear).seq = State.reset.seq := rfl
@[simp] theorem State.clear_cmd (s : State) : (s.clear).cmd = s.cmd := rfl
@[simp] theorem State.clear_inp (s : State) : (s.clear).inp = s.inp := rfl
@[simp] theorem State.clear_sinkNext (s : State) : (s.clear).sinkNext = s.sinkNext := rfl
@[simp] theorem State.clear_sinkRest (s : State) : (s.clear).sinkRest = s.sinkRest := rfl
@[simp] theorem State.clear_out (s : State) : (s.clear).out = s.out := rfl
@[simp] theorem State.clear_rsp (s : State) : (s.clear).rsp = s.rsp := rfl
@[simp] theorem State.clear_rspRoom (s : State) : (s.clear).rspRoom = s.rspRoom := rfl

end Sys2Proof.Machine
end

