-- ==== Sys2Proof/Laws/Ops.lean ====
section
/-! SUPPORT. What each shared operation over the tables and the ports can do, said once. -/

namespace Sys2Proof.Machine

/-! ### Tables -/

/-- A read of the entry written, inside the table. -/
theorem tableGet_tableSet_self {α : Type} {n : Nat} (t : Vector α n) (i : Nat) (v d : α) (h : i < n) :
    tableGet (tableSet t i v) i d = v := by
  simp [tableGet, tableSet, h]

/-- A read of any other entry. -/
theorem tableGet_tableSet_ne {α : Type} {n : Nat} (t : Vector α n) {i j : Nat} (v d : α) (h : j ≠ i) :
    tableGet (tableSet t i v) j d = tableGet t j d := by
  by_cases hj : j < n <;> simp [tableGet, tableSet, hj, Ne.symm h]

/-- A read after a write, both cases in one. -/
theorem tableGet_tableSet {α : Type} {n : Nat} (t : Vector α n) (i j : Nat) (v d : α) (h : i < n) :
    tableGet (tableSet t i v) j d = if j = i then v else tableGet t j d := by
  split
  · next e => subst e; exact tableGet_tableSet_self t j v d h
  · next e => exact tableGet_tableSet_ne t v d e

/-- A cleared table reads as the cleared entry everywhere. -/
@[simp] theorem tableGet_replicate {α : Type} (n : Nat) (d : α) (i : Nat) :
    tableGet (Vector.replicate n d) i d = d := by
  simp [tableGet]

/-- An entry outside the table. -/
theorem tableGet_of_le {α : Type} {n : Nat} (t : Vector α n) {i : Nat} (d : α) (h : n ≤ i) : tableGet t i d = d := by
  simp [tableGet, Nat.not_lt.mpr h]

/-- A write outside the table does nothing. -/
theorem tableSet_of_le {α : Type} {n : Nat} (t : Vector α n) {i : Nat} (v : α) (h : n ≤ i) : tableSet t i v = t := by
  simp [tableSet, Vector.setIfInBounds, Array.setIfInBounds, Nat.not_lt.mpr h]

/-- Two tables with the same entries are the same. -/
theorem table_ext {α : Type} {n : Nat} {t u : Vector α n} (d : α) (h : ∀ i < n, tableGet t i d = tableGet u i d) :
    t = u := by
  ext i hi
  simpa [tableGet, hi] using h i hi

/-- An entry of a frequency table after a write. -/
theorem countIn_tableSet (f : FreqTable) {i : Nat} (j : Nat) (v : Count) (h : i ≤ 256) :
    countIn (tableSet f i v) j = if j = i then v else countIn f j :=
  tableGet_tableSet f i j v 0#32 (by omega)

/-- A cleared frequency table. -/
@[simp] theorem countIn_replicate (i : Nat) : countIn (Vector.replicate 257 0) i = 0#32 := tableGet_replicate 257 0#32 i

/-- An entry of the arena after a write. -/
theorem nodeIn_tableSet (t : NodeTable) {i : Nat} (n : NodeIx) (v : Node) (h : i ≤ 512) :
    nodeIn (tableSet t i v) n = if n.toNat = i then v else nodeIn t n :=
  tableGet_tableSet t i n.toNat v Node.empty (by omega)

/-- A cleared arena. -/
@[simp] theorem nodeIn_replicate (n : NodeIx) : nodeIn (Vector.replicate 513 Node.empty) n = Node.empty :=
  tableGet_replicate 513 Node.empty n.toNat

/-- An entry of a code table after a write. -/
theorem codeIn_tableSet (c : CodeTable) {i : Nat} (j : Nat) (v : Code) (h : i ≤ 256) :
    codeIn (tableSet c i v) j = if j = i then v else codeIn c j :=
  tableGet_tableSet c i j v none (by omega)

/-- A cleared code table. -/
@[simp] theorem codeIn_noCodes (i : Nat) : codeIn noCodes i = none := tableGet_replicate 257 none i

/-- `FREQ` after a write of one entry. -/
theorem State.freqAt_setFreq (s : State) (i j : Nat) (v : Count) (h : i ≤ 256) :
    (s.setFreq i v).freqAt j = if j = i then v else s.freqAt j :=
  tableGet_tableSet s.freq i j v 0#32 (by omega)

/-- Every entry of `FREQ` is 0 at the start of `COUNT`. -/
@[simp] theorem State.freqAt_countStart (s : State) (i : Nat) : s.countStart.freqAt i = 0 :=
  tableGet_replicate 257 0#32 i

/-! ### Ports -/

/-- `SrcRead` takes the first token, or there is none. -/
theorem State.srcRead_cases (s : State) :
    (s.inp = [] ∧ s.srcRead = none) ∨ ∃ t ts, s.inp = t :: ts ∧ s.srcRead = some (t, { s with inp := ts }) := by
  unfold State.srcRead
  cases h : s.inp with
  | nil => exact .inl ⟨rfl, rfl⟩
  | cons t ts => exact .inr ⟨t, ts, rfl, rfl⟩

/-- The sink's answer is the first listed one, else the standing one, else there is none. -/
theorem State.sinkAnswer_cases (s : State) :
    (∃ a as, s.sinkNext = a :: as ∧ s.sinkAnswer = some (a, { s with sinkNext := as }))
      ∨ (∃ a, s.sinkNext = [] ∧ s.sinkRest = some a ∧ s.sinkAnswer = some (a, s))
      ∨ (s.sinkNext = [] ∧ s.sinkRest = none ∧ s.sinkAnswer = none) := by
  unfold State.sinkAnswer
  cases h : s.sinkNext with
  | cons a as => exact .inl ⟨a, as, rfl, rfl⟩
  | nil =>
    cases h' : s.sinkRest with
    | some a => exact .inr (.inl ⟨a, rfl, rfl, rfl⟩)
    | none => exact .inr (.inr ⟨rfl, rfl, rfl⟩)

/-- Everything `SinkWrite` can do: the byte is appended, or refused, and at most the list of answers is used up; or it
waits, and then no answer is there. -/
theorem State.sinkWrite_cases (s : State) (b : Byte) :
    (∃ as, s.sinkWrite b = .accepted { s with sinkNext := as, out := s.out ++ [b] }
        ∧ (s.sinkNext = .ok :: as ∨ (s.sinkNext = [] ∧ as = [] ∧ s.sinkRest = some .ok)))
      ∨ (∃ as, s.sinkWrite b = .failed { s with sinkNext := as }
        ∧ (s.sinkNext = .fail :: as ∨ (s.sinkNext = [] ∧ as = [] ∧ s.sinkRest = some .fail)))
      ∨ (s.sinkWrite b = .wait ∧ s.sinkNext = [] ∧ s.sinkRest = none) := by
  unfold State.sinkWrite
  rcases s.sinkAnswer_cases with ⟨a, as, h, e⟩ | ⟨a, h, h', e⟩ | ⟨h, h', e⟩
  · cases a
    · exact .inl ⟨as, by simp [e], .inl h⟩
    · exact .inr (.inl ⟨as, by simp [e], .inl h⟩)
  · cases a
    · refine .inl ⟨[], ?_, .inr ⟨h, rfl, h'⟩⟩
      rw [e]; simp only; congr 1; cases s; simp_all
    · refine .inr (.inl ⟨[], ?_, .inr ⟨h, rfl, h'⟩⟩)
      rw [e]; simp only; congr 1; cases s; simp_all
  · exact .inr (.inr ⟨by simp [e], h, h'⟩)

/-- A sink that answers `OK` throughout accepts the byte and goes on so. -/
theorem State.sinkWrite_of_sinkOk (s : State) (b : Byte) (h : s.SinkOk) :
    ∃ as, s.sinkWrite b = .accepted { s with sinkNext := as, out := s.out ++ [b] } ∧ ∀ a ∈ as, a = SinkAnswer.ok := by
  rcases s.sinkWrite_cases b with ⟨as, e, h' | ⟨h', rfl, -⟩⟩ | ⟨as, e, h' | ⟨h', -, h''⟩⟩ | ⟨e, h', h''⟩
  · exact ⟨as, e, fun a ha => h.1 a (by simp [h', ha])⟩
  · exact ⟨[], e, by simp⟩
  · exact absurd (h.1 .fail (by simp [h'])) (by decide)
  · exact absurd (h.2.symm.trans h'') (by decide)
  · exact absurd (h.2.symm.trans h'') (by decide)

/-- A sink that refuses after `k` bytes: with `k = 0` it refuses this byte, else it accepts it and refuses after one byte
fewer. -/
theorem State.sinkWrite_of_sinkRefuses {s : State} {k : Nat} {as : List SinkAnswer} (b : Byte) (h : s.SinkRefuses k as) :
    (k = 0 → s.sinkWrite b = .failed { s with sinkNext := as })
      ∧ (∀ j, k = j + 1 → ∃ l, s.sinkWrite b = .accepted { s with sinkNext := l, out := s.out ++ [b] }
          ∧ State.SinkRefuses { s with sinkNext := l } j as) := by
  refine ⟨?_, ?_⟩
  · rintro rfl
    rcases s.sinkWrite_cases b with ⟨l, e, h' | ⟨h', -, hr⟩⟩ | ⟨l, e, h' | ⟨h', hl, hr⟩⟩ | ⟨e, h', hr⟩ <;>
      rcases h with h | ⟨h, hr', ha⟩ <;> simp_all
  · rintro j rfl
    rcases s.sinkWrite_cases b with ⟨l, e, h' | ⟨h', -, hr⟩⟩ | ⟨l, e, h' | ⟨h', hl, hr⟩⟩ | ⟨e, h', hr⟩ <;>
      rcases h with h | ⟨h, hr', ha⟩ <;> simp_all [List.replicate_succ]
    · exact .inl (by assumption : _ = l).symm
    · exact .inr ⟨(by assumption : _ = l).symm, rfl, rfl⟩

/-- A sink that gives no answer to this byte. -/
theorem State.sinkWrite_of_sinkSilent {s : State} (b : Byte) (h : s.SinkSilent 0) : s.sinkWrite b = .wait := by
  simp [State.sinkWrite, State.sinkAnswer, h.1, h.2]

/-- RSP takes the word, or is full. -/
theorem State.rspPush_cases (s : State) (w : Word64) :
    (s.RspTakes ∧ s.rspPush w = some (s.answered w)) ∨ (s.rspRoom = some 0 ∧ s.rspPush w = none) := by
  cases h : s.rspRoom with
  | none => left; constructor <;> simp [State.RspTakes, State.rspPush, State.answered, h]
  | some k =>
    cases k with
    | zero => right; simp [State.rspPush, h]
    | succ k => left; simp [State.RspTakes, State.rspPush, State.answered, h]

/-- Everything `Respond` can do: the word is taken and the command ends as it does, or it waits. -/
theorem State.respond_cases (s : State) (w : Word64) (after : Option (ErrCode × Info)) :
    (s.RspTakes ∧ s.respond w after = (s.answered w).afterRespond after)
      ∨ (s.rspRoom = some 0 ∧ s.respond w after = s.suspend (.respond w after)) := by
  rcases s.rspPush_cases w with ⟨h, e⟩ | ⟨h, e⟩
  · exact .inl ⟨h, by simp [State.respond, e]⟩
  · exact .inr ⟨h, by simp [State.respond, e]⟩

/-- `Respond` while RSP is taken. -/
theorem State.respond_of_takes (s : State) (w : Word64) (after : Option (ErrCode × Info)) (h : s.RspTakes) :
    s.respond w after = (s.answered w).afterRespond after := by
  rcases s.respond_cases w after with ⟨-, e⟩ | ⟨h', -⟩
  · exact e
  · exact absurd h' h

@[simp] theorem State.afterRespond_none (s : State) : s.afterRespond none = s := rfl

@[simp] theorem State.afterRespond_some (s : State) (e : ErrCode) (info : Info) :
    s.afterRespond (some (e, info)) = s.raise e info := rfl

/-! ### Stage 2 -/

theorem State.inError_iff (s : State) : s.inError = true ↔ s.err ≠ .none := by simp [State.inError]

/-- Outside the error state a command goes on to its later stages. -/
theorem State.unlessError_of_ok (s : State) (body : State → State) (h : s.err = .none) : s.unlessError body = body s := by
  simp [State.unlessError, State.inError, h]

/-- In the error state a command is discarded. -/
theorem State.unlessError_of_error (s : State) (body : State → State) (h : s.err ≠ .none) : s.unlessError body = s := by
  simp [State.unlessError, State.inError, h]

/-- Outside the error state a responding command goes on to its later stages. -/
theorem State.unlessErrorResponding_of_ok (s : State) (body : State → State) (h : s.err = .none) :
    s.unlessErrorResponding body = body s := by
  simp [State.unlessErrorResponding, State.inError, h]

/-- In the error state a responding command responds the zero word. -/
theorem State.unlessErrorResponding_of_error (s : State) (body : State → State) (h : s.err ≠ .none) :
    s.unlessErrorResponding body = s.respond zeroResponse none := by
  simp [State.unlessErrorResponding, State.inError, h]

end Sys2Proof.Machine
end

