-- ==== Sys2Proof/Laws/Bits.lean ====
section
/-! SUPPORT. Bit streams (44_bit_writer_reader): the packing of bits into bytes and back, the BitWriter over many bits, the
BitReader over many bits, and that each of the two touches its own registers and port only. -/

namespace Sys2Proof.Machine

/-! ### Packing -/

/-- The bits of a packed byte: bit 7 is the first of its eight (R187). -/
theorem packedByte_getLsbD (bits : List Bool) (k j : Nat) (h : j < 8) :
    (packedByte bits k).getLsbD j = bits.getD (8 * k + (7 - j)) false := by
  have key : ∀ a0 a1 a2 a3 a4 a5 a6 a7 : Bool, ∀ j : Fin 8,
      (BitVec.ofNat 8 (([a0, a1, a2, a3, a4, a5, a6, a7].mapIdx fun i a => a.toNat * 2 ^ (7 - i)).sum)).getLsbD j
        = [a7, a6, a5, a4, a3, a2, a1, a0].getD j false := by decide +kernel
  have := key (bits.getD (8 * k + 0) false) (bits.getD (8 * k + 1) false) (bits.getD (8 * k + 2) false)
    (bits.getD (8 * k + 3) false) (bits.getD (8 * k + 4) false) (bits.getD (8 * k + 5) false)
    (bits.getD (8 * k + 6) false) (bits.getD (8 * k + 7) false) ⟨j, h⟩
  refine Eq.trans this ?_
  rcases j with _ | _ | _ | _ | _ | _ | _ | _ | j
  · rfl
  · rfl
  · rfl
  · rfl
  · rfl
  · rfl
  · rfl
  · rfl
  · omega

/-- The bits of a byte as it is read. -/
theorem byteBits_packedByte (bits : List Bool) (k : Nat) :
    byteBits (packedByte bits k) = (List.range 8).map fun i => bits.getD (8 * k + i) false := by
  unfold byteBits
  apply List.map_congr_left
  intro i hi
  rw [List.mem_range] at hi
  rw [packedByte_getLsbD _ _ _ (by omega)]
  congr 1
  omega

/-- The packing of eight bits and more begins with their byte. -/
theorem packBits_append (c bits : List Bool) (h : c.length = 8) : packBits (c ++ bits) = packedByte c 0 :: packBits bits := by
  have hl : ((c ++ bits).length + 7) / 8 = (bits.length + 7) / 8 + 1 := by rw [List.length_append]; omega
  unfold packBits
  rw [hl, List.range_succ_eq_map, List.map_cons, List.map_map]
  congr 1
  · apply BitVec.eq_of_getLsbD_eq
    intro j hj
    rw [packedByte_getLsbD _ _ _ hj, packedByte_getLsbD _ _ _ hj]
    simp only [List.getD_eq_getElem?_getD]
    rw [List.getElem?_append_left (by omega)]
  · apply List.map_congr_left
    intro k _
    apply BitVec.eq_of_getLsbD_eq
    intro j hj
    rw [Function.comp, packedByte_getLsbD _ _ _ hj, packedByte_getLsbD _ _ _ hj]
    simp only [List.getD_eq_getElem?_getD]
    rw [List.getElem?_append_right (by omega)]
    congr 2
    omega

theorem packBits_nil : packBits [] = [] := rfl

/-- Fewer than eight bits, but some, are one byte. -/
theorem packBits_short (bits : List Bool) (h : bits ≠ []) (h' : bits.length ≤ 8) : packBits bits = [packedByte bits 0] := by
  have : 0 < bits.length := List.length_pos_iff.2 h
  unfold packBits
  rw [show (bits.length + 7) / 8 = 1 by omega]
  rfl

theorem packBits_length (bits : List Bool) : (packBits bits).length = (bits.length + 7) / 8 := by
  simp [packBits]

/-- The bytes of a stream, read back: the stream and its padding zeros (R187, R188). -/
theorem bits_of_packBits : ∀ (m : Nat) (bits : List Bool), bits.length ≤ m →
    (packBits bits).flatMap byteBits = bits ++ List.replicate (8 * ((bits.length + 7) / 8) - bits.length) false := by
  intro m
  induction m with
  | zero =>
    intro bits h
    rw [List.length_eq_zero_iff.1 (Nat.le_zero.1 h)]
    rfl
  | succ m ih =>
    intro bits h
    by_cases h8 : bits.length ≤ 8
    · by_cases h0 : bits = []
      · subst h0; rfl
      · have : 0 < bits.length := List.length_pos_iff.2 h0
        rw [packBits_short bits h0 h8, List.flatMap_singleton, byteBits_packedByte]
        apply List.ext_getElem
        · simp; omega
        · intro i h1 h2
          simp only [List.length_map, List.length_range] at h1
          rw [List.getElem_map, List.getElem_range, List.getElem_append]
          split
          · next hi => simp [List.getD_eq_getElem?_getD, hi]
          · next hi => simp [List.getD_eq_getElem?_getD, List.getElem?_eq_none (Nat.le_of_not_lt hi)]
    · have e : bits = bits.take 8 ++ bits.drop 8 := (List.take_append_drop 8 bits).symm
      have ht : (bits.take 8).length = 8 := by rw [List.length_take]; omega
      have hd : (bits.drop 8).length = bits.length - 8 := List.length_drop
      have ih := ih (bits.drop 8) (by omega)
      rw [e, packBits_append _ _ ht, List.flatMap_cons, ih, ← e, hd]
      have : byteBits (packedByte (bits.take 8) 0) = bits.take 8 := by
        rw [byteBits_packedByte]
        apply List.ext_getElem
        · simp; omega
        · intro i h1 h2
          rw [List.getElem_map, List.getElem_range, List.getD_eq_getElem?_getD]
          simp [List.getElem?_eq_getElem h2]
      rw [this, ← List.append_assoc, ← e]
      congr 2
      omega

/-! ### The BitWriter -/

theorem State.pending_length (s : State) : s.pending.length = s.bwN.toNat := by simp [State.pending]

theorem State.pending_eq_nil {s : State} (h : s.bwN = 0) : s.pending = [] := by simp [State.pending, h]

theorem shiftIn_getLsbD (acc : BitVec 8) (b : Bool) (i : Nat) (h : i < 8) :
    (shiftIn acc b).getLsbD i = if i = 0 then b else acc.getLsbD (i - 1) := by
  rcases i with _ | i
  · simp [shiftIn]
  · simp [shiftIn, h, BitVec.getLsbD_eq_getElem (show i < 8 by omega)]

/-- The accumulator and a bit hold the pending bits and that bit. -/
theorem State.pending_shiftIn (s : State) (b : Bool) (i : Nat) (h : i ≤ s.bwN.toNat) :
    (shiftIn s.bwAcc b).getLsbD (s.bwN.toNat - i) = (s.pending ++ [b]).getD i false := by
  have hn := s.bwN.isLt
  rw [shiftIn_getLsbD _ _ _ (by omega)]
  by_cases hi : i = s.bwN.toNat
  · subst hi; simp [List.getD_eq_getElem?_getD, ← State.pending_length]
  · rw [if_neg (by omega), List.getD_eq_getElem?_getD, List.getElem?_append_left (by rw [State.pending_length]; omega)]
    simp only [State.pending, List.getElem?_map]
    rw [List.getElem?_range (by omega)]
    simp only [Option.map_some, Option.getD_some]
    congr 1
    omega

/-- `WriteBit` with fewer than seven pending bits. -/
theorem State.writeBit_short {s : State} (b : Bool) (h : s.bwN.toNat < 7) :
    ∃ t, s.writeBit b = .done t ∧ t.pending = s.pending ++ [b]
      ∧ t = { s with bwAcc := shiftIn s.bwAcc b, bwN := s.bwN + 1 } := by
  refine ⟨_, by rw [State.writeBit, if_pos h], ?_, rfl⟩
  have hn : (s.bwN + 1).toNat = s.bwN.toNat + 1 := by
    rw [BitVec.toNat_add, show (1 : BitVec 3).toNat = 1 from rfl]; omega
  apply List.ext_getElem
  · simp only [State.pending_length, List.length_append, List.length_singleton, hn]
  · intro i h1 h2
    have h3 := s.pending_shiftIn b i (by rw [List.length_append, State.pending_length, List.length_singleton] at h2; omega)
    rw [List.getD_eq_getElem?_getD, List.getElem?_eq_getElem h2, Option.getD_some] at h3
    rw [← h3]
    simp only [State.pending, List.getElem_map, List.getElem_range, hn]
    congr 1

/-- The byte that the eighth bit completes. -/
theorem State.eighth_byte {s : State} (b : Bool) (h : s.bwN.toNat = 7) : shiftIn s.bwAcc b = packedByte (s.pending ++ [b]) 0 := by
  apply BitVec.eq_of_getLsbD_eq
  intro j hj
  rw [packedByte_getLsbD _ _ _ hj, ← s.pending_shiftIn b _ (by omega)]
  congr 1
  omega

/-- The byte that `Close` emits. -/
theorem State.last_byte {s : State} (h : s.bwN ≠ 0) : paddedByte s.bwAcc s.bwN = packedByte s.pending 0 := by
  have hn := s.bwN.isLt
  have h0 : s.bwN.toNat ≠ 0 := fun e => h (BitVec.eq_of_toNat_eq e)
  apply BitVec.eq_of_getLsbD_eq
  intro j hj
  rw [packedByte_getLsbD _ _ _ hj, paddedByte, BitVec.getLsbD_shiftLeft, List.getD_eq_getElem?_getD]
  by_cases hjn : j < 8 - s.bwN.toNat
  · rw [List.getElem?_eq_none (by rw [State.pending_length]; omega)]
    simp [hjn]
  · simp only [State.pending, List.getElem?_map]
    rw [List.getElem?_range (by omega)]
    simp only [Option.map_some, Option.getD_some, hjn, hj]
    simp
    congr 1
    omega

/-- Writing two strings one after the other. -/
theorem writeBits_append (xs ys : List Bool) : ∀ s, writeBits (xs ++ ys) s =
    match writeBits xs s with
    | .done t => writeBits ys t
    | .raised t => .raised t
    | .wait rest t => .wait (rest ++ ys) t := by
  induction xs with
  | nil => intro s; rfl
  | cons x xs ih =>
    intro s
    simp only [List.cons_append, writeBits]
    cases s.writeBit x with
    | done t => exact ih t
    | raised t => rfl
    | wait rest t => rfl

/-- With a sink that answers `OK`, writing bits emits the whole bytes of the pending bits and the new ones, and leaves the
rest pending (R181). -/
theorem writeBits_of_sinkOk (bits : List Bool) : ∀ (s : State), s.SinkOk →
    ∃ t, writeBits bits s = .done t
      ∧ t.out = s.out ++ (packBits (s.pending ++ bits)).take ((s.pending ++ bits).length / 8)
      ∧ t.pending = (s.pending ++ bits).drop (8 * ((s.pending ++ bits).length / 8))
      ∧ t.SinkOk
      ∧ t = { s with bwAcc := t.bwAcc, bwN := t.bwN, out := t.out, sinkNext := t.sinkNext } := by
  induction bits with
  | nil =>
    intro s hs
    have hn := s.bwN.isLt
    have hl : (s.pending ++ []).length / 8 = 0 := by rw [List.append_nil, State.pending_length]; omega
    exact ⟨s, rfl, by rw [hl]; simp, by rw [hl]; simp, hs, rfl⟩
  | cons b bits ih =>
    intro s hs
    have hn := s.bwN.isLt
    by_cases h7 : s.bwN.toNat < 7
    · obtain ⟨u, e, hp, hu⟩ := s.writeBit_short b h7
      have hsu : u.SinkOk := by rw [hu]; exact hs
      obtain ⟨t, ht, ho, hp', hs', hf⟩ := ih u hsu
      refine ⟨t, by simp only [writeBits, e]; exact ht, ?_, ?_, hs', ?_⟩
      · rw [ho, hp, List.append_assoc, hu]; rfl
      · rw [hp', hp, List.append_assoc]; rfl
      · rw [hf, hu]
    · have h7' : s.bwN.toNat = 7 := by omega
      obtain ⟨as, ea, has⟩ := s.sinkWrite_of_sinkOk (shiftIn s.bwAcc b) hs
      let u : State := { s with sinkNext := as, out := s.out ++ [shiftIn s.bwAcc b], bwAcc := 0, bwN := 0 }
      have e : s.writeBit b = .done u := by
        rw [State.writeBit, if_neg h7, State.flushByte, ea]
      obtain ⟨t, ht, ho, hp', hs', hf⟩ := ih u ⟨has, hs.2⟩
      have hpu : u.pending = [] := State.pending_eq_nil rfl
      have h8 : (s.pending ++ [b]).length = 8 := by rw [List.length_append, State.pending_length, h7']; rfl
      have hsplit : s.pending ++ b :: bits = (s.pending ++ [b]) ++ bits := by simp
      have hlen : (s.pending ++ b :: bits).length / 8 = bits.length / 8 + 1 := by
        rw [hsplit, List.length_append, h8]; omega
      rw [hpu, List.nil_append] at ho hp'
      refine ⟨t, by simp only [writeBits, e]; exact ht, ?_, ?_, hs', ?_⟩
      · rw [ho, hlen, hsplit, packBits_append _ _ h8, List.take_succ_cons, ← State.eighth_byte b h7']
        simp [u]
      · rw [hp', hlen, hsplit, List.drop_append, h8, show 8 * (bits.length / 8 + 1) - 8 = 8 * (bits.length / 8) by omega,
          List.drop_eq_nil_of_le (show (s.pending ++ [b]).length ≤ 8 * (bits.length / 8 + 1) by omega), List.nil_append]
      · rw [hf]

/-- `Close` with a sink that answers `OK`: the pending bits leave as one byte (R182). -/
theorem State.closeWriter_of_sinkOk (s : State) (hs : s.SinkOk) :
    ∃ t, s.closeWriter = .done t ∧ t.out = s.out ++ packBits s.pending ∧ t.bwN = 0
      ∧ t = { s with bwAcc := t.bwAcc, bwN := 0, out := t.out, sinkNext := t.sinkNext } := by
  by_cases h : s.bwN = 0
  · refine ⟨s, by rw [State.closeWriter, if_pos h], ?_, h, ?_⟩
    · rw [State.pending_eq_nil h, packBits_nil, List.append_nil]
    · rw [← h]
  · obtain ⟨as, ea, -⟩ := s.sinkWrite_of_sinkOk (paddedByte s.bwAcc s.bwN) hs
    have hn := s.bwN.isLt
    have h0 : s.bwN.toNat ≠ 0 := fun e => h (BitVec.eq_of_toNat_eq e)
    refine ⟨{ s with sinkNext := as, out := s.out ++ [paddedByte s.bwAcc s.bwN], bwAcc := 0, bwN := 0 }, ?_, ?_, rfl, rfl⟩
    · rw [State.closeWriter, if_neg h, State.flushByte, ea]
    · rw [packBits_short s.pending _ (by rw [State.pending_length]; omega), ← State.last_byte h]
      intro e
      exact h0 (by rw [← State.pending_length, e]; rfl)

/-- A prefix of the bits has the same whole bytes. -/
theorem packBits_take (bits : List Bool) (k : Nat) (hk : k ≤ bits.length) :
    (packBits (bits.take k)).take (k / 8) = (packBits bits).take (k / 8) := by
  apply List.ext_getElem
  · simp [packBits_length]; omega
  · intro i h1 h2
    simp only [packBits, List.getElem_take, List.getElem_map, List.getElem_range]
    simp [packBits_length] at h1
    apply BitVec.eq_of_getLsbD_eq
    intro j hj
    rw [packedByte_getLsbD _ _ _ hj, packedByte_getLsbD _ _ _ hj]
    simp only [List.getD_eq_getElem?_getD]
    rw [List.getElem?_take_of_lt (by omega)]

/-- With a sink that has listed `OK` for `k` bytes: bits that do not fill `k + 1` bytes are written as with `OK`. -/
theorem writeBits_of_listed (bits : List Bool) : ∀ (s : State) (k : Nat) (as : List SinkAnswer),
    s.sinkNext = List.replicate k SinkAnswer.ok ++ as → (s.pending ++ bits).length < 8 * (k + 1) →
      ∃ t, writeBits bits s = .done t
        ∧ t.out = s.out ++ (packBits (s.pending ++ bits)).take ((s.pending ++ bits).length / 8)
        ∧ t.pending = (s.pending ++ bits).drop (8 * ((s.pending ++ bits).length / 8))
        ∧ t.sinkNext = List.replicate (k - (s.pending ++ bits).length / 8) SinkAnswer.ok ++ as
        ∧ t = { s with bwAcc := t.bwAcc, bwN := t.bwN, out := t.out, sinkNext := t.sinkNext } := by
  induction bits with
  | nil =>
    intro s k as hs _
    have hn := s.bwN.isLt
    have h0 : (s.pending ++ []).length / 8 = 0 := by rw [List.append_nil, State.pending_length]; omega
    exact ⟨s, rfl, by rw [h0]; simp, by rw [h0]; simp, by rw [h0]; exact hs, rfl⟩
  | cons b bits ih =>
    intro s k as hs h
    have hn := s.bwN.isLt
    by_cases h7 : s.bwN.toNat < 7
    · obtain ⟨u, e, hp, hu⟩ := s.writeBit_short b h7
      have hL : u.pending ++ bits = s.pending ++ b :: bits := by rw [hp, List.append_assoc]; rfl
      obtain ⟨t, h1, h2, h3, h4, h5⟩ := ih u k as (by rw [hu]; exact hs) (by rw [hL]; exact h)
      rw [hL] at h2 h3 h4
      exact ⟨t, by simp only [writeBits, e]; exact h1, by rw [h2, hu], h3, h4, by rw [h5, hu]⟩
    · have h7' : s.bwN.toNat = 7 := by omega
      have h8 : (s.pending ++ [b]).length = 8 := by rw [List.length_append, State.pending_length, h7']; rfl
      have hsplit : s.pending ++ b :: bits = (s.pending ++ [b]) ++ bits := by simp
      have hlen : (s.pending ++ b :: bits).length = bits.length + 8 := by rw [hsplit, List.length_append, h8]; omega
      cases k with
      | zero => omega
      | succ k =>
        let u : State :=
          { s with
            sinkNext := List.replicate k SinkAnswer.ok ++ as, out := s.out ++ [shiftIn s.bwAcc b], bwAcc := 0, bwN := 0 }
        have e : s.writeBit b = .done u := by
          simp [State.writeBit, h7, State.flushByte, State.sinkWrite, State.sinkAnswer, hs, List.replicate_succ, u]
        obtain ⟨t, h1, h2, h3, h4, h5⟩ := ih u k as rfl (by rw [State.pending_eq_nil (s := u) rfl, List.nil_append]; omega)
        rw [State.pending_eq_nil (s := u) rfl, List.nil_append] at h2 h3 h4
        have hdiv : (s.pending ++ b :: bits).length / 8 = bits.length / 8 + 1 := by omega
        refine ⟨t, by simp only [writeBits, e]; exact h1, ?_, ?_, by rw [hdiv, Nat.add_sub_add_right]; exact h4, by rw [h5]⟩
        · rw [h2, hdiv, hsplit, packBits_append _ _ h8, ← State.eighth_byte b h7', List.take_succ_cons]; simp [u]
        · rw [h3, hdiv, hsplit, List.drop_append, h8, show 8 * (bits.length / 8 + 1) - 8 = 8 * (bits.length / 8) by omega,
            List.drop_eq_nil_of_le (show (s.pending ++ [b]).length ≤ 8 * (bits.length / 8 + 1) by omega), List.nil_append]

/-- With a sink that has listed `OK` for `k` bytes: bits that fill `k + 1` bytes are written up to the eighth bit of byte `k`,
seven bits being pending there. -/
theorem writeBits_to_eighth (bits : List Bool) (s : State) (k : Nat) (as : List SinkAnswer)
    (hs : s.sinkNext = List.replicate k SinkAnswer.ok ++ as) (h : 8 * (k + 1) ≤ (s.pending ++ bits).length) :
    ∃ (t : State) (b : Bool) (r : List Bool), writeBits bits s = writeBits (b :: r) t
      ∧ b :: r = (s.pending ++ bits).drop (8 * k + 7) ∧ t.bwN.toNat = 7
      ∧ t.out = s.out ++ (packBits (s.pending ++ bits)).take k
      ∧ t.pending = ((s.pending ++ bits).drop (8 * k)).take 7
      ∧ t = { s with bwAcc := t.bwAcc, bwN := t.bwN, out := t.out, sinkNext := as } := by
  have hn := s.bwN.isLt
  have hpl := s.pending_length
  rw [List.length_append] at h
  have hm : (s.pending ++ bits).take (8 * k + 7) = s.pending ++ bits.take (8 * k + 7 - s.pending.length) := by
    rw [List.take_append, List.take_of_length_le (by omega)]
  have hd : (s.pending ++ bits).drop (8 * k + 7) = bits.drop (8 * k + 7 - s.pending.length) := by
    rw [List.drop_append, List.drop_eq_nil_of_le (by omega), List.nil_append]
  have hl : ((s.pending ++ bits).take (8 * k + 7)).length = 8 * k + 7 := by
    rw [List.length_take, List.length_append]; omega
  obtain ⟨t, h1, h2, h3, h4, h5⟩ :=
    writeBits_of_listed (bits.take (8 * k + 7 - s.pending.length)) s k as hs (by rw [← hm, hl]; omega)
  rw [← hm, hl] at h2 h3 h4
  have hk : (8 * k + 7) / 8 = k := by omega
  have htake := packBits_take (s.pending ++ bits) (8 * k + 7) (by rw [List.length_append]; omega)
  rw [hk] at h2 h3 h4 htake
  rw [Nat.sub_self, List.replicate_zero, List.nil_append] at h4
  have h3' : t.pending = ((s.pending ++ bits).drop (8 * k)).take 7 := by
    rw [h3, List.drop_take]; congr 1; omega
  cases hr : (s.pending ++ bits).drop (8 * k + 7) with
  | nil => have := congrArg List.length hr; rw [List.length_drop, List.length_append] at this; simp at this; omega
  | cons b r =>
    refine ⟨t, b, r, ?_, rfl, ?_, by rw [h2, htake], h3', by rw [← h4]; exact h5⟩
    · conv_lhs => rw [← List.take_append_drop (8 * k + 7 - s.pending.length) bits]
      rw [writeBits_append, h1, ← hd, hr]
    · rw [← t.pending_length, h3', List.length_take, List.length_drop, List.length_append]; omega

/-- With a sink that refuses after `k` bytes: bits that do not fill `k + 1` bytes are written as with `OK`; else the byte
`k` is refused, and the seven bits before its eighth stay pending (R181). -/
theorem writeBits_of_sinkRefuses (bits : List Bool) (s : State) (k : Nat) (as : List SinkAnswer) (hs : s.SinkRefuses k as) :
    ((s.pending ++ bits).length < 8 * (k + 1) →
      ∃ t, writeBits bits s = .done t
        ∧ t.out = s.out ++ (packBits (s.pending ++ bits)).take ((s.pending ++ bits).length / 8)
        ∧ t.pending = (s.pending ++ bits).drop (8 * ((s.pending ++ bits).length / 8))
        ∧ t.SinkRefuses (k - (s.pending ++ bits).length / 8) as
        ∧ t = { s with bwAcc := t.bwAcc, bwN := t.bwN, out := t.out, sinkNext := t.sinkNext })
    ∧ (8 * (k + 1) ≤ (s.pending ++ bits).length →
      ∃ t : State, writeBits bits s = .raised (t.raise .ioSnk 0)
        ∧ t.out = s.out ++ (packBits (s.pending ++ bits)).take k
        ∧ t.pending = ((s.pending ++ bits).drop (8 * k)).take 7
        ∧ t = { s with bwAcc := t.bwAcc, bwN := t.bwN, out := t.out, sinkNext := as }) := by
  obtain ⟨l, hl, hll⟩ : ∃ l, s.sinkNext = List.replicate k SinkAnswer.ok ++ l
      ∧ (l = SinkAnswer.fail :: as ∨ l = [] ∧ s.sinkRest = some .fail ∧ as = []) := by
    rcases hs with h | ⟨h, h', ha⟩
    · exact ⟨_, h, .inl rfl⟩
    · exact ⟨[], by rw [h, List.append_nil], .inr ⟨rfl, h', ha⟩⟩
  refine ⟨fun h => ?_, fun h => ?_⟩
  · obtain ⟨t, h1, h2, h3, h4, h5⟩ := writeBits_of_listed bits s k l hl h
    refine ⟨t, h1, h2, h3, ?_, h5⟩
    rcases hll with rfl | ⟨rfl, h', ha⟩
    · exact .inl h4
    · exact .inr ⟨by rw [h4, List.append_nil], by rw [h5]; exact h', ha⟩
  · obtain ⟨t, b, r, h1, -, h7, h2, h3, h5⟩ := writeBits_to_eighth bits s k l hl h
    have ht : t.SinkRefuses 0 as := by
      rcases hll with rfl | ⟨rfl, h', ha⟩
      · exact .inl (by rw [h5]; rfl)
      · exact .inr ⟨by rw [h5]; rfl, by rw [h5]; exact h', ha⟩
    refine ⟨{ t with sinkNext := as }, ?_, h2, h3, by rw [h5]⟩
    rw [h1]
    simp only [writeBits, State.writeBit, if_neg (show ¬t.bwN.toNat < 7 by omega), State.flushByte,
      (State.sinkWrite_of_sinkRefuses _ ht).1 rfl]

/-- With a sink that falls silent after `k` bytes: bits that fill `k + 1` bytes are written up to the eighth bit of byte `k`, and
wait there (R181, R81). -/
theorem writeBits_of_sinkSilent (bits : List Bool) (s : State) (k : Nat) (hs : s.SinkSilent k)
    (h : 8 * (k + 1) ≤ (s.pending ++ bits).length) :
    ∃ t : State, writeBits bits s = .wait ((s.pending ++ bits).drop (8 * k + 7)) t
      ∧ t.out = s.out ++ (packBits (s.pending ++ bits)).take k
      ∧ t.pending = ((s.pending ++ bits).drop (8 * k)).take 7
      ∧ t = { s with bwAcc := t.bwAcc, bwN := t.bwN, out := t.out, sinkNext := [] } := by
  obtain ⟨t, b, r, h1, hr, h7, h2, h3, h5⟩ := writeBits_to_eighth bits s k [] (by rw [List.append_nil]; exact hs.1) h
  refine ⟨t, ?_, h2, h3, h5⟩
  rw [h1, ← hr]
  simp only [writeBits, State.writeBit, if_neg (show ¬t.bwN.toNat < 7 by omega), State.flushByte,
    State.sinkWrite_of_sinkSilent (s := t) _ ⟨by rw [h5]; rfl, by rw [h5]; exact hs.2⟩]

/-- `Close` with pending bits and a sink that gives no answer: it waits (R182, R81). -/
theorem State.closeWriter_of_sinkSilent {s : State} (h : s.bwN ≠ 0) (hs : s.SinkSilent 0) : s.closeWriter = .wait [] s := by
  rw [State.closeWriter, if_neg h, State.flushByte, State.sinkWrite_of_sinkSilent _ hs]

/-- `Close` with pending bits and a sink that refuses their byte: the BitWriter is as it was (R182). -/
theorem State.closeWriter_of_sinkRefuses {s : State} {as : List SinkAnswer} (h : s.bwN ≠ 0) (hs : s.SinkRefuses 0 as) :
    s.closeWriter = .raised ({ s with sinkNext := as }.raise .ioSnk 0) := by
  rw [State.closeWriter, if_neg h, State.flushByte, (State.sinkWrite_of_sinkRefuses _ hs).1 rfl]

/-- The bytes of a stream: the whole ones, and what is left over. -/
theorem packBits_split : ∀ (m : Nat) (bits : List Bool), bits.length ≤ m →
    packBits bits = (packBits bits).take (bits.length / 8) ++ packBits (bits.drop (8 * (bits.length / 8))) := by
  intro m
  induction m with
  | zero =>
    intro bits h
    rw [List.length_eq_zero_iff.1 (Nat.le_zero.1 h)]
    rfl
  | succ m ih =>
    intro bits h
    by_cases h8 : bits.length < 8
    · rw [show bits.length / 8 = 0 by omega]; simp
    · have e : bits = bits.take 8 ++ bits.drop 8 := (List.take_append_drop 8 bits).symm
      have ht : (bits.take 8).length = 8 := by rw [List.length_take]; omega
      have hd : (bits.drop 8).length = bits.length - 8 := List.length_drop
      have ih := ih (bits.drop 8) (by omega)
      have hq : bits.length / 8 = (bits.drop 8).length / 8 + 1 := by omega
      have hdd : bits.drop (8 * (bits.length / 8)) = (bits.drop 8).drop (8 * ((bits.drop 8).length / 8)) := by
        rw [List.drop_drop, hq]; congr 1; omega
      rw [hdd, hq]
      conv_lhs => rw [e, packBits_append _ _ ht, ih]
      conv_rhs => rw [e, packBits_append _ _ ht]
      rw [List.take_succ_cons, List.cons_append, ← e]

/-! ### The BitReader -/

theorem State.unread_length (s : State) : s.unread.length = s.brN.toNat := by simp [State.unread]

/-- `s` with the BitReader and the source of `r`: all that `ReadBit` looks at. -/
def State.withReader (s r : State) : State :=
  { s with brBuf := r.brBuf, brN := r.brN, brEof := r.brEof, inp := r.inp }

theorem State.withReader_self (s : State) : s.withReader s = s := rfl

/-- `ReadBit` looks at the BitReader and the source, and changes nothing else (R185). -/
theorem State.readBit_withReader (s r : State) : (s.withReader r).readBit =
    match r.readBit with
    | .bit b t => .bit b (s.withReader t)
    | .eosSig t => .eosSig (s.withReader t)
    | .failed t => .failed (s.withReader t)
    | .wait => .wait := by
  unfold State.readBit State.srcRead State.withReader
  by_cases he : r.brEof = true
  · simp [he]
  · by_cases hn : r.brN = 0
    · cases hi : r.inp with
      | nil => simp [he, hn]
      | cons t ts => cases t <;> simp [he, hn]
    · simp [he, show ¬ r.brN = 0#3 from hn]

/-- The same for many calls. -/
theorem readBits_withReader (k : Nat) : ∀ (s r : State),
    readBits k (s.withReader r) = (readBits k r).map fun p => (p.1, s.withReader p.2) := by
  induction k with
  | zero => intro s r; rfl
  | succ k ih =>
    intro s r
    simp only [readBits, State.readBit_withReader]
    cases r.readBit with
    | bit b t =>
      simp only [ih]
      cases readBits k t <;> rfl
    | eosSig t => rfl
    | failed t => rfl
    | wait => rfl

theorem readBits_add (m n : Nat) : ∀ (s : State), readBits (m + n) s =
    (readBits m s).bind fun p => (readBits n p.2).map fun q => (p.1 ++ q.1, q.2) := by
  induction m with
  | zero => intro s; simp [readBits]
  | succ m ih =>
    intro s
    rw [show m + 1 + n = (m + n) + 1 by omega]
    simp only [readBits]
    cases s.readBit with
    | bit b t =>
      simp only [ih]
      cases readBits m t with
      | none => rfl
      | some p =>
        simp only [Option.bind_some]
        cases readBits n p.2 <;> rfl
    | eosSig t => rfl
    | failed t => rfl
    | wait => rfl

/-- `ReadBit` while bits are left. -/
theorem State.readBit_unread {s : State} (he : s.brEof = false) (hn : s.brN ≠ 0) :
    ∃ b t, s.readBit = .bit b t ∧ s.unread = b :: t.unread ∧ t = { s with brBuf := s.brBuf <<< 1, brN := s.brN - 1 } := by
  refine ⟨_, _, by rw [State.readBit, if_neg (by simp [he]), if_neg hn], ?_, rfl⟩
  have hlt := s.brN.isLt
  have h0 : s.brN.toNat ≠ 0 := fun e => hn (BitVec.eq_of_toNat_eq e)
  have hs : (s.brN - 1).toNat = s.brN.toNat - 1 := by
    rw [BitVec.toNat_sub, show (1 : BitVec 3).toNat = 1 from rfl]; omega
  unfold State.unread
  simp only [hs]
  obtain ⟨n, hn'⟩ : ∃ n, s.brN.toNat = n + 1 := ⟨s.brN.toNat - 1, by omega⟩
  rw [hn', Nat.add_sub_cancel, List.range_succ_eq_map, List.map_cons, List.map_map, BitVec.msb_eq_getLsbD_last]
  congr 1
  apply List.map_congr_left
  intro i hi
  rw [List.mem_range] at hi
  simp only [Function.comp, BitVec.getLsbD_shiftLeft]
  rw [show 7 - i - 1 = 7 - (i + 1) by omega]
  simp [show ¬ 7 - i < 1 by omega, show 7 - i < 8 by omega]

/-- `ReadBit` that refills from a byte. -/
theorem State.readBit_refill {s : State} {v : Byte} {ts : List Token} (he : s.brEof = false) (hn : s.brN = 0)
    (hi : s.inp = .byte v :: ts) :
    ∃ b t, s.readBit = .bit b t ∧ byteBits v = b :: t.unread ∧ t = { s with brBuf := v <<< 1, brN := 7, inp := ts } := by
  refine ⟨v.msb, { s with brBuf := v <<< 1, brN := 7, inp := ts }, ?_, ?_, rfl⟩
  · simp only [State.readBit, he, hn, State.srcRead, hi]
    rfl
  · have : ∀ v : Byte, byteBits v = v.msb :: (List.range 7).map fun i => (v <<< 1).getLsbD (7 - i) := by decide +kernel
    exact this v

/-- The first `c` bits, of those unread and those of the bytes to come; a byte is taken from IN by the call that needs its
first bit (R188). -/
theorem readBits_bytes (c : Nat) : ∀ (s : State) (v : List Byte) (rest : List Token),
    s.brEof = false → s.inp = v.map .byte ++ rest → c ≤ s.unread.length + 8 * v.length →
      ∃ t, readBits c s = some ((s.unread ++ v.flatMap byteBits).take c, t)
        ∧ t = { s with brBuf := t.brBuf, brN := t.brN, inp := t.inp }
        ∧ t.inp = (v.drop ((c - s.unread.length + 7) / 8)).map .byte ++ rest
        ∧ t.unread = ((s.unread ++ v.flatMap byteBits).drop c).take t.brN.toNat
        ∧ (t.unread.length + c) % 8 = s.unread.length % 8 := by
  induction c with
  | zero =>
    intro s v rest he hi hc
    have hn := s.brN.isLt
    refine ⟨s, rfl, rfl, ?_, ?_, by simp⟩
    · rw [show (0 - s.unread.length + 7) / 8 = 0 by omega]; exact hi
    · rw [List.drop_zero, ← s.unread_length, List.take_left']; rfl
  | succ c ih =>
    intro s v rest he hi hc
    by_cases hn : s.brN = 0
    · have hu : s.unread = [] := by simp [State.unread, hn]
      rw [hu] at hc
      cases v with
      | nil => simp at hc
      | cons a v =>
        obtain ⟨b, u, eb, hub, hue⟩ := s.readBit_refill he hn (by rw [hi]; rfl)
        have hl : u.unread.length = 7 := by rw [State.unread_length, hue]; rfl
        obtain ⟨t, ht, hf, hti, htu, htn⟩ := ih u v rest (by rw [hue]; exact he) (by rw [hue]; simp)
          (by rw [hl]; simp at hc; omega)
        refine ⟨t, ?_, ?_, ?_, ?_, ?_⟩
        · simp only [readBits, eb, ht]
          rw [hu, List.nil_append, List.flatMap_cons, hub, List.cons_append, List.take_succ_cons]
        · rw [hf, hue]
        · rw [hti, hl, hu, List.length_nil, show (c + 1 - 0 + 7) / 8 = (c - 7 + 7) / 8 + 1 by omega, List.drop_succ_cons]
        · rw [htu, hu, List.nil_append, List.flatMap_cons, hub, List.cons_append, List.drop_succ_cons]
        · rw [hl] at htn; rw [hu]; simp; omega
    · obtain ⟨b, u, eb, hub, hue⟩ := s.readBit_unread he hn
      have hl : s.unread.length = u.unread.length + 1 := by rw [hub]; rfl
      obtain ⟨t, ht, hf, hti, htu, htn⟩ := ih u v rest (by rw [hue]; exact he) (by rw [hue]; exact hi) (by omega)
      refine ⟨t, ?_, ?_, ?_, ?_, ?_⟩
      · simp only [readBits, eb, ht]
        rw [hub, List.cons_append, List.take_succ_cons]
      · rw [hf, hue]
      · rw [hti, hl, Nat.add_sub_add_right]
      · rw [htu, hub, List.cons_append, List.drop_succ_cons]
      · omega

/-- The bits of a packed stream, read back from IN (R189). -/
theorem readBits_packBits (s : State) (bits : List Bool) (rest : List Token) (he : s.brEof = false) (hn : s.brN = 0)
    (hi : s.inp = (packBits bits).map .byte ++ rest) :
    ∃ t, readBits bits.length s = some (bits, t)
      ∧ t = { s with brBuf := t.brBuf, brN := t.brN, inp := rest } := by
  have hu : s.unread = [] := by simp [State.unread, hn]
  have hl := packBits_length bits
  obtain ⟨t, ht, hf, hti, -⟩ := readBits_bytes bits.length s (packBits bits) rest he hi (by rw [hu, hl]; simp; omega)
  rw [hu, List.nil_append, bits_of_packBits _ bits (Nat.le_refl _), List.take_left'] at ht
  · refine ⟨t, ht, ?_⟩
    rw [hu, List.length_nil, Nat.sub_zero, List.drop_eq_nil_of_le (by omega)] at hti
    have e : t.inp = rest := hti
    rw [← e]
    exact hf
  · rfl

end Sys2Proof.Machine
end

