-- ==== Sys2Proof/Laws/Tree.lean ====
section
/-! SUPPORT. The priority queue and the merging of `BUILD` (42_tree_builder R147 to R152): what `ExtractMin` returns, the
state of the arena after any number of merges (`Forest`), and what is true of the finished tree (`Built`). -/

namespace Sys2Proof.Machine

/-! ### The queue -/

theorem keyLt_irrefl (t : NodeTable) (x : NodeIx) : keyLt t x x = false := by simp [keyLt]

theorem keyLt_trans {t : NodeTable} {x y z : NodeIx} (h : keyLt t x y = true) (h' : keyLt t y z = true) :
    keyLt t x z = true := by
  simp only [keyLt, decide_eq_true_eq] at *
  omega

theorem keyLt_or {t : NodeTable} {x y : NodeIx} (h : x ≠ y) (h' : keyLt t x y = false) : keyLt t y x = true := by
  have : x.toNat ≠ y.toNat := fun e => h (BitVec.eq_of_toNat_eq e)
  simp only [keyLt, decide_eq_true_eq, decide_eq_false_iff_not] at *
  omega

/-- R147's order, spelled out: the weight first, then the index. -/
theorem keyLt_iff (t : NodeTable) (x y : NodeIx) : keyLt t x y = true ↔
    ((nodeIn t x).w.toNat < (nodeIn t y).w.toNat
      ∨ ((nodeIn t x).w.toNat = (nodeIn t y).w.toNat ∧ x.toNat < y.toNat)) := by
  simp only [keyLt, decide_eq_true_eq]

/-- The order reads the weights of the two nodes only. -/
theorem keyLt_congr {t u : NodeTable} {x y : NodeIx} (hx : nodeIn t x = nodeIn u x) (hy : nodeIn t y = nodeIn u y) :
    keyLt t x y = keyLt u x y := by
  simp only [keyLt, hx, hy]

/-- The smallest key of a list is a member's, and below every other member's. -/
theorem minKey_spec (t : NodeTable) (xs : List NodeIx) : ∀ m : NodeIx,
    minKey t m xs ∈ m :: xs ∧ ∀ y ∈ m :: xs, y = minKey t m xs ∨ keyLt t (minKey t m xs) y = true := by
  induction xs with
  | nil => intro m; simp [minKey]
  | cons x xs ih =>
    intro m
    simp only [minKey]
    by_cases h : keyLt t x m = true
    · rw [if_pos h]
      obtain ⟨hm, hl⟩ := ih x
      refine ⟨List.mem_cons_of_mem _ hm, fun y hy => ?_⟩
      rcases List.mem_cons.1 hy with rfl | hy
      · rcases hl x List.mem_cons_self with e | hx
        · exact .inr (e ▸ h)
        · exact .inr (keyLt_trans hx h)
      · exact hl y hy
    · rw [if_neg h]
      obtain ⟨hm, hl⟩ := ih m
      refine ⟨?_, fun y hy => ?_⟩
      · rcases List.mem_cons.1 hm with e | hm
        · rw [e]; exact List.mem_cons_self
        · exact List.mem_cons_of_mem _ (List.mem_cons_of_mem _ hm)
      · rcases List.mem_cons.1 hy with rfl | hy
        · exact hl y List.mem_cons_self
        · rcases List.mem_cons.1 hy with rfl | hy
          · by_cases hym : y = m
            · subst hym; exact hl y List.mem_cons_self
            · rcases hl m List.mem_cons_self with e | hx
              · have := keyLt_or hym (by simpa using h)
                exact .inr (e ▸ this)
              · exact .inr (keyLt_trans hx (keyLt_or hym (by simpa using h)))
          · exact hl y (List.mem_cons_of_mem _ hy)

/-- `ExtractMin` on a non-empty queue: a member, its key the smallest, and the rest. -/
theorem extractMin_spec (t : NodeTable) {q : List NodeIx} (h : q ≠ []) :
    ∃ m, m ∈ q ∧ extractMin t q = some (m, q.erase m) ∧ ∀ y ∈ q, y = m ∨ keyLt t m y = true := by
  cases q with
  | nil => exact absurd rfl h
  | cons x xs =>
    obtain ⟨hm, hl⟩ := minKey_spec t xs x
    exact ⟨_, hm, rfl, hl⟩

/-! ### The Leaves -/

/-- The tree builder's arena after the first `k` symbols. -/
def leafPrefix (f : FreqTable) (k : Nat) : Tree := (List.range k).foldl (Tree.addLeaf f) Tree.start

theorem leafPrefix_succ (f : FreqTable) (k : Nat) : leafPrefix f (k + 1) = (leafPrefix f k).addLeaf f k := by
  simp [leafPrefix, List.range_succ]

theorem leafPrefix_spec (f : FreqTable) (k : Nat) (hk : k ≤ 257) :
    (leafPrefix f k).nn = 257#10
      ∧ (leafPrefix f k).pq = ((List.range k).filter fun i => countIn f i != 0#32).map leafIx
      ∧ ∀ i, tableGet (leafPrefix f k).node i Node.empty
          = if i < k ∧ countIn f i ≠ 0#32 then leafNode (countIn f i) else Node.empty := by
  induction k with
  | zero => exact ⟨rfl, rfl, fun i => by simp [leafPrefix, Tree.start]⟩
  | succ k ih =>
    obtain ⟨h1, h2, h3⟩ := ih (by omega)
    rw [leafPrefix_succ, Tree.addLeaf]
    by_cases h : countIn f k = 0#32
    · rw [if_pos h]
      refine ⟨h1, ?_, fun i => ?_⟩
      · rw [h2, List.range_succ, List.filter_append]; simp [h]
      · rw [h3]
        by_cases hi : i = k
        · subst hi; simp [h]
        · simp only [show i < k + 1 ↔ i < k by omega]
    · rw [if_neg h]
      refine ⟨h1, ?_, fun i => ?_⟩
      · simp only [pqInsert]
        rw [h2, List.range_succ, List.filter_append]; simp [h]
      · simp only
        rw [tableGet_tableSet _ _ _ _ _ (by omega)]
        by_cases hi : i = k
        · subst hi; simp [h]
        · rw [if_neg hi, h3]
          simp only [show i < k + 1 ↔ i < k by omega]

/-! ### The arena between merges -/

/-- The entry of a slot. -/
abbrev Tree.at (t : Tree) (i : Nat) : Node := tableGet t.node i Node.empty

theorem Tree.nodeIn_eq (t : Tree) (n : NodeIx) : nodeIn t.node n = t.at n.toNat := rfl

/-- `p` is an Internal node with the child `n`. -/
def Tree.ParentOf (t : Tree) (p : Nat) (n : NodeIx) : Prop :=
  257 ≤ p ∧ p < t.nn.toNat ∧ ((t.at p).left = n ∨ (t.at p).right = n)

/-- The merge that made node `i` took the two smallest keys of the nodes that had no parent then, the smaller as `left`
(R148, R150). -/
def Tree.TookSmallest (t : Tree) (i : Nat) : Prop :=
  keyLt t.node (t.at i).left (t.at i).right = true
    ∧ ∀ x : NodeIx, (t.at x.toNat).valid = true → x.toNat < i → (∀ p < i, ¬ t.ParentOf p x) →
        x ≠ (t.at i).left → x ≠ (t.at i).right → keyLt t.node (t.at i).right x = true

/-- The arena of `BUILD` after any number of merges: the members of the queue are the roots of a forest over the Leaves. -/
structure Forest (f : FreqTable) (t : Tree) : Prop where
  low : 257 ≤ t.nn.toNat
  size : t.nn.toNat + t.pq.length = 257 + leafCount f
  leaves : ∀ i ≤ 256, t.at i = if countIn f i = 0#32 then Node.empty else leafNode (countIn f i)
  free : ∀ i, t.nn.toNat ≤ i → t.at i = Node.empty
  slots : ∀ i, 257 ≤ i → i < t.nn.toNat → (t.at i).valid = true ∧ (t.at i).kind = .internal
  children : ∀ i, 257 ≤ i → i < t.nn.toNat →
    (t.at i).left ≠ (t.at i).right
      ∧ (t.at i).left.toNat < i ∧ (t.at i).right.toNat < i
      ∧ (t.at (t.at i).left.toNat).valid = true ∧ (t.at (t.at i).right.toNat).valid = true
      ∧ (t.at i).w.toNat = (t.at (t.at i).left.toNat).w.toNat + (t.at (t.at i).right.toNat).w.toNat
  smallest : ∀ i, 257 ≤ i → i < t.nn.toNat → t.TookSmallest i
  nodup : t.pq.Nodup
  members : ∀ x ∈ t.pq, x.toNat < t.nn.toNat ∧ (t.at x.toNat).valid = true
  orphans : ∀ x ∈ t.pq, ∀ p, ¬ t.ParentOf p x
  parents : ∀ x : NodeIx, (t.at x.toNat).valid = true → x ∉ t.pq → ∃ p, t.ParentOf p x ∧ ∀ p', t.ParentOf p' x → p' = p
  weight : (t.pq.map fun x => (t.at x.toNat).w.toNat).sum = totalCount f
  sentinel : t.nn.toNat = 257 → countIn f 256 ≠ 0#32 → 256#10 ∈ t.pq
  newest : 257 < t.nn.toNat → BitVec.ofNat 10 (t.nn.toNat - 1) ∈ t.pq

theorem leafCount_le (f : FreqTable) : leafCount f ≤ 257 := by
  unfold leafCount
  exact (List.countP_le_length).trans (by simp)

theorem totalCount_lt (f : FreqTable) : totalCount f < 2 ^ 41 := by
  have key : ∀ l : List Nat, (l.map fun i => (countIn f i).toNat).sum ≤ l.length * (2 ^ 32 - 1) := by
    intro l
    induction l with
    | nil => simp
    | cons a l ih =>
      have := (countIn f a).isLt
      simp only [List.map_cons, List.sum_cons, List.length_cons]
      omega
  have := key (List.range 257)
  rw [List.length_range] at this
  unfold totalCount
  omega

theorem leafIx_toNat {i : Nat} (h : i < 1024) : (leafIx i).toNat = i := by
  simp [leafIx, Nat.mod_eq_of_lt h]

theorem leafTree_forest (f : FreqTable) : Forest f (leafTree f) := by
  obtain ⟨hnn, hpq, hat⟩ := leafPrefix_spec f 257 (Nat.le_refl _)
  have hnn : (leafTree f).nn = 257#10 := hnn
  have hpq : (leafTree f).pq = ((List.range 257).filter fun i => countIn f i != 0#32).map leafIx := hpq
  have hat : ∀ i, (leafTree f).at i
      = if i < 257 ∧ countIn f i ≠ 0#32 then leafNode (countIn f i) else Node.empty := hat
  have hn : (leafTree f).nn.toNat = 257 := by rw [hnn]; rfl
  have hmem : ∀ x, x ∈ (leafTree f).pq ↔ ∃ i < 257, countIn f i ≠ 0#32 ∧ leafIx i = x := by
    intro x; rw [hpq]; simp only [List.mem_map, List.mem_filter, List.mem_range, bne_iff_ne]
    constructor
    · rintro ⟨i, ⟨h1, h2⟩, h3⟩; exact ⟨i, h1, h2, h3⟩
    · rintro ⟨i, h1, h2, h3⟩; exact ⟨i, ⟨h1, h2⟩, h3⟩
  have nopar : ∀ p x, ¬ (leafTree f).ParentOf p x := by
    rintro p x ⟨h1, h2, -⟩; omega
  constructor
  · omega
  · rw [hn, hpq, List.length_map, leafCount, List.countP_eq_length_filter]
  · intro i hi
    rw [hat]
    by_cases h : countIn f i = 0#32
    · simp [h]
    · rw [if_pos ⟨by omega, h⟩, if_neg h]
  · intro i hi
    rw [hat, if_neg (by omega)]
  · intro i h1 h2; omega
  · intro i h1 h2; omega
  · intro i h1 h2; omega
  · rw [hpq]
    refine List.Nodup.map_on ?_ (List.Nodup.filter _ List.nodup_range)
    intro a ha b hb e
    simp only [List.mem_filter, List.mem_range] at ha hb
    have := congrArg BitVec.toNat e
    rwa [leafIx_toNat (by omega), leafIx_toNat (by omega)] at this
  · intro x hx
    obtain ⟨i, h1, h2, rfl⟩ := (hmem x).1 hx
    rw [leafIx_toNat (by omega), hat, if_pos ⟨h1, h2⟩]
    exact ⟨by omega, rfl⟩
  · exact fun x _ p => nopar p x
  · intro x hv hx
    exfalso
    rw [hat] at hv
    split at hv
    · next h =>
      refine hx ((hmem x).2 ⟨x.toNat, h.1, h.2, ?_⟩)
      apply BitVec.eq_of_toNat_eq
      rw [leafIx_toNat (by omega)]
    · exact absurd hv (by decide)
  · rw [hpq, List.map_map, totalCount]
    have key : ∀ l : List Nat, (∀ i ∈ l, i < 257) →
        ((l.filter fun i => countIn f i != 0#32).map
            ((fun x : NodeIx => ((leafTree f).at x.toNat).w.toNat) ∘ leafIx)).sum
          = (l.map fun i => (countIn f i).toNat).sum := by
      intro l
      induction l with
      | nil => intro _; rfl
      | cons a l ih =>
        intro h
        have ha := h a List.mem_cons_self
        have ih := ih fun i hi => h i (List.mem_cons_of_mem _ hi)
        by_cases h0 : countIn f a = 0#32
        · rw [List.filter_cons_of_neg (by simp [h0])]
          simp only [List.map_cons, List.sum_cons, h0]
          rw [ih]; simp
        · rw [List.filter_cons_of_pos (by simpa using h0)]
          simp only [List.map_cons, List.sum_cons, Function.comp_apply]
          rw [ih, leafIx_toNat (by omega), hat, if_pos ⟨ha, h0⟩]
          have := (countIn f a).isLt
          simp only [leafNode, BitVec.toNat_setWidth]
          rw [Nat.mod_eq_of_lt (by omega)]
    exact key _ fun i hi => List.mem_range.1 hi
  · intro _ h
    exact (hmem _).2 ⟨256, by omega, h, rfl⟩
  · intro h; omega

/-! ### One merge -/

/-- What one merge does to the four pieces, while the queue holds more than one entry. -/
theorem Forest.merge_eq {f : FreqTable} {t : Tree} (hf : Forest f t) (h : 1 < t.pq.length) :
    ∃ a b rest, t.pq.Perm (a :: b :: rest) ∧ a ≠ b
      ∧ keyLt t.node a b = true ∧ (∀ x ∈ rest, keyLt t.node b x = true)
      ∧ t.merge = ⟨tableSet t.node t.nn.toNat (internalNode t.node a b), t.root, t.nn + 1, rest ++ [t.nn]⟩ := by
  obtain ⟨a, ha, ea, la⟩ := extractMin_spec t.node (q := t.pq) (by intro e; simp [e] at h)
  have hl : (t.pq.erase a).length = t.pq.length - 1 := List.length_erase_of_mem ha
  obtain ⟨b, hb, eb, lb⟩ := extractMin_spec t.node (q := t.pq.erase a) (by intro e; simp [e] at hl; omega)
  have hab : a ≠ b := by
    intro e
    subst e
    exact hf.nodup.not_mem_erase hb
  refine ⟨a, b, (t.pq.erase a).erase b, ?_, hab, ?_, fun x hx => ?_, ?_⟩
  · exact (List.perm_cons_erase ha).trans ((List.perm_cons_erase hb).cons a)
  · exact (la b (List.mem_of_mem_erase hb)).resolve_left (Ne.symm hab)
  · refine (lb x (List.mem_of_mem_erase hx)).resolve_left ?_
    intro e
    subst e
    exact (hf.nodup.erase a).not_mem_erase hx
  · simp only [Tree.merge, ea, eb, pqInsert]

/-- The slots of the arena after a merge. -/
theorem Tree.at_set (t : Tree) {i : Nat} (v : Node) (r nn : NodeIx) (q : List NodeIx) (j : Nat) (h : i ≤ 512) :
    Tree.at ⟨tableSet t.node i v, r, nn, q⟩ j = if j = i then v else t.at j :=
  tableGet_tableSet t.node i j v Node.empty (by omega)

/-- A merge keeps the forest, with one entry fewer in the queue. -/
theorem Forest.merge {f : FreqTable} {t : Tree} (hf : Forest f t) (h : 1 < t.pq.length) :
    Forest f t.merge ∧ t.merge.pq.length + 1 = t.pq.length := by
  obtain ⟨a, b, rest, hp, hab, kab, kb, e⟩ := hf.merge_eq h
  have hlen := hp.length_eq
  simp only [List.length_cons] at hlen
  have hN : t.nn.toNat ≤ 512 := by have := hf.size; have := leafCount_le f; omega
  have hlow := hf.low
  have hnn : (t.nn + 1).toNat = t.nn.toNat + 1 := by
    rw [BitVec.toNat_add, show (1 : NodeIx).toNat = 1 from rfl]; omega
  have hnd : (a :: b :: rest).Nodup := hp.nodup_iff.1 hf.nodup
  simp only [List.nodup_cons, List.mem_cons, not_or] at hnd
  have ha : a ∈ t.pq := hp.mem_iff.2 (by simp)
  have hb : b ∈ t.pq := hp.mem_iff.2 (by simp)
  have hr : ∀ x ∈ rest, x ∈ t.pq := fun x hx => hp.mem_iff.2 (by simp [hx])
  have haN := hf.members a ha
  have hbN := hf.members b hb
  have hw := hf.weight
  rw [(hp.map _).sum_eq] at hw
  simp only [List.map_cons, List.sum_cons] at hw
  have htot := totalCount_lt f
  have hat : ∀ j, t.merge.at j = if j = t.nn.toNat then internalNode t.node a b else t.at j := by
    intro j; rw [e]; exact t.at_set _ _ _ _ j hN
  have hlt : ∀ j, j < t.nn.toNat → t.merge.at j = t.at j := fun j hj => by rw [hat, if_neg (by omega)]
  have hNat : t.merge.at t.nn.toNat = internalNode t.node a b := by rw [hat, if_pos rfl]
  have hwN : (internalNode t.node a b).w.toNat = (t.at a.toNat).w.toNat + (t.at b.toNat).w.toNat := by
    simp only [internalNode, Tree.nodeIn_eq, BitVec.toNat_add]
    omega
  have e1 : t.merge.nn = t.nn + 1 := by rw [e]
  have e2 : t.merge.pq = rest ++ [t.nn] := by rw [e]
  have hmem : ∀ x, x ∈ t.merge.pq ↔ x ∈ rest ∨ x = t.nn := by intro x; rw [e2]; simp
  have hpar : ∀ p x, t.merge.ParentOf p x ↔ t.ParentOf p x ∨ (p = t.nn.toNat ∧ (a = x ∨ b = x)) := by
    intro p x
    unfold Tree.ParentOf
    rw [e1, hnn]
    by_cases hpN : p = t.nn.toNat
    · subst hpN; rw [hNat]; simp [internalNode]; omega
    · rw [hat, if_neg hpN]
      constructor
      · rintro ⟨h1, h2, h3⟩; exact .inl ⟨h1, by omega, h3⟩
      · rintro (⟨h1, h2, h3⟩ | ⟨h1, -⟩)
        · exact ⟨h1, by omega, h3⟩
        · exact absurd h1 hpN
  have hchild : ∀ p x, t.ParentOf p x → x.toNat < t.nn.toNat := by
    rintro p x ⟨h1, h2, h3⟩
    have := hf.children p h1 h2
    rcases h3 with rfl | rfl <;> omega
  refine ⟨?_, by rw [e2]; simp; omega⟩
  constructor
  · rw [e1, hnn]; omega
  · rw [e1, e2, hnn, List.length_append, List.length_singleton]; have := hf.size; omega
  · intro i hi; rw [hlt i (by omega)]; exact hf.leaves i hi
  · intro i hi; rw [e1, hnn] at hi; rw [hat, if_neg (by omega)]; exact hf.free i (by omega)
  · intro i h1 h2
    rw [e1, hnn] at h2
    by_cases hi : i = t.nn.toNat
    · subst hi; rw [hNat]; exact ⟨rfl, rfl⟩
    · rw [hlt i (by omega)]; exact hf.slots i h1 (by omega)
  · intro i h1 h2
    rw [e1, hnn] at h2
    by_cases hi : i = t.nn.toNat
    · subst hi
      rw [hNat, hwN]
      change a ≠ b ∧ a.toNat < _ ∧ b.toNat < _ ∧ (t.merge.at a.toNat).valid = true ∧ (t.merge.at b.toNat).valid = true
        ∧ _ = (t.merge.at a.toNat).w.toNat + (t.merge.at b.toNat).w.toNat
      rw [hlt _ haN.1, hlt _ hbN.1]
      exact ⟨hab, haN.1, hbN.1, haN.2, hbN.2, rfl⟩
    · have hc := hf.children i h1 (by omega)
      rw [hlt i (by omega), hlt _ (by omega), hlt _ (by omega)]
      exact hc
  · intro i h1 h2
    rw [e1, hnn] at h2
    have hnode : ∀ x : NodeIx, x.toNat < t.nn.toNat → nodeIn t.merge.node x = nodeIn t.node x := fun x hx => hlt _ hx
    have hold : ∀ (x : NodeIx), (∀ p < i, ¬ t.merge.ParentOf p x) → ∀ p < i, ¬ t.ParentOf p x :=
      fun x hx p hp hpx => hx p hp ((hpar p x).2 (.inl hpx))
    by_cases hi : i = t.nn.toNat
    · subst hi
      unfold Tree.TookSmallest
      rw [hNat]
      refine ⟨(keyLt_congr (hnode a haN.1) (hnode b hbN.1)).trans kab, fun x hv hx hnp hxa hxb => ?_⟩
      change x ≠ a at hxa
      change x ≠ b at hxb
      change keyLt t.merge.node b x = true
      rw [keyLt_congr (hnode b hbN.1) (hnode x hx)]
      rw [hlt _ hx] at hv
      have hxq : x ∈ t.pq := by
        by_contra hxq
        obtain ⟨p, hpp, -⟩ := hf.parents x hv hxq
        exact hold x hnp p hpp.2.1 hpp
      have := hp.mem_iff.1 hxq
      simp only [List.mem_cons, hxa, hxb, false_or] at this
      exact kb x this
    · have hc := hf.children i h1 (by omega)
      obtain ⟨k1, k2⟩ := hf.smallest i h1 (by omega)
      unfold Tree.TookSmallest
      rw [hlt i (by omega)]
      have hl := hnode (t.at i).left (by omega)
      have hr := hnode (t.at i).right (by omega)
      refine ⟨by rw [keyLt_congr hl hr]; exact k1, fun x hv hx hnp hxa hxb => ?_⟩
      rw [hlt _ (by omega)] at hv
      rw [keyLt_congr hr (hnode x (by omega))]
      exact k2 x hv hx (hold x hnp) hxa hxb
  · rw [e2]
    refine List.Nodup.append hnd.2.2 (by simp) ?_
    intro x hx hx'
    rw [List.mem_singleton] at hx'
    subst hx'
    have := (hf.members _ (hr _ hx)).1
    omega
  · intro x hx
    rw [e1, hnn]
    rcases (hmem x).1 hx with hx | rfl
    · have := hf.members x (hr x hx)
      rw [hlt _ this.1]; exact ⟨by omega, this.2⟩
    · rw [hNat]; exact ⟨by omega, rfl⟩
  · intro x hx p hpx
    rcases (hpar p x).1 hpx with hpx | ⟨-, hpx⟩
    · rcases (hmem x).1 hx with hx | rfl
      · exact hf.orphans x (hr x hx) p hpx
      · exact absurd (hchild p _ hpx) (by omega)
    · rcases (hmem x).1 hx with hx | rfl
      · rcases hpx with rfl | rfl
        · exact hnd.1.2 hx
        · exact hnd.2.1 hx
      · rcases hpx with rfl | rfl <;> omega
  · intro x hv hx
    have hxN : x.toNat ≠ t.nn.toNat := fun e => hx ((hmem x).2 (.inr (BitVec.eq_of_toNat_eq e)))
    rw [hat, if_neg hxN] at hv
    by_cases hxq : x ∈ t.pq
    · have hxab : a = x ∨ b = x := by
        have := hp.mem_iff.1 hxq
        simp only [List.mem_cons] at this
        rcases this with rfl | rfl | this
        · exact .inl rfl
        · exact .inr rfl
        · exact absurd ((hmem x).2 (.inl this)) hx
      refine ⟨t.nn.toNat, (hpar _ _).2 (.inr ⟨rfl, hxab⟩), fun p' hp' => ?_⟩
      rcases (hpar _ _).1 hp' with h' | ⟨h', -⟩
      · exact absurd h' (hf.orphans x hxq p')
      · exact h'
    · obtain ⟨p, hpp, hu⟩ := hf.parents x hv hxq
      refine ⟨p, (hpar _ _).2 (.inl hpp), fun p' hp' => ?_⟩
      rcases (hpar _ _).1 hp' with h' | ⟨-, rfl | rfl⟩
      · exact hu p' h'
      · exact absurd ha hxq
      · exact absurd hb hxq
  · rw [e2, List.map_append, List.sum_append]
    simp only [List.map_cons, List.map_nil, List.sum_cons, List.sum_nil, hNat, hwN]
    have : rest.map (fun x => (t.merge.at x.toNat).w.toNat) = rest.map fun x => (t.at x.toNat).w.toNat :=
      List.map_congr_left fun x hx => by rw [hlt _ (hf.members x (hr x hx)).1]
    rw [this]
    omega
  · intro h257; rw [e1, hnn] at h257; omega
  · intro _
    rw [e1, hnn, Nat.add_sub_cancel, BitVec.ofNat_toNat, BitVec.setWidth_eq]
    exact (hmem _).2 (.inr rfl)

/-- The merges end with one entry in the queue. -/
theorem Forest.mergeAll {f : FreqTable} (k : Nat) : ∀ {t : Tree}, Forest f t → 1 ≤ t.pq.length → t.pq.length ≤ k + 1 →
    Forest f (t.mergeAll k) ∧ (t.mergeAll k).pq.length = 1 := by
  induction k with
  | zero => intro t hf h1 h2; exact ⟨hf, by simp only [Tree.mergeAll]; omega⟩
  | succ k ih =>
    intro t hf h1 h2
    simp only [Tree.mergeAll]
    split
    · next h =>
      obtain ⟨hf', hl⟩ := hf.merge h
      exact ih hf' (by omega) (by omega)
    · next h => exact ⟨hf, by omega⟩

/-! ### The finished tree -/

/-- What is true of the tree that `BUILD` makes of a table whose sentinel count is not 0 (R152). -/
structure Built (f : FreqTable) (t : Tree) : Prop where
  queue : t.pq = []
  size : t.nn.toNat + 1 = 257 + leafCount f
  low : 257 ≤ t.nn.toNat
  high : t.nn.toNat ≤ 513
  leaves : ∀ i ≤ 256, t.at i = if countIn f i = 0#32 then Node.empty else leafNode (countIn f i)
  free : ∀ i, t.nn.toNat ≤ i → t.at i = Node.empty
  slots : ∀ i, 257 ≤ i → i < t.nn.toNat → (t.at i).valid = true ∧ (t.at i).kind = .internal
  children : ∀ i, 257 ≤ i → i < t.nn.toNat →
    (t.at i).left ≠ (t.at i).right
      ∧ (t.at i).left.toNat < i ∧ (t.at i).right.toNat < i
      ∧ (t.at (t.at i).left.toNat).valid = true ∧ (t.at (t.at i).right.toNat).valid = true
      ∧ (t.at i).w.toNat = (t.at (t.at i).left.toNat).w.toNat + (t.at (t.at i).right.toNat).w.toNat
  smallest : ∀ i, 257 ≤ i → i < t.nn.toNat → t.TookSmallest i
  rootAt : t.root.toNat = if leafCount f = 1 then 256 else t.nn.toNat - 1
  rootValid : t.root.toNat < t.nn.toNat ∧ (t.at t.root.toNat).valid = true
  rootOrphan : ∀ p, ¬ t.ParentOf p t.root
  parents : ∀ x : NodeIx, (t.at x.toNat).valid = true → x ≠ t.root → ∃ p, t.ParentOf p x ∧ ∀ p', t.ParentOf p' x → p' = p
  weight : (t.at t.root.toNat).w.toNat = totalCount f

/-- A table whose sentinel count is not 0 has a Leaf. -/
theorem leafCount_pos {f : FreqTable} (h : countIn f 256 ≠ 0#32) : 1 ≤ leafCount f :=
  List.countP_pos_iff.2 ⟨256, List.mem_range.2 (by omega), by simpa using h⟩

theorem buildTree_built {f : FreqTable} (h : countIn f 256 ≠ 0#32) : Built f (buildTree f) := by
  have h0 := leafTree_forest f
  have hn : (leafTree f).nn.toNat = 257 := by rw [show (leafTree f).nn = 257#10 from (leafPrefix_spec f 257 (Nat.le_refl _)).1]; rfl
  have hL := leafCount_pos h
  have hsz := h0.size
  obtain ⟨hf, hl⟩ := h0.mergeAll (leafTree f).pq.length (by omega) (by omega)
  obtain ⟨r, hr⟩ := List.length_eq_one_iff.1 hl
  have e : buildTree f = { (leafTree f).mergeAll (leafTree f).pq.length with root := r, pq := [] } := by
    unfold buildTree
    generalize (leafTree f).mergeAll (leafTree f).pq.length = u at hr
    simp [Tree.takeRoot, hr, extractMin, minKey]
  generalize (leafTree f).mergeAll (leafTree f).pq.length = u at hf hl hr e
  rw [e]
  have hrm : r ∈ u.pq := by simp [hr]
  have hnot : ∀ x, x ≠ r → x ∉ u.pq := by intro x hx; simp [hr, hx]
  have hsize := hf.size
  have hle := leafCount_le f
  refine ⟨rfl, by simp only; omega, hf.low, by simp only; omega, hf.leaves, hf.free, hf.slots, hf.children,
    hf.smallest, ?_,
    hf.members r hrm, hf.orphans r hrm, fun x hv hx => hf.parents x hv (hnot x hx), ?_⟩
  · split
    · next hL1 =>
      have := hf.sentinel (by omega) h
      rw [hr, List.mem_singleton] at this
      simp [← this]
    · next hL1 =>
      have := hf.newest (by omega)
      rw [hr, List.mem_singleton] at this
      simp only [← this, BitVec.toNat_ofNat]
      omega
  · have := hf.weight
    rw [hr] at this
    simpa using this

end Sys2Proof.Machine
end

