-- ==== Sys2Proof/Laws/Codes.lean ====
section
/-! SUPPORT. The codes that `MKCODE` reads off a finished tree (43_code_table_builder R166 to R170): paths from the root, what
a visit writes, and which symbols get a code. -/

namespace Sys2Proof.Machine

/-! ### Paths -/

/-- Every node on the way from `n` along `q` but the last is Internal. -/
def IsPath (t : NodeTable) (n : NodeIx) (q : List Bool) : Prop :=
  ∀ p s, q = p ++ s → s ≠ [] → (nodeIn t (follow t n p)).kind = .internal

theorem isPath_nil (t : NodeTable) (n : NodeIx) : IsPath t n [] := by
  intro p s h hs
  simp only [List.nil_eq, List.append_eq_nil_iff] at h
  exact absurd h.2 hs

theorem isPath_cons {t : NodeTable} {n : NodeIx} {b : Bool} {q : List Bool} :
    IsPath t n (b :: q) ↔ (nodeIn t n).kind = .internal ∧ IsPath t (childOf t n b) q := by
  constructor
  · intro h
    refine ⟨h [] (b :: q) rfl (by simp), fun p s hq hs => ?_⟩
    exact h (b :: p) s (by rw [hq]; rfl) hs
  · rintro ⟨h1, h2⟩ p s hq hs
    cases p with
    | nil => exact h1
    | cons c p =>
      simp only [List.cons_append, List.cons.injEq] at hq
      obtain ⟨rfl, hq⟩ := hq
      exact h2 p s hq hs

theorem follow_append (t : NodeTable) (p q : List Bool) : ∀ n, follow t n (p ++ q) = follow t (follow t n p) q := by
  induction p with
  | nil => intro n; rfl
  | cons b p ih => intro n; exact ih _

theorem isPath_append {t : NodeTable} (p q : List Bool) : ∀ {n},
    IsPath t n (p ++ q) ↔ IsPath t n p ∧ IsPath t (follow t n p) q := by
  induction p with
  | nil => intro n; simp [isPath_nil, follow]
  | cons b p ih => intro n; rw [List.cons_append, isPath_cons, isPath_cons, ih, and_assoc]; rfl

/-! ### In a finished tree -/

variable {f : FreqTable} {t : Tree}

theorem Built.valid_lt (h : Built f t) {n : NodeIx} (hv : (nodeIn t.node n).valid = true) : n.toNat < t.nn.toNat := by
  by_contra hn
  rw [Tree.nodeIn_eq, h.free _ (by omega)] at hv
  exact absurd hv (by decide)

/-- A valid node is Internal exactly from slot 257 on. -/
theorem Built.internal_iff (h : Built f t) {n : NodeIx} (hv : (nodeIn t.node n).valid = true) :
    (nodeIn t.node n).kind = .internal ↔ 257 ≤ n.toNat := by
  have hn := h.valid_lt hv
  rw [Tree.nodeIn_eq] at hv ⊢
  constructor
  · intro hk
    by_contra hl
    rw [h.leaves _ (by omega)] at hk
    split at hk
    · exact absurd hk (by decide)
    · exact absurd (show NodeKind.leaf = NodeKind.internal from hk) (by decide)
  · intro hl; exact (h.slots _ hl hn).2

theorem Built.leaf_iff (h : Built f t) {n : NodeIx} (hv : (nodeIn t.node n).valid = true) :
    (nodeIn t.node n).kind = .leaf ↔ n.toNat ≤ 256 := by
  have := h.internal_iff hv
  cases hk : (nodeIn t.node n).kind
  · rw [hk] at this; simp at this; simp; omega
  · rw [hk] at this; simp at this; simp; omega

/-- A child of a valid Internal node is valid and has a smaller index. -/
theorem Built.child (h : Built f t) {n : NodeIx} (hv : (nodeIn t.node n).valid = true)
    (hk : (nodeIn t.node n).kind = .internal) (b : Bool) :
    (nodeIn t.node (childOf t.node n b)).valid = true ∧ (childOf t.node n b).toNat < n.toNat
      ∧ t.ParentOf n.toNat (childOf t.node n b) := by
  have hl := (h.internal_iff hv).1 hk
  have hn := h.valid_lt hv
  have hc := h.children _ hl hn
  cases b
  · exact ⟨hc.2.2.2.1, hc.2.1, hl, hn, .inl rfl⟩
  · exact ⟨hc.2.2.2.2.1, hc.2.2.1, hl, hn, .inr rfl⟩

theorem Built.root_valid (h : Built f t) : (nodeIn t.node t.root).valid = true := h.rootValid.2

/-- A path from a valid node ends in a valid node. -/
theorem Built.follow_valid (h : Built f t) (q : List Bool) : ∀ {n : NodeIx}, (nodeIn t.node n).valid = true →
    IsPath t.node n q → (nodeIn t.node (follow t.node n q)).valid = true := by
  induction q with
  | nil => intro n hv _; exact hv
  | cons b q ih =>
    intro n hv hp
    obtain ⟨hk, hp⟩ := isPath_cons.1 hp
    exact ih (h.child hv hk b).1 hp

/-- A path from a valid node is no longer than its slot allows. -/
theorem Built.path_length (h : Built f t) (q : List Bool) : ∀ {n : NodeIx}, (nodeIn t.node n).valid = true →
    IsPath t.node n q → q.length ≤ n.toNat + 1 - 257 := by
  induction q with
  | nil => intro n _ _; simp
  | cons b q ih =>
    intro n hv hp
    obtain ⟨hk, hp⟩ := isPath_cons.1 hp
    have hc := h.child hv hk b
    have := ih hc.1 hp
    have := (h.internal_iff hv).1 hk
    simp only [List.length_cons]
    omega

/-- The last step of two paths that end in one place is the same. -/
theorem Built.parent_unique (h : Built f t) {m n : NodeIx} {b c : Bool} (hv : (nodeIn t.node m).valid = true)
    (hk : (nodeIn t.node m).kind = .internal) (hv' : (nodeIn t.node n).valid = true)
    (hk' : (nodeIn t.node n).kind = .internal) (e : childOf t.node m b = childOf t.node n c) : m = n ∧ b = c := by
  have h1 := h.child hv hk b
  have h2 := h.child hv' hk' c
  have hne : childOf t.node m b ≠ t.root := fun er => h.rootOrphan _ (er ▸ h1.2.2)
  obtain ⟨p, -, hu⟩ := h.parents _ h1.1 hne
  have hmn : m = n := BitVec.eq_of_toNat_eq ((hu _ h1.2.2).trans (hu _ (e ▸ h2.2.2)).symm)
  subst hmn
  have hc := (h.children _ ((h.internal_iff hv).1 hk) (h.valid_lt hv)).1
  refine ⟨rfl, ?_⟩
  cases b <;> cases c
  · rfl
  · exact absurd e hc
  · exact absurd e.symm hc
  · rfl

/-- A node has one path from the root (R167). -/
theorem Built.path_unique (h : Built f t) (q : List Bool) : ∀ q', IsPath t.node t.root q → IsPath t.node t.root q' →
    follow t.node t.root q = follow t.node t.root q' → q = q' := by
  have noroot : ∀ (q : List Bool) (b : Bool), IsPath t.node t.root (q ++ [b]) → follow t.node t.root (q ++ [b]) ≠ t.root := by
    intro q b hp e
    obtain ⟨hq, hb⟩ := (isPath_append q [b]).1 hp
    have hk := (isPath_cons.1 hb).1
    have hc := h.child (h.follow_valid q h.root_valid hq) hk b
    rw [follow_append] at e
    have hpar := hc.2.2
    rw [show childOf t.node (follow t.node t.root q) b = t.root from e] at hpar
    exact h.rootOrphan _ hpar
  induction q using List.reverseRecOn with
  | nil =>
    intro q' _ hp' e
    rcases List.eq_nil_or_concat q' with rfl | ⟨q', c, rfl⟩
    · rfl
    · rw [List.concat_eq_append] at hp' e
      exact absurd e.symm (noroot q' c hp')
  | append_singleton q b ih =>
    intro q' hp hp' e
    rcases List.eq_nil_or_concat q' with rfl | ⟨q', c, rfl⟩
    · exact absurd e (noroot q b hp)
    · rw [List.concat_eq_append] at hp' e ⊢
      obtain ⟨hq, hb⟩ := (isPath_append q [b]).1 hp
      obtain ⟨hq', hc⟩ := (isPath_append q' [c]).1 hp'
      rw [follow_append, follow_append] at e
      obtain ⟨em, rfl⟩ := h.parent_unique (h.follow_valid q h.root_valid hq) (isPath_cons.1 hb).1
        (h.follow_valid q' h.root_valid hq') (isPath_cons.1 hc).1 e
      rw [ih q' hq hq' em]

/-- Every valid node has a path from the root. -/
theorem Built.path_exists (h : Built f t) : ∀ (k : Nat) (n : NodeIx), (nodeIn t.node n).valid = true →
    t.nn.toNat - n.toNat ≤ k → ∃ q, IsPath t.node t.root q ∧ follow t.node t.root q = n := by
  intro k
  induction k with
  | zero => intro n hv hk; have := h.valid_lt hv; omega
  | succ k ih =>
    intro n hv hk
    by_cases hr : n = t.root
    · exact ⟨[], isPath_nil _ _, hr.symm⟩
    · obtain ⟨p, ⟨h1, h2, h3⟩, -⟩ := h.parents n hv hr
      have hp : (BitVec.ofNat 10 p : NodeIx).toNat = p := by
        have := h.high; simp only [BitVec.toNat_ofNat]; omega
      have hpv : (nodeIn t.node (BitVec.ofNat 10 p)).valid = true := by
        rw [Tree.nodeIn_eq, hp]; exact (h.slots p h1 h2).1
      have hpk : (nodeIn t.node (BitVec.ofNat 10 p)).kind = .internal := by
        rw [Tree.nodeIn_eq, hp]; exact (h.slots p h1 h2).2
      have hc := h.children p h1 h2
      obtain ⟨q, hq, eq⟩ := ih (BitVec.ofNat 10 p) hpv (by rw [hp]; rcases h3 with rfl | rfl <;> omega)
      have step : ∀ b, childOf t.node (BitVec.ofNat 10 p) b = n →
          ∃ q, IsPath t.node t.root q ∧ follow t.node t.root q = n := by
        intro b hb
        refine ⟨q ++ [b], (isPath_append q [b]).2 ⟨hq, isPath_cons.2 ⟨by rw [eq]; exact hpk, isPath_nil _ _⟩⟩, ?_⟩
        rw [follow_append, eq]
        exact hb
      rcases h3 with h3 | h3
      · exact step false (by simp only [childOf, Tree.nodeIn_eq, hp]; exact h3)
      · exact step true (by simp only [childOf, Tree.nodeIn_eq, hp]; exact h3)

/-- Any long enough bit string leads from a valid node to a Leaf. -/
theorem Built.leaf_along (h : Built f t) : ∀ (k : Nat) (n : NodeIx) (bits : List Bool), (nodeIn t.node n).valid = true →
    n.toNat < k → n.toNat ≤ bits.length + 256 →
      ∃ p, p <+: bits ∧ IsPath t.node n p ∧ (nodeIn t.node (follow t.node n p)).kind = .leaf := by
  intro k
  induction k with
  | zero => intro n bits _ hk; omega
  | succ k ih =>
    intro n bits hv hk hb
    cases hn : (nodeIn t.node n).kind with
    | leaf => exact ⟨[], List.nil_prefix, isPath_nil _ _, hn⟩
    | internal =>
      have hl := (h.internal_iff hv).1 hn
      cases bits with
      | nil => simp at hb; omega
      | cons b bits =>
        have hc := h.child hv hn b
        rw [List.length_cons] at hb
        obtain ⟨hcv, hcn, -⟩ := hc
        have h1 : (childOf t.node n b).toNat < k := Nat.lt_of_lt_of_le hcn (Nat.le_of_lt_succ hk)
        have h2 : (childOf t.node n b).toNat ≤ bits.length + 256 := by omega
        obtain ⟨p, hp, hq, hk'⟩ := ih (childOf t.node n b) bits hcv h1 h2
        exact ⟨b :: p, by simpa using hp, isPath_cons.2 ⟨hn, hq⟩, hk'⟩

/-! ### The traversal -/

/-- What a visit of the node at the end of a path writes: each Leaf below gets its path, every other entry stays (R166). -/
theorem Built.visit (h : Built f t) : ∀ (k : Nat) (n : NodeIx) (p : List Bool) (c : CodeTable),
    n.toNat < k → IsPath t.node t.root p → follow t.node t.root p = n →
      (∀ (i : Nat) (q : List Bool), IsPath t.node n q → follow t.node n q = leafIx i → i ≤ 256 →
          codeIn (visit t.node k n p c) i = some (p ++ q))
      ∧ (∀ i : Nat, i ≤ 256 → (∀ q, IsPath t.node n q → follow t.node n q ≠ leafIx i) →
          codeIn (visit t.node k n p c) i = codeIn c i) := by
  intro k
  induction k with
  | zero => intro n p c hk; omega
  | succ k ih =>
    intro n p c hk hp hn
    have hv : (nodeIn t.node n).valid = true := hn ▸ h.follow_valid p h.root_valid hp
    have hs : ∀ i ≤ 256, (leafIx i).toNat = i := fun i hi => leafIx_toNat (by omega)
    cases hkind : (nodeIn t.node n).kind with
    | leaf =>
      have hl := (h.leaf_iff hv).1 hkind
      have e : Machine.visit t.node (k + 1) n p c = tableSet c n.toNat (some p) := by simp only [Machine.visit, hkind]
      rw [e]
      constructor
      · intro i q hq hi h256
        cases q with
        | nil =>
          have hni : n = leafIx i := hi
          rw [codeIn_tableSet c i _ hl, if_pos (by rw [hni, hs i h256]), List.append_nil]
        | cons b q => exact absurd (isPath_cons.1 hq).1 (by rw [hkind]; decide)
      · intro i h256 hno
        rw [codeIn_tableSet c i _ hl, if_neg]
        intro hi
        exact hno [] (isPath_nil _ _) (BitVec.eq_of_toNat_eq (by rw [hs i h256]; exact hi.symm))
    | internal =>
      have ext : ∀ b, IsPath t.node t.root (p ++ [b]) ∧ follow t.node t.root (p ++ [b]) = childOf t.node n b := by
        intro b
        rw [isPath_append, follow_append, hn]
        exact ⟨⟨hp, isPath_cons.2 ⟨hkind, isPath_nil _ _⟩⟩, rfl⟩
      have hc : ∀ b, (childOf t.node n b).toNat < k := fun b => by have := (h.child hv hkind b).2.1; omega
      have e : Machine.visit t.node (k + 1) n p c
          = Machine.visit t.node k (childOf t.node n true) (p ++ [true])
              (Machine.visit t.node k (childOf t.node n false) (p ++ [false]) c) := by
        simp only [Machine.visit, hkind, childOf]
        rfl
      rw [e]
      obtain ⟨l1, l2⟩ := ih _ (p ++ [false]) c (hc false) (ext false).1 (ext false).2
      obtain ⟨r1, r2⟩ := ih _ (p ++ [true]) (Machine.visit t.node k (childOf t.node n false) (p ++ [false]) c) (hc true)
        (ext true).1 (ext true).2
      constructor
      · intro i q hq hi h256
        cases q with
        | nil =>
          have hni : n = leafIx i := hi
          have := (h.internal_iff hv).1 hkind
          rw [hni, hs i h256] at this
          omega
        | cons b q =>
          have hq' := (isPath_cons.1 hq).2
          have hi' : follow t.node (childOf t.node n b) q = leafIx i := hi
          cases b
          · rw [r2 i h256, l1 i q hq' hi' h256, List.append_assoc]
            · rfl
            · intro q' hq'' hi''
              have := h.path_unique (p ++ [true] ++ q') (p ++ [false] ++ q)
                ((isPath_append _ _).2 ⟨(ext true).1, by rw [(ext true).2]; exact hq''⟩)
                ((isPath_append _ _).2 ⟨(ext false).1, by rw [(ext false).2]; exact hq'⟩)
                (by rw [follow_append, (ext true).2, follow_append _ (p ++ [false]), (ext false).2, hi'', hi'])
              simp at this
          · rw [r1 i q hq' hi' h256, List.append_assoc]
            rfl
      · intro i h256 hno
        rw [r2 i h256, l2 i h256]
        · intro q hq hi
          exact hno (false :: q) (isPath_cons.2 ⟨hkind, hq⟩) hi
        · intro q hq hi
          exact hno (true :: q) (isPath_cons.2 ⟨hkind, hq⟩) hi

/-- With an Internal root, a code is a path from the root to the Leaf of its symbol, and every such path is a code (R167). -/
theorem Built.code_iff (h : Built f t) (hr : (nodeIn t.node t.root).kind = .internal) (i : Nat) (q : List Bool) :
    codeIn (codeTable t.node t.root) i = some q ↔
      i ≤ 256 ∧ IsPath t.node t.root q ∧ follow t.node t.root q = leafIx i := by
  have hroot : t.root.toNat < visitDepth := by have := h.rootValid.1; have := h.high; unfold visitDepth; omega
  obtain ⟨v1, v2⟩ := h.visit visitDepth t.root [] noCodes hroot (isPath_nil _ _) rfl
  have e : codeTable t.node t.root = Machine.visit t.node visitDepth t.root [] noCodes := by simp only [codeTable, hr]
  rw [e]
  constructor
  · intro hc
    have hi : i ≤ 256 := by
      by_contra hi
      rw [codeIn, tableGet_of_le _ _ (by omega)] at hc
      cases hc
    by_cases hex : ∃ q', IsPath t.node t.root q' ∧ follow t.node t.root q' = leafIx i
    · obtain ⟨q', hq', hf'⟩ := hex
      have := v1 i q' hq' hf' hi
      rw [hc, List.nil_append, Option.some.injEq] at this
      subst this
      exact ⟨hi, hq', hf'⟩
    · rw [v2 i hi fun q' hq' hf' => hex ⟨q', hq', hf'⟩, codeIn_noCodes] at hc
      cases hc
  · rintro ⟨hi, hq, hf'⟩
    exact v1 i q hq hf' hi

/-- A symbol with a count is a valid Leaf, and only such a one. -/
theorem Built.leafIx_valid (h : Built f t) {i : Nat} (hi : i ≤ 256) :
    (nodeIn t.node (leafIx i)).valid = true ↔ countIn f i ≠ 0#32 := by
  rw [Tree.nodeIn_eq, leafIx_toNat (by omega), h.leaves i hi]
  by_cases hc : countIn f i = 0#32
  · simp [hc]
  · simp [hc, leafNode]

/-- With an Internal root a symbol has a code iff its count is not 0 (R170 item 1). -/
theorem Built.code_exists (h : Built f t) (hr : (nodeIn t.node t.root).kind = .internal) {i : Nat} (hi : i ≤ 256) :
    (∃ q, codeIn (codeTable t.node t.root) i = some q) ↔ countIn f i ≠ 0#32 := by
  rw [← h.leafIx_valid hi]
  constructor
  · rintro ⟨q, hq⟩
    obtain ⟨-, h1, h2⟩ := (h.code_iff hr i q).1 hq
    exact h2 ▸ h.follow_valid q h.root_valid h1
  · intro hv
    obtain ⟨q, h1, h2⟩ := h.path_exists _ (leafIx i) hv (Nat.le_refl _)
    exact ⟨q, (h.code_iff hr i q).2 ⟨hi, h1, h2⟩⟩

/-- A Leaf root is the sentinel's (R151). -/
theorem Built.leaf_root (h : Built f t) (hr : (nodeIn t.node t.root).kind = .leaf) :
    t.root = 256#10 ∧ leafCount f = 1 := by
  have hl := (h.leaf_iff h.root_valid).1 hr
  have hroot := h.rootAt
  have := h.size
  split at hroot
  · next h1 => exact ⟨BitVec.eq_of_toNat_eq hroot, h1⟩
  · next h1 => exfalso; have := h.low; omega

/-- With a Leaf root the one code is the sentinel's single bit 0 (R168). -/
theorem Built.leaf_root_code (h : Built f t) (hr : (nodeIn t.node t.root).kind = .leaf) (i : Nat) :
    codeIn (codeTable t.node t.root) i = if i = 256 then some [false] else none := by
  have e := (h.leaf_root hr).1
  simp only [codeTable, hr]
  rw [codeIn_tableSet _ _ _ (by rw [e]; decide), codeIn_noCodes, e]
  rfl

end Sys2Proof.Machine
end

