-- ==== Sys2Proof/Laws/Decode.lean ====
section
/-! SUPPORT. The fields of a packed command word, and the word from its fields. -/

namespace Sys2Proof

@[simp] theorem opField_packWord (op : BitVec 8) (idx : BitVec 9) (data : BitVec 32) :
    opField (packWord op idx data) = op := by
  apply BitVec.eq_of_getLsbD_eq
  intro i hi
  simp only [opField, packWord, BitVec.getLsbD_extractLsb', BitVec.getLsbD_append]
  have h1 : ¬ 56 + i < 32 := by omega
  have h2 : ¬ 56 + i - 32 < 9 := by omega
  have h3 : ¬ 56 + i - 32 - 9 < 15 := by omega
  have h4 : 56 + i - 32 - 9 - 15 = i := by omega
  simp [h1, h2, h3, h4, hi]

@[simp] theorem rsvField_packWord (op : BitVec 8) (idx : BitVec 9) (data : BitVec 32) :
    rsvField (packWord op idx data) = 0 := by
  apply BitVec.eq_of_getLsbD_eq
  intro i hi
  simp only [rsvField, packWord, BitVec.getLsbD_extractLsb', BitVec.getLsbD_append]
  have h1 : ¬ 41 + i < 32 := by omega
  have h2 : ¬ 41 + i - 32 < 9 := by omega
  have h3 : 41 + i - 32 - 9 < 15 := by omega
  simp [h1, h2, h3]

@[simp] theorem idxField_packWord (op : BitVec 8) (idx : BitVec 9) (data : BitVec 32) :
    idxField (packWord op idx data) = idx := by
  apply BitVec.eq_of_getLsbD_eq
  intro i hi
  simp only [idxField, packWord, BitVec.getLsbD_extractLsb', BitVec.getLsbD_append]
  have h1 : ¬ 32 + i < 32 := by omega
  have h2 : 32 + i - 32 = i := by omega
  simp [h1, h2, hi]

@[simp] theorem dataField_packWord (op : BitVec 8) (idx : BitVec 9) (data : BitVec 32) :
    dataField (packWord op idx data) = data := by
  apply BitVec.eq_of_getLsbD_eq
  intro i hi
  simp only [dataField, packWord, BitVec.getLsbD_extractLsb', BitVec.getLsbD_append]
  simp [hi]

/-- A word whose reserved field is 0 is packed from its other fields. -/
theorem packWord_fields (w : Word64) (h : rsvField w = 0) : packWord (opField w) (idxField w) (dataField w) = w := by
  apply BitVec.eq_of_getLsbD_eq
  intro i hi
  have hr : ∀ j < 15, w.getLsbD (41 + j) = false := by
    intro j hj
    have := congrArg (fun v : BitVec 15 => v.getLsbD j) h
    simpa [rsvField, hj] using this
  simp only [packWord, opField, idxField, dataField, BitVec.getLsbD_append, BitVec.getLsbD_extractLsb']
  by_cases h1 : i < 32
  · simp [h1]
  · by_cases h2 : i - 32 < 9
    · have : 32 + (i - 32) = i := by omega
      simp [h1, h2, this]
    · by_cases h3 : i - 32 - 9 < 15
      · have := hr (i - 32 - 9) h3
        have e : 41 + (i - 32 - 9) = i := by omega
        rw [e] at this
        simp [h1, h2, h3, this]
      · have e : 56 + (i - 32 - 9 - 15) = i := by omega
        have h4 : i - 32 - 9 - 15 < 8 := by omega
        simp [h1, h2, h3, h4, e]

/-- Two words with the same fields are the same. -/
theorem word_ext {v w : Word64} (hop : opField v = opField w) (hrsv : rsvField v = rsvField w)
    (hidx : idxField v = idxField w) (hdata : dataField v = dataField w) : v = w := by
  apply BitVec.eq_of_getLsbD_eq
  intro i hi
  have key : ∀ (s k : Nat) (_ : v.extractLsb' s k = w.extractLsb' s k), s ≤ i → i < s + k → v.getLsbD i = w.getLsbD i := by
    intro s k h h1 h2
    have := congrArg (fun u : BitVec k => u.getLsbD (i - s)) h
    have e : s + (i - s) = i := by omega
    have h3 : i - s < k := by omega
    simpa [h3, e] using this
  by_cases h1 : i < 32
  · exact key 0 32 hdata (by omega) (by omega)
  · by_cases h2 : i < 41
    · exact key 32 9 hidx (by omega) (by omega)
    · by_cases h3 : i < 56
      · exact key 41 15 hrsv (by omega) (by omega)
      · exact key 56 8 hop (by omega) (by omega)

/-- A masked word is a packed word iff each masked field is the packed one. -/
theorem and_mask_eq_packWord {w m : Word64} {op : BitVec 8} {idx : BitVec 9} {data : BitVec 32} :
    w &&& m = packWord op idx data ↔
      opField w &&& opField m = op ∧ rsvField w &&& rsvField m = 0
        ∧ idxField w &&& idxField m = idx ∧ dataField w &&& dataField m = data := by
  have hop : opField (w &&& m) = opField w &&& opField m := by simp [opField, BitVec.extractLsb'_and]
  have hrsv : rsvField (w &&& m) = rsvField w &&& rsvField m := by simp [rsvField, BitVec.extractLsb'_and]
  have hidx : idxField (w &&& m) = idxField w &&& idxField m := by simp [idxField, BitVec.extractLsb'_and]
  have hdata : dataField (w &&& m) = dataField w &&& dataField m := by simp [dataField, BitVec.extractLsb'_and]
  constructor
  · intro h
    rw [← hop, ← hrsv, ← hidx, ← hdata, h]
    simp
  · rintro ⟨h1, h2, h3, h4⟩
    apply word_ext <;> simp_all

/-- The decoder's answer on the word of a command: what is left is the command itself and its format's zeros. -/
theorem requireZero_instr {zero : Bool} {i j : Instr} : requireZero zero i = .instr j ↔ zero = true ∧ i = j := by
  cases zero <;> simp [requireZero]

end Sys2Proof
end

