-- ==== Sys2Proof/Laws/Flow.lean ====
section
/-! SUPPORT. What the BitWriter, the BitReader and the loops of `ENCODE` and `DECODE` can do, said once each: how they end, what
they leave unchanged, that the bits of a code lead the walk to its Leaf, and that the bound on the walk's turns is never
used up. -/

namespace Sys2Proof.Machine

/-! ### The BitWriter -/

/-- The BitWriter and the OUT side of `t`, all else of `s`: what writing changes. -/
def State.withWriter (s t : State) : State :=
  { s with bwAcc := t.bwAcc, bwN := t.bwN, out := t.out, sinkNext := t.sinkNext }

/-- Everything a byte offered by the BitWriter can come to. -/
theorem State.flushByte_cases (s : State) (byte : Byte) (rest : List Bool) :
    (∃ t, s.flushByte byte rest = .done t ∧ t = s.withWriter t ∧ t.bwAcc = 0 ∧ t.bwN = 0)
      ∨ (∃ t, s.flushByte byte rest = .raised (t.raise .ioSnk 0) ∧ t = s.withWriter t ∧ t.bwAcc = s.bwAcc ∧ t.bwN = s.bwN)
      ∨ (s.flushByte byte rest = .wait rest s ∧ s.sinkNext = [] ∧ s.sinkRest = none) := by
  unfold State.flushByte
  rcases s.sinkWrite_cases byte with ⟨as, e, -⟩ | ⟨as, e, -⟩ | ⟨e, h1, h2⟩
  · exact .inl ⟨_, by rw [e], rfl, rfl, rfl⟩
  · exact .inr (.inl ⟨{ s with sinkNext := as }, by rw [e], rfl, rfl, rfl⟩)
  · exact .inr (.inr ⟨by rw [e], h1, h2⟩)

/-- Everything `WriteBit` can do (R181). -/
theorem State.writeBit_cases (s : State) (b : Bool) :
    (s.bwN.toNat < 7 ∧ s.writeBit b = .done { s with bwAcc := shiftIn s.bwAcc b, bwN := s.bwN + 1 })
      ∨ (∃ t, s.writeBit b = .done t ∧ t = s.withWriter t ∧ t.bwAcc = 0 ∧ t.bwN = 0)
      ∨ (∃ t, s.writeBit b = .raised (t.raise .ioSnk 0) ∧ t = s.withWriter t ∧ t.bwAcc = s.bwAcc ∧ t.bwN = s.bwN)
      ∨ (s.writeBit b = .wait [b] s ∧ s.sinkNext = [] ∧ s.sinkRest = none) := by
  unfold State.writeBit
  split
  · next h => exact .inl ⟨h, rfl⟩
  · exact .inr (s.flushByte_cases _ _)

/-- Everything `Close` can do (R182). -/
theorem State.closeWriter_cases (s : State) :
    (∃ t, s.closeWriter = .done t ∧ t = s.withWriter t ∧ t.bwN = 0 ∧ (t.bwAcc = 0 ∨ t = s))
      ∨ (∃ t, s.closeWriter = .raised (t.raise .ioSnk 0) ∧ t = s.withWriter t ∧ t.bwAcc = s.bwAcc ∧ t.bwN = s.bwN)
      ∨ (s.closeWriter = .wait [] s ∧ s.sinkNext = [] ∧ s.sinkRest = none) := by
  unfold State.closeWriter
  split
  · next h => exact .inl ⟨s, rfl, rfl, h, .inr rfl⟩
  · rcases s.flushByte_cases (paddedByte s.bwAcc s.bwN) [] with ⟨t, e, h1, h2, h3⟩ | h | h
    · exact .inl ⟨t, e, h1, h3, .inl h2⟩
    · exact .inr (.inl h)
    · exact .inr (.inr h)

/-- Everything the writing of a bit string can do: it is over, or it has raised `E_IO_SNK`, or it waits with some bits left. -/
theorem writeBits_cases (bits : List Bool) : ∀ s : State,
    (∃ t, writeBits bits s = .done t ∧ t = s.withWriter t)
      ∨ (∃ t, writeBits bits s = .raised (t.raise .ioSnk 0) ∧ t = s.withWriter t)
      ∨ (∃ rest t, writeBits bits s = .wait rest t ∧ t = s.withWriter t ∧ rest ≠ [] ∧ t.sinkNext = [] ∧ t.sinkRest = none) := by
  induction bits with
  | nil => intro s; exact .inl ⟨s, rfl, rfl⟩
  | cons b bits ih =>
    intro s
    have go : ∀ u, s.writeBit b = .done u → u = s.withWriter u →
        (∃ t, writeBits (b :: bits) s = .done t ∧ t = s.withWriter t)
          ∨ (∃ t, writeBits (b :: bits) s = .raised (t.raise .ioSnk 0) ∧ t = s.withWriter t)
          ∨ (∃ rest t, writeBits (b :: bits) s = .wait rest t ∧ t = s.withWriter t ∧ rest ≠ [] ∧ t.sinkNext = []
            ∧ t.sinkRest = none) := by
      intro u e hu
      have tr : ∀ t, t = u.withWriter t → t = s.withWriter t := fun t ht => by rw [ht, hu]; rfl
      simp only [writeBits, e]
      rcases ih u with ⟨t, e', h⟩ | ⟨t, e', h⟩ | ⟨rest, t, e', h, h'⟩
      · exact .inl ⟨t, e', tr t h⟩
      · exact .inr (.inl ⟨t, e', tr t h⟩)
      · exact .inr (.inr ⟨rest, t, e', tr t h, h'⟩)
    rcases s.writeBit_cases b with ⟨-, e⟩ | ⟨u, e, hu, -⟩ | ⟨u, e, hu, -⟩ | ⟨e, h1, h2⟩
    · exact go _ e rfl
    · exact go u e hu
    · exact .inr (.inl ⟨u, by simp only [writeBits, e], hu⟩)
    · exact .inr (.inr ⟨b :: bits, s, by simp only [writeBits, e], rfl, by simp, h1, h2⟩)

/-! ### ENCODE -/

/-- What is left on IN does not matter to writing. -/
theorem writeBits_inp (bits : List Bool) : ∀ (s : State) (i : List Token), writeBits bits { s with inp := i } =
    match writeBits bits s with
    | .done t => .done { t with inp := i }
    | .raised t => .raised { t with inp := i }
    | .wait rest t => .wait rest { t with inp := i } := by
  have hb : ∀ (s : State) (i : List Token) (b : Bool), State.writeBit { s with inp := i } b =
      match s.writeBit b with
      | .done t => .done { t with inp := i }
      | .raised t => .raised { t with inp := i }
      | .wait rest t => .wait rest { t with inp := i } := by
    intro s i b
    unfold State.writeBit State.flushByte State.sinkWrite State.sinkAnswer
    by_cases h : s.bwN.toNat < 7
    · simp [h]
    · cases hn : s.sinkNext with
      | nil =>
        cases hr : s.sinkRest with
        | none => simp [h, hn, hr]
        | some a => cases a <;> simp [h, hn, hr, State.raise]
      | cons a as => cases a <;> simp [h, State.raise]
  induction bits with
  | nil => intro s i; rfl
  | cons b bits ih =>
    intro s i
    simp only [writeBits]
    rw [hb s i b]
    cases s.writeBit b with
    | done t => exact ih t i
    | raised t => rfl
    | wait rest t => rfl

/-- Each turn of the loop overwrites what is left on IN. -/
theorem encodeLoop_inp (ts : List Token) (s : State) (i : List Token) :
    encodeLoop ts { s with inp := i } = encodeLoop ts s := by
  cases ts with
  | nil => rfl
  | cons t ts => cases t <;> rfl

/-- The loop over bytes that all have codes, as long as their bits can be written: their bits are written, and it goes on. -/
theorem encodeLoop_bytes (x : List Byte) : ∀ (s t : State) (ts : List Token),
    (∀ b ∈ x, s.codeAt (symbolOf b) ≠ none) → writeBits (codeBits s.code x) s = .done t →
      encodeLoop (x.map .byte ++ ts) s = encodeLoop ts t := by
  induction x with
  | nil => intro s t ts _ h; cases h; rfl
  | cons b x ih =>
    intro s t ts hc h
    obtain ⟨bits, hb⟩ := Option.ne_none_iff_exists'.1 (hc b List.mem_cons_self)
    have hcb : codeBits s.code (b :: x) = bits ++ codeBits s.code x := by
      have : codeIn s.code (symbolOf b) = some bits := hb
      simp [codeBits, this, Code.bits]
    rw [hcb, writeBits_append] at h
    simp only [List.map_cons, List.cons_append, encodeLoop]
    rw [show State.codeAt { s with inp := x.map Token.byte ++ ts } (symbolOf b) = some bits from hb]
    simp only [writeBits_inp]
    rcases writeBits_cases bits s with ⟨u, e, hu⟩ | ⟨u, e, -⟩ | ⟨rest, u, e, -⟩
    · simp only [e] at h ⊢
      have hcode : u.code = s.code := by rw [hu]; rfl
      rw [encodeLoop_inp]
      refine ih u t ts (fun c hc' => ?_) (by rw [hcode]; exact h)
      have := hc c (List.mem_cons_of_mem _ hc')
      unfold State.codeAt at this ⊢
      rw [hcode]; exact this
    · simp [e] at h
    · simp [e] at h

/-- The way a command of the stream ends: with the error state as it was, with one of `errs`, or waiting at one of `waits`. -/
def EndsAs (s t : State) (ended : Prop) (errs : List ErrCode) (waits : Activity → Prop) : Prop :=
  (t.err = s.err ∧ t.seq = s.seq ∧ ended) ∨ (t.err ∈ errs ∧ t.seq = s.seq) ∨ (t.err = s.err ∧ waits t.seq)

/-- The places where `ENCODE` waits. -/
def EncodeWaits (a : Activity) : Prop :=
  a = .encodeRead ∨ a = .encodeClose ∨ ∃ rest eos, rest ≠ [] ∧ a = .encodeBits rest eos

/-- What `ENCODE` may change. -/
def State.withEncode (s t : State) : State :=
  { s.withWriter t with inp := t.inp, err := t.err, errInfo := t.errInfo, seq := t.seq }

/-- Everything the end of `ENCODE` can do. -/
theorem State.encodeClose_cases (s : State) :
    s.encodeClose = s.withEncode s.encodeClose
      ∧ EndsAs s s.encodeClose (s.encodeClose.bwN = 0) [.ioSrc, .noCode, .ioSnk] EncodeWaits := by
  unfold State.encodeClose
  rcases s.closeWriter_cases with ⟨t, e, h, h', -⟩ | ⟨t, e, h, -⟩ | ⟨e, -⟩
  · rw [e]
    have he : t.err = s.err ∧ t.seq = s.seq := by rw [h]; exact ⟨rfl, rfl⟩
    exact ⟨by rw [h]; rfl, .inl ⟨he.1, he.2, h'⟩⟩
  · rw [e]
    refine ⟨by rw [h]; rfl, .inr (.inl ⟨by simp [State.raise], ?_⟩)⟩
    rw [h]; rfl
  · rw [e]
    exact ⟨rfl, .inr (.inr ⟨rfl, .inr (.inl rfl)⟩)⟩

/-- Everything the sentinel's code and the end of `ENCODE` can do. -/
theorem State.encodeEos_cases (s : State) (bits : List Bool) :
    s.encodeEos bits = s.withEncode (s.encodeEos bits)
      ∧ EndsAs s (s.encodeEos bits) ((s.encodeEos bits).bwN = 0) [.ioSrc, .noCode, .ioSnk] EncodeWaits := by
  unfold State.encodeEos
  rcases writeBits_cases bits s with ⟨t, e, h⟩ | ⟨t, e, h⟩ | ⟨rest, t, e, h, hr, -⟩
  · rw [e]
    obtain ⟨h1, h2⟩ := t.encodeClose_cases
    have he : t.err = s.err ∧ t.seq = s.seq := by rw [h]; exact ⟨rfl, rfl⟩
    refine ⟨?_, ?_⟩
    · simp only
      rw [h1, h]; rfl
    · simp only
      unfold EndsAs at h2 ⊢
      rw [he.1, he.2] at h2
      exact h2
  · rw [e]
    refine ⟨by rw [h]; rfl, .inr (.inl ⟨by simp [State.raise], ?_⟩)⟩
    rw [h]; rfl
  · rw [e]
    refine ⟨by rw [h]; rfl, .inr (.inr ⟨?_, .inr (.inr ⟨rest, true, hr, rfl⟩)⟩)⟩
    rw [h]; rfl

/-- Everything the loop of `ENCODE` can do (R201). -/
theorem encodeLoop_cases (ts : List Token) : ∀ s : State,
    encodeLoop ts s = s.withEncode (encodeLoop ts s)
      ∧ EndsAs s (encodeLoop ts s) ((encodeLoop ts s).bwN = 0) [.ioSrc, .noCode, .ioSnk] EncodeWaits := by
  induction ts with
  | nil => intro s; exact ⟨rfl, .inr (.inr ⟨rfl, .inl rfl⟩)⟩
  | cons tok ts ih =>
    intro s
    cases tok with
    | failTok => exact ⟨rfl, .inr (.inl ⟨by simp [encodeLoop, State.raise], rfl⟩)⟩
    | endTok => exact State.encodeEos_cases { s with inp := ts } _
    | byte b =>
      simp only [encodeLoop]
      cases hc : State.codeAt { s with inp := ts } (symbolOf b) with
      | none => exact ⟨rfl, .inr (.inl ⟨by simp [State.raise], rfl⟩)⟩
      | some bits =>
        rcases writeBits_cases bits { s with inp := ts } with ⟨t, e, h⟩ | ⟨t, e, h⟩ | ⟨rest, t, e, h, hr, -⟩
        · simp only [e]
          obtain ⟨h1, h2⟩ := ih t
          have he : t.err = s.err ∧ t.seq = s.seq := by rw [h]; exact ⟨rfl, rfl⟩
          refine ⟨?_, ?_⟩
          · rw [h1, h]; rfl
          · unfold EndsAs at h2 ⊢
            rw [he.1, he.2] at h2
            exact h2
        · simp only [e]
          refine ⟨by rw [h]; rfl, .inr (.inl ⟨by simp [State.raise], ?_⟩)⟩
          rw [h]; rfl
        · simp only [e]
          refine ⟨by rw [h]; rfl, .inr (.inr ⟨?_, .inr (.inr ⟨rest, false, hr, rfl⟩)⟩)⟩
          rw [h]; rfl

/-! ### The BitReader -/

/-- Everything `ReadBit` can do (R185). -/
theorem State.readBit_cases (s : State) :
    (∃ b, s.readBit = .bit b { s with brBuf := s.brBuf <<< 1, brN := s.brN - 1 } ∧ s.brEof = false ∧ s.brN ≠ 0)
      ∨ (∃ (v : Byte) (ts : List Token), s.readBit = .bit v.msb { s with brBuf := v <<< 1, brN := 7, inp := ts } ∧ s.brEof = false ∧ s.brN = 0
        ∧ s.inp = .byte v :: ts)
      ∨ (s.readBit = .eosSig s ∧ s.brEof = true)
      ∨ (∃ ts, s.readBit = .eosSig { s with brEof := true, inp := ts } ∧ s.brEof = false ∧ s.brN = 0 ∧ s.inp = .endTok :: ts)
      ∨ (∃ ts, s.readBit = .failed { s with inp := ts } ∧ s.brEof = false ∧ s.brN = 0 ∧ s.inp = .failTok :: ts)
      ∨ (s.readBit = .wait ∧ s.brEof = false ∧ s.brN = 0 ∧ s.inp = []) := by
  unfold State.readBit
  by_cases he : s.brEof = true
  · rw [if_pos he]; exact .inr (.inr (.inl ⟨rfl, he⟩))
  · rw [if_neg he]
    have he' : s.brEof = false := by simpa using he
    by_cases hn : s.brN = 0
    · rw [if_pos hn]
      rcases s.srcRead_cases with ⟨hi, e⟩ | ⟨t, ts, hi, e⟩
      · rw [e]; exact .inr (.inr (.inr (.inr (.inr ⟨rfl, he', hn, hi⟩))))
      · rw [e]
        cases t with
        | byte v => exact .inr (.inl ⟨v, ts, rfl, he', hn, hi⟩)
        | endTok => exact .inr (.inr (.inr (.inl ⟨ts, rfl, he', hn, hi⟩)))
        | failTok => exact .inr (.inr (.inr (.inr (.inl ⟨ts, rfl, he', hn, hi⟩))))
    · rw [if_neg hn]; exact .inl ⟨_, rfl, he', hn⟩

/-- Each bit that is read takes one off the budget. -/
theorem State.bitBudget_readBit {s t : State} {b : Bool} (h : s.readBit = .bit b t) : t.bitBudget + 1 ≤ s.bitBudget := by
  have hn := s.brN.isLt
  rcases s.readBit_cases with ⟨c, e, -, h0⟩ | ⟨v, ts, e, -, h0, hi⟩ | ⟨e, -⟩ | ⟨ts, e, -⟩ | ⟨ts, e, -⟩ | ⟨e, -⟩
  · rw [e] at h; cases h
    have : s.brN.toNat ≠ 0 := fun e => h0 (BitVec.eq_of_toNat_eq e)
    have hs : (s.brN - 1).toNat = s.brN.toNat - 1 := by
      rw [BitVec.toNat_sub, show (1 : BitVec 3).toNat = 1 from rfl]; omega
    simp only [State.bitBudget, hs]; omega
  · rw [e] at h; cases h
    have : s.brN.toNat = 0 := by rw [h0]; rfl
    simp only [State.bitBudget, hi, List.length_cons, this, show (7 : BitVec 3).toNat = 7 from rfl]; omega
  · rw [e] at h; cases h
  · rw [e] at h; cases h
  · rw [e] at h; cases h
  · rw [e] at h; cases h

/-! ### DECODE -/

/-- A turn of the walk on a Leaf: the end, or the byte and the root again (R217). -/
def leafTurn (k : Nat) (s : State) : State :=
  if s.cur = Config.eosIx then s
  else
    match s.sinkWrite (emittedByte s.cur) with
    | .accepted s' => decodeWalk k { s' with cur := s'.root }
    | .failed s' => s'.raise .ioSnk 0
    | .wait => s.suspend .decodeEmit

/-- One turn of the walk that reads a bit. -/
theorem decodeWalk_bit {k : Nat} {s t : State} {b : Bool} (h : s.readBit = .bit b t) :
    decodeWalk (k + 1) s =
      match ((t.descend b).nodeAt (t.descend b).cur).kind with
      | .internal => decodeWalk k (t.descend b)
      | .leaf => leafTurn k (t.descend b) := by
  simp only [decodeWalk, h, leafTurn] <;> rfl

/-- The bits of a path to a Leaf take the walk there (R217, R221). -/
theorem decodeWalk_path (q : List Bool) : ∀ (k : Nat) (s r r' : State), q ≠ [] → IsPath s.node s.cur q →
    (nodeIn s.node (follow s.node s.cur q)).kind = .leaf → readBits q.length r = some (q, r') →
      decodeWalk (k + q.length) (s.withReader r) = leafTurn k { s.withReader r' with cur := follow s.node s.cur q } := by
  induction q with
  | nil => intro k s r r' h; exact absurd rfl h
  | cons b q ih =>
    intro k s r r' _ hp hl hr
    simp only [List.length_cons, readBits] at hr
    cases e : r.readBit with
    | eosSig t => simp [e] at hr
    | failed t => simp [e] at hr
    | wait => simp [e] at hr
    | bit c t =>
      simp only [e] at hr
      cases e' : readBits q.length t with
      | none => simp [e'] at hr
      | some p =>
        simp only [e', Option.some.injEq, Prod.mk.injEq, List.cons.injEq] at hr
        obtain ⟨⟨rfl, hq⟩, rfl⟩ := hr
        have ew : (s.withReader r).readBit = .bit c (s.withReader t) := by rw [State.readBit_withReader, e]
        have ed : (s.withReader t).descend c = State.withReader { s with cur := childOf s.node s.cur c } t := rfl
        rw [List.length_cons, ← Nat.add_assoc, decodeWalk_bit ew, ed]
        obtain ⟨-, hp'⟩ := isPath_cons.1 hp
        cases q with
        | nil =>
          simp only [List.length_nil, readBits, Option.some.injEq] at e'
          rw [← e']
          have hl' : (State.nodeAt (State.withReader { s with cur := childOf s.node s.cur c } t)
              (State.withReader { s with cur := childOf s.node s.cur c } t).cur).kind = .leaf := hl
          rw [hl']
          rfl
        | cons c' q =>
          have hk : (State.nodeAt (State.withReader { s with cur := childOf s.node s.cur c } t)
              (State.withReader { s with cur := childOf s.node s.cur c } t).cur).kind = .internal := (isPath_cons.1 hp').1
          rw [hk]
          obtain ⟨p1, p2⟩ := p
          simp only at hq
          subst hq
          exact ih k { s with cur := childOf s.node s.cur c } t p2 (by simp) hp' hl e'

/-- The bound on the turns is never used up, so it does not matter how far above the budget it is. -/
theorem decodeWalk_fuel (k : Nat) : ∀ (k' : Nat) (s : State), s.bitBudget < k → s.bitBudget < k' →
    decodeWalk k s = decodeWalk k' s := by
  induction k with
  | zero => intro k' s h; omega
  | succ k ih =>
    intro k' s h h'
    cases k' with
    | zero => omega
    | succ k' =>
      cases e : s.readBit with
      | eosSig t => simp only [decodeWalk, e]
      | failed t => simp only [decodeWalk, e]
      | wait => simp only [decodeWalk, e]
      | bit b t =>
        have hb := State.bitBudget_readBit e
        have hd : (t.descend b).bitBudget = t.bitBudget := rfl
        rw [decodeWalk_bit e, decodeWalk_bit e]
        cases ((t.descend b).nodeAt (t.descend b).cur).kind with
        | internal => exact ih k' _ (by omega) (by omega)
        | leaf =>
          simp only [leafTurn]
          split
          · rfl
          · rcases (t.descend b).sinkWrite_cases (emittedByte (t.descend b).cur) with ⟨as, e', -⟩ | ⟨as, e', -⟩ | ⟨e', -⟩
            · rw [e']
              exact ih k' _ (by simp only [State.bitBudget] at *; omega) (by simp only [State.bitBudget] at *; omega)
            · rw [e']
            · rw [e']

/-- What `DECODE` may change. -/
def State.withDecode (s t : State) : State :=
  { s with
    brBuf := t.brBuf, brN := t.brN, brEof := t.brEof, cur := t.cur, inp := t.inp, out := t.out, sinkNext := t.sinkNext,
    err := t.err, errInfo := t.errInfo, seq := t.seq }

/-- Everything the walk of `DECODE` can do (R216, R217, R219, R220). -/
theorem decodeWalk_cases (k : Nat) : ∀ s : State,
    decodeWalk k s = s.withDecode (decodeWalk k s)
      ∧ EndsAs s (decodeWalk k s) ((decodeWalk k s).cur = 256#10) [.ioSrc, .trunc, .ioSnk]
        fun a => a = .decodeRead ∨ a = .decodeEmit := by
  have tr : ∀ {s : State} (u v : State), u = s.withDecode u → v = u.withDecode v → v = s.withDecode v :=
    fun u v hu hv => by rw [hv, hu]; rfl
  have keep : ∀ (s u t : State), u = s.withDecode u → u.err = s.err → u.seq = s.seq →
      (t = u.withDecode t ∧ EndsAs u t (t.cur = 256#10) [.ioSrc, .trunc, .ioSnk] fun a => a = .decodeRead ∨ a = .decodeEmit) →
        t = s.withDecode t
          ∧ EndsAs s t (t.cur = 256#10) [.ioSrc, .trunc, .ioSnk] fun a => a = .decodeRead ∨ a = .decodeEmit := by
    rintro s u t hu h1 h2 ⟨h3, h4⟩
    refine ⟨tr u t hu h3, ?_⟩
    unfold EndsAs at h4 ⊢
    rw [h1, h2] at h4
    exact h4
  induction k with
  | zero => intro s; exact ⟨rfl, .inr (.inr ⟨rfl, .inl rfl⟩)⟩
  | succ k ih =>
    intro s
    have bitTurn : ∀ (b : Bool) (t : State), s.readBit = .bit b t → t = s.withDecode t → t.err = s.err → t.seq = s.seq →
        decodeWalk (k + 1) s = s.withDecode (decodeWalk (k + 1) s)
          ∧ EndsAs s (decodeWalk (k + 1) s) ((decodeWalk (k + 1) s).cur = 256#10) [.ioSrc, .trunc, .ioSnk]
            fun a => a = .decodeRead ∨ a = .decodeEmit := by
      intro b t e h1 h2 h3
      rw [decodeWalk_bit e]
      have hd : t.descend b = s.withDecode (t.descend b) := by unfold State.descend; rw [h1]; rfl
      cases ((t.descend b).nodeAt (t.descend b).cur).kind with
      | internal => exact keep _ _ _ hd h2 h3 (ih _)
      | leaf =>
        simp only [leafTurn]
        split
        · next h => exact ⟨hd, .inl ⟨h2, h3, h⟩⟩
        · rcases (t.descend b).sinkWrite_cases (emittedByte (t.descend b).cur) with ⟨as, e', -⟩ | ⟨as, e', -⟩ | ⟨e', -⟩
          · rw [e']
            exact keep s _ _ (tr _ _ hd rfl) h2 h3 (ih _)
          · rw [e']
            exact ⟨tr _ _ hd rfl, .inr (.inl ⟨by simp [State.raise], h3⟩)⟩
          · rw [e']
            exact ⟨tr _ _ hd rfl, .inr (.inr ⟨h2, .inr rfl⟩)⟩
    rcases s.readBit_cases with ⟨c, e, -⟩ | ⟨v, ts, e, -⟩ | ⟨e, -⟩ | ⟨ts, e, -⟩ | ⟨ts, e, -⟩ | ⟨e, -⟩
    · exact bitTurn _ _ e rfl rfl rfl
    · exact bitTurn _ _ e rfl rfl rfl
    · simp only [decodeWalk, e]; exact ⟨rfl, .inr (.inl ⟨by simp [State.raise], rfl⟩)⟩
    · simp only [decodeWalk, e]; exact ⟨rfl, .inr (.inl ⟨by simp [State.raise], rfl⟩)⟩
    · simp only [decodeWalk, e]; exact ⟨rfl, .inr (.inl ⟨by simp [State.raise], rfl⟩)⟩
    · simp only [decodeWalk, e]; exact ⟨rfl, .inr (.inr ⟨rfl, .inl rfl⟩)⟩

end Sys2Proof.Machine
end

