-- ==== Sys2Proof/Laws/Frequency.lean ====
section
/-! SUPPORT. The counting loop of `COUNT`: what a run of `BYTE` tokens does to `FREQ` (41_frequency_counter R131, R134). -/

namespace Sys2Proof.Machine

/-- `FREQ` with one count of `b` more. -/
def bump (f : FreqTable) (b : Byte) : FreqTable := tableSet f (symbolOf b) (countIn f (symbolOf b) + 1)

/-- `FREQ` with one count more for each byte of `x`. -/
def tally (f : FreqTable) (x : List Byte) : FreqTable := x.foldl bump f

theorem symbolOf_lt (b : Byte) : symbolOf b < 256 := b.isLt

theorem symbolOf_inj {a b : Byte} : symbolOf a = symbolOf b ↔ a = b := by
  simp [symbolOf, BitVec.toNat_inj]

/-- An entry of the tally, exactly, while nothing passes `2^32 - 1`. -/
theorem tally_byte (x : List Byte) : ∀ (f : FreqTable) (b : Byte),
    (countIn f (symbolOf b)).toNat + x.count b < 2 ^ 32 →
      (countIn (tally f x) (symbolOf b)).toNat = (countIn f (symbolOf b)).toNat + x.count b := by
  induction x with
  | nil => intro f b _; simp [tally]
  | cons a x ih =>
    intro f b h
    have hb := symbolOf_lt a
    have e : countIn (bump f a) (symbolOf b)
        = if b = a then countIn f (symbolOf b) + 1 else countIn f (symbolOf b) := by
      unfold bump countIn
      rw [tableGet_tableSet _ _ _ _ _ (by omega)]
      by_cases hab : b = a
      · subst hab; simp
      · simp [hab, symbolOf_inj]
    change (countIn (tally (bump f a) x) (symbolOf b)).toNat = _
    by_cases hab : b = a
    · subst hab
      simp only [List.count_cons_self] at h ⊢
      have e' : (countIn (bump f b) (symbolOf b)).toNat = (countIn f (symbolOf b)).toNat + 1 := by
        rw [e, if_pos rfl, BitVec.toNat_add, show (1 : Count).toNat = 1 from rfl]
        omega
      rw [ih _ _ (by omega), e']
      omega
    · rw [if_neg hab] at e
      have : (a :: x).count b = x.count b := List.count_cons_of_ne (by simpa using Ne.symm hab)
      rw [this] at h ⊢
      rw [ih _ _ (by rw [e]; exact h), e]

/-- The tally leaves every entry that is no byte's, the sentinel's among them. -/
theorem tally_other (x : List Byte) : ∀ (f : FreqTable) (i : Nat), 256 ≤ i →
    countIn (tally f x) i = countIn f i := by
  induction x with
  | nil => intro f i _; rfl
  | cons a x ih =>
    intro f i h
    change countIn (tally (bump f a) x) i = _
    have := symbolOf_lt a
    rw [ih _ _ h]
    exact tableGet_tableSet_ne _ _ _ (by omega)

/-- Each turn of the loop overwrites what is left on IN, so what it was before does not matter. -/
theorem countLoop_inp (ts : List Token) (s : State) (i : List Token) :
    countLoop ts { s with inp := i } = countLoop ts s := by
  cases ts with
  | nil => rfl
  | cons t ts => cases t <;> rfl

/-- The loop over `BYTE` tokens that no count keeps from passing: they are tallied, and it goes on. -/
theorem countLoop_bytes (x : List Byte) : ∀ (s : State) (ts : List Token),
    (∀ b, (s.freqAt (symbolOf b)).toNat + x.count b < 2 ^ 32) →
      countLoop (x.map .byte ++ ts) s = countLoop ts { s with freq := tally s.freq x } := by
  induction x with
  | nil => intro s ts _; rfl
  | cons a x ih =>
    intro s ts h
    have ha := h a
    simp only [List.count_cons_self] at ha
    have hne : s.freqAt (symbolOf a) ≠ countMax := by
      intro e
      rw [e] at ha
      simp [countMax] at ha
      omega
    simp only [List.map_cons, List.cons_append, countLoop]
    rw [if_neg (by exact hne)]
    rw [ih]
    · exact countLoop_inp ts { s with freq := tally (bump s.freq a) x } (x.map Token.byte ++ ts)
    · intro b
      have hb := h b
      have e : ({ s with inp := x.map Token.byte ++ ts }.setFreq (symbolOf a) (s.freqAt (symbolOf a) + 1)).freqAt (symbolOf b)
          = if symbolOf b = symbolOf a then s.freqAt (symbolOf a) + 1 else s.freqAt (symbolOf b) :=
        State.freqAt_setFreq _ _ _ _ (by have := symbolOf_lt a; omega)
      change ((({ s with inp := x.map Token.byte ++ ts }.setFreq (symbolOf a) (s.freqAt (symbolOf a) + 1)).freqAt
        (symbolOf b)).toNat + _) < _
      rw [e]
      by_cases hab : b = a
      · subst hab
        rw [if_pos rfl, BitVec.toNat_add, show (1 : Count).toNat = 1 from rfl]
        omega
      · rw [if_neg (by rw [symbolOf_inj]; exact hab)]
        rw [List.count_cons_of_ne (by simpa using Ne.symm hab)] at hb
        exact hb

end Sys2Proof.Machine
end

