-- ==== Sys2Proof/Laws/PerInstr.lean ====
section
/-! SUPPORT. Statements made for every command, one lemma per constructor. The family `EncodingFitsRow`: the word of a
well-formed command fits the row of the opcode table that has its mnemonic (30_encoding R91, R97). -/

namespace Sys2Proof.Laws.EncodingFitsRow

/-- A row of the opcode table has the command's mnemonic, and the command's word fits it. -/
def Statement (i : Instr) : Prop :=
  i.WellFormed = true → ∃ r ∈ opcodeTable, r.mnemonic = i.mnemonic ∧ r.fits (encode i) = true

theorem nop : Statement .nop := fun _ => ⟨⟨"NOP", 0x0000000000000000#64, maskN⟩, by decide, rfl, by decide⟩

theorem clr : Statement .clr := fun _ => ⟨⟨"CLR", 0x0100000000000000#64, maskN⟩, by decide, rfl, by decide⟩

theorem rds : Statement .rds := fun _ => ⟨⟨"RDS", 0x0200000000000000#64, maskN⟩, by decide, rfl, by decide⟩

theorem count : Statement .count := fun _ => ⟨⟨"COUNT", 0x1000000000000000#64, maskN⟩, by decide, rfl, by decide⟩

theorem wrf (idx : Nat) (val : Count) : Statement (.wrf idx val) := fun _ => by
  refine ⟨⟨"WRF", packWord 0x11#8 0 0, maskXD⟩, by decide, rfl, ?_⟩
  rw [OpcodeRow.fits, beq_iff_eq, and_mask_eq_packWord]
  have ho : opField maskXD = BitVec.allOnes 8 := by decide
  have hi : idxField maskXD = 0 := by decide
  have hd : dataField maskXD = 0 := by decide
  simp [encode, opcodeOf, ho, hi, hd]

theorem rdf (idx : Nat) : Statement (.rdf idx) := fun _ => by
  refine ⟨⟨"RDF", packWord 0x12#8 0 0, maskX⟩, by decide, rfl, ?_⟩
  rw [OpcodeRow.fits, beq_iff_eq, and_mask_eq_packWord]
  have ho : opField maskX = BitVec.allOnes 8 := by decide
  have hi : idxField maskX = 0 := by decide
  simp [encode, opcodeOf, dataOf, ho, hi]

theorem build : Statement .build := fun _ => ⟨⟨"BUILD", 0x2000000000000000#64, maskN⟩, by decide, rfl, by decide⟩

theorem mkcode : Statement .mkcode := fun _ => ⟨⟨"MKCODE", 0x2100000000000000#64, maskN⟩, by decide, rfl, by decide⟩

theorem encode : Statement .encode := fun _ => ⟨⟨"ENCODE", 0x3000000000000000#64, maskN⟩, by decide, rfl, by decide⟩

theorem decode : Statement .decode := fun _ => ⟨⟨"DECODE", 0x3100000000000000#64, maskN⟩, by decide, rfl, by decide⟩

theorem wbit (b : Bool) : Statement (.wbit b) := fun _ =>
  ⟨⟨"WBIT", 0x4000000000000000#64, maskB⟩, by decide, rfl, by cases b <;> decide⟩

theorem wclose : Statement .wclose := fun _ => ⟨⟨"WCLOSE", 0x4100000000000000#64, maskN⟩, by decide, rfl, by decide⟩

theorem rbit : Statement .rbit := fun _ => ⟨⟨"RBIT", 0x4200000000000000#64, maskN⟩, by decide, rfl, by decide⟩

end Sys2Proof.Laws.EncodingFitsRow
end

