-- ==== Sys2Proof/Laws/Steps.lean ====
section
/-! SUPPORT. Everything each command's body, its going on after a wait, and a step can do, said once each: what it may change,
how it ends, and where it waits. -/

namespace Sys2Proof.Machine

/-! ### Stage 2 and the response -/

/-- A command runs its later stages or is discarded (R272). -/
theorem State.unlessError_cases (s : State) (body : State → State) :
    (s.err = .none ∧ s.unlessError body = body s) ∨ (s.err ≠ .none ∧ s.unlessError body = s) := by
  by_cases h : s.err = .none
  · exact .inl ⟨h, s.unlessError_of_ok body h⟩
  · exact .inr ⟨h, s.unlessError_of_error body h⟩

/-- A responding command runs its later stages or responds the zero word (R96, R272). -/
theorem State.unlessErrorResponding_cases (s : State) (body : State → State) :
    (s.err = .none ∧ s.unlessErrorResponding body = body s)
      ∨ (s.err ≠ .none ∧ s.unlessErrorResponding body = s.respond zeroResponse none) := by
  by_cases h : s.err = .none
  · exact .inl ⟨h, s.unlessErrorResponding_of_ok body h⟩
  · exact .inr ⟨h, s.unlessErrorResponding_of_error body h⟩

/-- What a response may change. -/
def State.withResponse (s t : State) : State :=
  { s with rsp := t.rsp, rspRoom := t.rspRoom, err := t.err, errInfo := t.errInfo, seq := t.seq }

/-- A response changes nothing else, taken or waiting. -/
theorem State.respond_frame (s : State) (w : Word64) (after : Option (ErrCode × Info)) :
    s.respond w after = s.withResponse (s.respond w after) := by
  rcases s.respond_cases w after with ⟨-, e⟩ | ⟨-, e⟩
  · rw [e]
    cases after with
    | none => rfl
    | some p => rfl
  · rw [e]; rfl

/-- `RDF` responds, then raises nothing or `E_INDEX` (R137). -/
theorem State.readFreq_cases (s : State) (i : Nat) :
    ∃ w after, s.readFreq i = s.respond w after ∧ (after = none ∨ after = some (.index, indexInfo i)) := by
  unfold State.readFreq
  split
  · exact ⟨_, _, rfl, .inl rfl⟩
  · exact ⟨_, _, rfl, .inr rfl⟩

/-! ### COUNT -/

/-- What the loop of `COUNT` may change. -/
def State.withCount (s t : State) : State :=
  { s with freq := t.freq, inp := t.inp, err := t.err, errInfo := t.errInfo, seq := t.seq }

/-- Everything the loop of `COUNT` can do (R131). A wait leaves the sentinel's count as it was. -/
theorem countLoop_cases (ts : List Token) : ∀ s : State,
    countLoop ts s = s.withCount (countLoop ts s)
      ∧ (((countLoop ts s).err = s.err ∧ (countLoop ts s).seq = s.seq)
        ∨ ((countLoop ts s).err ∈ [ErrCode.ioSrc, .overflow] ∧ (countLoop ts s).seq = s.seq)
        ∨ ((countLoop ts s).err = s.err ∧ (countLoop ts s).seq = .countRead
          ∧ (countLoop ts s).freqAt 256 = s.freqAt 256)) := by
  induction ts with
  | nil => intro s; exact ⟨rfl, .inr (.inr ⟨rfl, rfl, rfl⟩)⟩
  | cons t ts ih =>
    intro s
    cases t with
    | endTok => exact ⟨rfl, .inl ⟨rfl, rfl⟩⟩
    | failTok => exact ⟨rfl, .inr (.inl ⟨by simp [countLoop, State.raise], rfl⟩)⟩
    | byte b =>
      simp only [countLoop]
      split
      · exact ⟨rfl, .inr (.inl ⟨by simp [State.raise], rfl⟩)⟩
      · have hb := symbolOf_lt b
        obtain ⟨h1, h2⟩ := ih (State.setFreq { s with inp := ts } (symbolOf b)
          (State.freqAt { s with inp := ts } (symbolOf b) + 1))
        refine ⟨by rw [h1]; rfl, ?_⟩
        rcases h2 with h2 | h2 | ⟨h2, h3, h4⟩
        · exact .inl h2
        · exact .inr (.inl h2)
        · refine .inr (.inr ⟨h2, h3, ?_⟩)
          rw [h4]
          exact (State.freqAt_setFreq _ (symbolOf b) 256 _ (by omega)).trans (if_neg (by omega))

/-! ### The BitWriter's and the BitReader's commands -/

/-- What `WBIT` and `WCLOSE` may change. -/
def State.withWriterEnd (s t : State) : State :=
  { s.withWriter t with err := t.err, errInfo := t.errInfo, seq := t.seq }

/-- Everything `WBIT` can do (R183). -/
theorem State.wbitRun_cases (s : State) (b : Bool) :
    s.wbitRun b = s.withWriterEnd (s.wbitRun b) ∧ EndsAs s (s.wbitRun b) True [.ioSnk] (· = .wbit b) := by
  unfold State.wbitRun
  rcases s.writeBit_cases b with ⟨-, e⟩ | ⟨u, e, hu, -⟩ | ⟨u, e, hu, -⟩ | ⟨e, -⟩
  · rw [e]; exact ⟨rfl, .inl ⟨rfl, rfl, trivial⟩⟩
  · rw [e]; refine ⟨by rw [hu]; rfl, .inl ⟨?_, ?_, trivial⟩⟩ <;> rw [hu] <;> rfl
  · rw [e]; refine ⟨by rw [hu]; rfl, .inr (.inl ⟨by simp [State.raise], ?_⟩)⟩; rw [hu]; rfl
  · rw [e]; exact ⟨rfl, .inr (.inr ⟨rfl, rfl⟩)⟩

/-- Everything `WCLOSE` can do (R184). -/
theorem State.wcloseRun_cases (s : State) :
    s.wcloseRun = s.withWriterEnd s.wcloseRun ∧ EndsAs s s.wcloseRun True [.ioSnk] (· = .wclose) := by
  unfold State.wcloseRun
  rcases s.closeWriter_cases with ⟨u, e, hu, -⟩ | ⟨u, e, hu, -⟩ | ⟨e, -⟩
  · rw [e]; refine ⟨by rw [hu]; rfl, .inl ⟨?_, ?_, trivial⟩⟩ <;> rw [hu] <;> rfl
  · rw [e]; refine ⟨by rw [hu]; rfl, .inr (.inl ⟨by simp [State.raise], ?_⟩)⟩; rw [hu]; rfl
  · rw [e]; exact ⟨rfl, .inr (.inr ⟨rfl, rfl⟩)⟩

/-- Everything `RBIT` can do: a response after one `ReadBit`, or a wait for a token (R186). -/
theorem State.rbitRun_cases (s : State) :
    (∃ r w after, s.rbitRun = (s.withReader r).respond w after ∧ (after = none ∨ after = some (.ioSrc, 0)))
      ∨ s.rbitRun = s.suspend .rbitRead := by
  unfold State.rbitRun
  rcases s.readBit_cases with ⟨c, e, -⟩ | ⟨v, ts, e, -⟩ | ⟨e, -⟩ | ⟨ts, e, -⟩ | ⟨ts, e, -⟩ | ⟨e, -⟩ <;> simp only [e]
  · exact .inl ⟨{ s with brBuf := s.brBuf <<< 1, brN := s.brN - 1 }, _, _, rfl, .inl rfl⟩
  · exact .inl ⟨{ s with brBuf := v <<< 1, brN := 7, inp := ts }, _, _, rfl, .inl rfl⟩
  · exact .inl ⟨s, _, _, rfl, .inl rfl⟩
  · exact .inl ⟨{ s with brEof := true, inp := ts }, _, _, rfl, .inl rfl⟩
  · exact .inl ⟨{ s with inp := ts }, _, _, rfl, .inr rfl⟩
  · exact .inr trivial

/-! ### ENCODE -/

/-- Everything `ENCODE` can do: `E_SEQ` when a precondition fails, else what its loop does (R201, R262). -/
theorem State.encode_cases (s : State) :
    (s.encode = s.raise .seq (opInfo 0x30#8) ∧ ¬(s.codesValid = true ∧ s.bwN = 0))
      ∨ (s.encode = encodeLoop s.inp s ∧ s.codesValid = true ∧ s.bwN = 0) := by
  unfold State.encode
  by_cases hc : s.codesValid = false
  · rw [if_pos hc]; exact .inl ⟨rfl, fun h => by simp [hc] at h⟩
  · rw [if_neg hc]
    by_cases hn : s.bwN ≠ 0
    · rw [if_pos hn]; exact .inl ⟨rfl, fun h => hn h.2⟩
    · rw [if_neg hn]; exact .inr ⟨rfl, by simpa using hc, by simpa using hn⟩

/-- Everything `ENCODE` can do when it goes on inside a code. -/
theorem State.encodeResume_cases (s : State) (rest : List Bool) (eos : Bool) :
    s.encodeResume rest eos = s.withEncode (s.encodeResume rest eos)
      ∧ EndsAs s (s.encodeResume rest eos) True [.ioSrc, .noCode, .ioSnk] EncodeWaits := by
  have weak : ∀ {u v : State} {p : Prop}, EndsAs u v p [.ioSrc, .noCode, .ioSnk] EncodeWaits →
      EndsAs u v True [.ioSrc, .noCode, .ioSnk] EncodeWaits :=
    fun h => h.imp (fun h => ⟨h.1, h.2.1, trivial⟩) id
  unfold State.encodeResume
  split
  · exact ⟨(s.encodeEos_cases rest).1, weak (s.encodeEos_cases rest).2⟩
  · rcases writeBits_cases rest s with ⟨t, e, h⟩ | ⟨t, e, h⟩ | ⟨rest', t, e, h, hr, -⟩
    · rw [e]
      obtain ⟨h1, h2⟩ := encodeLoop_cases t.inp t
      have he : t.err = s.err ∧ t.seq = s.seq := by rw [h]; exact ⟨rfl, rfl⟩
      refine ⟨?_, ?_⟩
      · simp only [State.encodeRun]
        rw [h1, h]; rfl
      · replace h2 := weak h2
        simp only
        unfold EndsAs at h2 ⊢
        rw [he.1, he.2] at h2
        exact h2
    · rw [e]
      refine ⟨by rw [h]; rfl, .inr (.inl ⟨by simp [State.raise], ?_⟩)⟩
      rw [h]; rfl
    · rw [e]
      refine ⟨by rw [h]; rfl, .inr (.inr ⟨?_, .inr (.inr ⟨rest', false, hr, rfl⟩)⟩)⟩
      rw [h]; rfl

/-! ### DECODE -/

/-- The places where `DECODE` waits. -/
def DecodeWaits (a : Activity) : Prop := a = .decodeRead ∨ a = .decodeEmit

/-- Everything `DECODE` can do from where it reads its next bit: it ends on the sentinel's Leaf, or under a Leaf root where
it stood (R216, R218). -/
theorem State.decodeRun_cases (s : State) :
    s.decodeRun = s.withDecode s.decodeRun
      ∧ EndsAs s s.decodeRun
          (s.decodeRun.cur = 256#10 ∨ ((s.nodeAt s.root).kind = .leaf ∧ s.decodeRun.cur = s.cur))
          [.ioSrc, .trunc, .badCode, .ioSnk] DecodeWaits := by
  unfold State.decodeRun
  split
  · next hk =>
    unfold State.decodeLeafRoot
    rcases s.readBit_cases with ⟨c, e, -⟩ | ⟨v, ts, e, -⟩ | ⟨e, -⟩ | ⟨ts, e, -⟩ | ⟨ts, e, -⟩ | ⟨e, -⟩
    · rw [e]
      cases c
      · exact ⟨rfl, .inl ⟨rfl, rfl, .inr ⟨hk, rfl⟩⟩⟩
      · exact ⟨rfl, .inr (.inl ⟨by simp [State.raise], rfl⟩)⟩
    · rw [e]
      cases v.msb
      · exact ⟨rfl, .inl ⟨rfl, rfl, .inr ⟨hk, rfl⟩⟩⟩
      · exact ⟨rfl, .inr (.inl ⟨by simp [State.raise], rfl⟩)⟩
    · rw [e]; exact ⟨rfl, .inr (.inl ⟨by simp [State.raise], rfl⟩)⟩
    · rw [e]; exact ⟨rfl, .inr (.inl ⟨by simp [State.raise], rfl⟩)⟩
    · rw [e]; exact ⟨rfl, .inr (.inl ⟨by simp [State.raise], rfl⟩)⟩
    · rw [e]; exact ⟨rfl, .inr (.inr ⟨rfl, .inl rfl⟩)⟩
  · obtain ⟨h1, h2⟩ := decodeWalk_cases (s.bitBudget + 1) s
    refine ⟨h1, ?_⟩
    rcases h2 with h2 | h2 | h2
    · exact .inl ⟨h2.1, h2.2.1, .inl h2.2.2⟩
    · refine .inr (.inl ⟨?_, h2.2⟩)
      have := h2.1
      simp only [List.mem_cons, List.not_mem_nil, or_false] at this ⊢
      tauto
    · exact .inr (.inr h2)

/-- Everything `DECODE` can do when it goes on at the byte it offers. -/
theorem State.decodeEmit_cases (s : State) :
    s.decodeEmit = s.withDecode s.decodeEmit
      ∧ EndsAs s s.decodeEmit True [.ioSrc, .trunc, .badCode, .ioSnk] DecodeWaits := by
  unfold State.decodeEmit
  rcases s.sinkWrite_cases (emittedByte s.cur) with ⟨as, e, -⟩ | ⟨as, e, -⟩ | ⟨e, -⟩
  · rw [e]
    obtain ⟨h1, h2⟩ :=
      State.decodeRun_cases { s with sinkNext := as, out := s.out ++ [emittedByte s.cur], cur := s.root }
    exact ⟨by simp only; rw [h1]; rfl, h2.imp (fun h => ⟨h.1, h.2.1, trivial⟩) id⟩
  · rw [e]; exact ⟨rfl, .inr (.inl ⟨by simp [State.raise], rfl⟩)⟩
  · rw [e]; exact ⟨rfl, .inr (.inr ⟨rfl, .inr rfl⟩)⟩

/-! ### A step -/

/-- Everything a step that answers a next state can be: an idle sequencer took a word, which decodes to a command or to
none, or a command that waited went on (R81, R92, R95). -/
theorem step_cases {s t : State} (h : step s = .next t) :
    (s.seq = .idle ∧ ∃ w ws, s.cmd = w :: ws
        ∧ ((∃ i, decode w = .instr i ∧ exec i { s with cmd := ws } = .next t)
          ∨ ∃ x, decode w = .reject x ∧ t = State.illegal { s with cmd := ws } w))
      ∨ (s.seq ≠ .idle ∧ s.portReady (waitingPort s.seq) = true ∧ t = (s.suspend .idle).resume s.seq) := by
  unfold step at h
  split at h
  · next hp =>
    unfold advance at h
    by_cases hs : s.seq = .idle
    · left
      rw [hs] at h
      refine ⟨hs, ?_⟩
      cases hc : s.cmd with
      | nil => simp [State.takeCommand, hc] at h
      | cons w ws =>
        refine ⟨w, ws, rfl, ?_⟩
        simp only [State.takeCommand, hc, runWord] at h
        split at h
        · next i hd => exact .inl ⟨i, hd, h⟩
        · next x hd => cases h; exact .inr ⟨x, hd, rfl⟩
    · right
      refine ⟨hs, hp, ?_⟩
      split at h
      · next hi => exact absurd hi hs
      · cases h; rfl
  · cases h

end Sys2Proof.Machine
end

