-- ==== Sys2Proof/Machine/Pseudo.lean ====
section
/-! DEFINITION. The written forms of the spec that stand outside the machine: the assembler syntax (30_encoding R98), the
pseudo-commands (R99) with the two sequences of the HOST (47_pipeline R235, R236), and the reference layout of an encoded
file (R239, R240). HUFFCORE takes words, not text, and neither produces nor parses a header (log entry 16). -/

namespace Sys2Proof.Machine

/-- One command as the spec writes it (R98), operands in decimal. -/
def asmOf : Instr → String
  | .nop => "NOP"
  | .clr => "CLR"
  | .rds => "RDS"
  | .count => "COUNT"
  | .wrf idx val => "WRF " ++ toString idx ++ ", " ++ toString val.toNat
  | .rdf idx => "RDF " ++ toString idx
  | .build => "BUILD"
  | .mkcode => "MKCODE"
  | .encode => "ENCODE"
  | .decode => "DECODE"
  | .wbit b => "WBIT " ++ (if b then "1" else "0")
  | .wclose => "WCLOSE"
  | .rbit => "RBIT"

/-- `LDTAB t`: 257 `WRF`, ascending index (R99). -/
def ldtab (t : FreqTable) : List Instr := t.toList.mapIdx fun i c => .wrf i c

/-- `RDTAB`: 257 `RDF`, ascending index (R99). -/
def rdtab : List Instr := (List.range 257).map .rdf

/-- `WBITS "b0 b1 ... bk"` (R99). -/
def wbits (bits : List Bool) : List Instr := bits.map .wbit

/-- `ENCFILE` (R99, R235). -/
def encfile : List Instr := [.clr, .count] ++ rdtab ++ [.build, .mkcode, .encode, .rds]

/-- `DECFILE t` (R99, R236). -/
def decfile (t : FreqTable) : List Instr := [.clr] ++ ldtab t ++ [.build, .decode, .rds]

/-- The command words the HOST offers for a list of commands. -/
def wordsOf (is : List Instr) : List Word64 := is.map encode

/-- The four bytes of a count, most significant first (R240). -/
def countBytes (c : Count) : List Byte :=
  [c.extractLsb' 24 8, c.extractLsb' 16 8, c.extractLsb' 8 8, c.extractLsb' 0 8]

/-- The reference header `HDR_BE32`, the default of `HDR_FMT` (R240). -/
def hdrBe32 (t : FreqTable) : List Byte := t.toList.flatMap countBytes

/-- An encoded file: the header, then the payload, and nothing between or after (R239). -/
def encodedFile (t : FreqTable) (payload : List Byte) : List Byte := hdrBe32 t ++ payload

end Sys2Proof.Machine
end

