-- ==== Sys2Proof/Tests/Slice0.lean ====
section
/-! SUPPORT. Tests of the model against the words and the vectors of the spec (30_encoding section 7, 95_test_vectors V1 to
V76), and for every statement with hypotheses a witness that meets them. No expected value comes from the model. -/

namespace Sys2Proof.Tests

-- One theorem after another: the kernel's evaluations below are many, and each waiting thread reserves memory.
set_option Elab.async false

open Sys2Proof.Machine

/-! ### Helpers -/

/-- A frequency table from its nonzero entries. -/
def freqs (l : List (Nat × Count)) : FreqTable :=
  l.foldl (fun f p => tableSet f p.1 p.2) (Vector.replicate 257 0#32)

/-- The reset state with a frequency table. -/
def withFreq (l : List (Nat × Count)) : State := { State.reset with freq := freqs l }

/-- An arena from its valid entries. -/
def nodes (l : List (Nat × Node)) : NodeTable :=
  l.foldl (fun f p => tableSet f p.1 p.2) (Vector.replicate 513 Node.empty)

/-- A code table from its present entries. -/
def codes (l : List (Nat × List Bool)) : CodeTable :=
  l.foldl (fun f p => tableSet f p.1 (some p.2)) (Vector.replicate 257 none)

/-- T1' of 95_test_vectors: V1's table, with the tree V1 gives for it. -/
def t1' : State :=
  { withFreq [(65, 3), (66, 1), (256, 1)] with
    node := nodes [(65, ⟨true, .leaf, 3, 0, 0⟩), (66, ⟨true, .leaf, 1, 0, 0⟩), (256, ⟨true, .leaf, 1, 0, 0⟩),
      (257, ⟨true, .internal, 2, 66, 256⟩), (258, ⟨true, .internal, 5, 257, 65⟩)]
    root := 258#10
    nn := 259#10
    treeValid := true }

/-- T1 of 95_test_vectors: T1' with the codes V1 gives. -/
def t1 : State := { t1' with code := codes [(65, [true]), (66, [false, false]), (256, [false, true])], codesValid := true }

/-- V36's tree: the sentinel alone, its Leaf the root. -/
def t36 : State :=
  { withFreq [(256, 1)] with
    node := nodes [(256, ⟨true, .leaf, 1, 0, 0⟩)]
    root := 256#10
    nn := 257#10
    treeValid := true }

/-- V36's tree with V41's code. -/
def t41 : State := { t36 with code := codes [(256, [false])], codesValid := true }

/-- The state after one instruction. -/
def after (i : Instr) (s : State) : State :=
  match exec i s with
  | .next t => t
  | .fault _ | .refused _ => s

/-- One step of the machine, an instruction's word being offered on CMD. -/
def stepOn (i : Instr) (s : State) : Host.Outcome State Fault Refusal := step { s with cmd := [encode i] }

/-- The status word after one step on an offered word, with what the ports delivered. -/
def seen (o : Host.Outcome State Fault Refusal) : Option (Word64 × List Byte × List Word64) :=
  match o with
  | .next t => some (t.statusWord, t.out, t.rsp)
  | .fault _ | .refused _ => none

/-- The wait in which the step ended, if it did. -/
def stoppedAt (o : Host.Outcome State Fault Refusal) : Option Fault :=
  match o with
  | .fault f => some f
  | .next _ | .refused _ => none

/-- `BYTE` tokens. -/
def bytes (l : List Byte) : List Token := l.map .byte

/-! ### WellFormed smoke tests: an ill-formed term for each check -/

theorem test_wf_wrf_index_past_field : (Instr.wrf 512 1).WellFormed = false := by decide
theorem test_wf_rdf_index_past_field : (Instr.rdf 512).WellFormed = false := by decide
theorem test_wf_index_511_fits : (Instr.wrf 511 1).WellFormed = true ∧ (Instr.rdf 511).WellFormed = true := by decide

/-! ### Types against the tables of 10_state -/

theorem test_freq_entries : FreqTable = Vector (BitVec Config.cw) Config.nsym := rfl
theorem test_node_entries : NodeTable = Vector Node Config.nnode := rfl
theorem test_code_entries : CodeTable = Vector Code Config.nsym := rfl

/-! ### Decoding: every constructor, its word written out from the fields of R90 and the opcodes of R94 -/

theorem test_decode_nop : decode (0b00000000#8 ++ 0#15 ++ 0#9 ++ 0#32) = .instr .nop := by decide
theorem test_decode_clr : decode (0b00000001#8 ++ 0#15 ++ 0#9 ++ 0#32) = .instr .clr := by decide
theorem test_decode_rds : decode (0b00000010#8 ++ 0#15 ++ 0#9 ++ 0#32) = .instr .rds := by decide
theorem test_decode_count : decode (0b00010000#8 ++ 0#15 ++ 0#9 ++ 0#32) = .instr .count := by decide
/-- Section 7: `WRF 65, 3`. -/
theorem test_decode_wrf : decode 0x1100004100000003#64 = .instr (.wrf 65 3) := by decide
/-- The bits of `idx` 40:32 and of `data` 31:0 one by one: 257 and `0x80000001`. -/
theorem test_decode_wrf_bits :
    decode (0b00010001#8 ++ 0b000000000000000#15 ++ 0b100000001#9 ++ 0b10000000000000000000000000000001#32)
      = .instr (.wrf 257 0x80000001#32) := by decide
/-- Section 7: `RDF 256`. -/
theorem test_decode_rdf : decode 0x1200010000000000#64 = .instr (.rdf 256) := by decide
theorem test_decode_build : decode 0x2000000000000000#64 = .instr .build := by decide
theorem test_decode_mkcode : decode 0x2100000000000000#64 = .instr .mkcode := by decide
theorem test_decode_encode : decode 0x3000000000000000#64 = .instr .encode := by decide
theorem test_decode_decode : decode 0x3100000000000000#64 = .instr .decode := by decide
/-- Section 7: `WBIT 1`, and `WBIT 0`. -/
theorem test_decode_wbit :
    decode 0x4000000000000001#64 = .instr (.wbit true) ∧ decode 0x4000000000000000#64 = .instr (.wbit false) := by decide
theorem test_decode_wclose : decode 0x4100000000000000#64 = .instr .wclose := by decide
theorem test_decode_rbit : decode 0x4200000000000000#64 = .instr .rbit := by decide

/-- V75: the six illegal words. -/
theorem test_decode_rejects :
    [0x0300000000000000#64, 0xFF00000000000000#64, 0x2000000000000001#64, 0x4000000000000002#64, 0x1100020000000000#64,
        0x1200004100000001#64].map decode
      = [.reject .unknownOp, .reject .unknownOp, .reject .mustBeZero, .reject .mustBeZero, .reject .mustBeZero,
        .reject .mustBeZero] := by decide

/-- Section 7: `WRF 256, 1`, `RDF 65`, `WBIT 1`, `CLR`. -/
theorem test_encode_words :
    [Instr.wrf 256 1, .rdf 65, .wbit true, .clr].map encode
      = [0x1100010000000001#64, 0x1200004100000000#64, 0x4000000000000001#64, 0x0100000000000000#64] := by decide

theorem test_decode_table_word : decodeTableWord 64 0x1100004100000003 = some (.wrf 65 3) := by decide

theorem test_fetch_word_runs_first :
    seen (step (State.reset.withFetchWord 64 0x0200000000000000)) = some (0x8000000000000000#64, [], [0x8000000000000000#64]) := by
  decide +kernel

/-! ### One step per command -/

/-- V20. -/
theorem test_nop_v20 : stepOn .nop State.reset = .next State.reset := rfl

/-- V21: the three bits are lost. -/
theorem test_clr_v21 :
    seen (stepOn .clr { State.reset with bwAcc := 5, bwN := 3 }) = some (0x8000000000000000#64, [], []) := by decide +kernel

/-- V21. -/
theorem test_rds_v21 :
    seen (stepOn .rds { State.reset with bwAcc := 5, bwN := 3 })
      = some (0x8000000500300000#64, [], [0x8000000500300000#64]) := by decide +kernel

/-- V25. -/
theorem test_count_v25 :
    [65, 66, 256, 0].map (after .count { State.reset with inp := bytes [65, 66, 65, 65] ++ [.endTok] }).freqAt
      = [3#32, 1#32, 1#32, 0#32] := by decide +kernel

/-- V28: the state in the middle of a `COUNT`. -/
theorem test_count_overflow_v28 :
    seen (step { withFreq [(7, 0xFFFFFFFF)] with seq := .countRead, inp := bytes [7] })
      = some (0x8000000000000707#64, [], []) := by decide +kernel

/-- V29: the flags drop even when the entry already holds the value. -/
theorem test_wrf_v29 : ((after (.wrf 65 3) t1).freqAt 65, (after (.wrf 65 3) t1).treeValid, (after (.wrf 65 3) t1).codesValid)
    = (3#32, false, false) := by decide +kernel

/-- V30. -/
theorem test_wrf_index_v30 : seen (stepOn (.wrf 257 5) State.reset) = some (0x800000000001010A#64, [], []) := by decide +kernel

/-- V25: `RDF 65` after the count. -/
theorem test_rdf_v25 :
    (after (.rdf 65) (withFreq [(65, 3), (66, 1), (256, 1)])).rsp = [0x8000000000000003#64] := by decide +kernel

/-- V30. -/
theorem test_rdf_index_v30 : seen (stepOn (.rdf 511) State.reset) = some (0x800000000001FF0A#64, [], [0#64]) := by decide +kernel

/-- A tree is its four pieces, the arena as a list of its entries. -/
theorem tree_eq (t u : Tree) (h : (t.node.toList, t.root, t.nn, t.pq) = (u.node.toList, u.root, u.nn, u.pq)) : t = u := by
  obtain ⟨_, _, _, _⟩ := t
  obtain ⟨_, _, _, _⟩ := u
  simpa [Vector.toList_inj] using h

/-- V35. -/
theorem test_build_v35 : seen (stepOn .build State.reset) = some (0x8000000000000003#64, [], []) := by decide +kernel

/-- V1: `CODE[65] = "1"`, `CODE[66] = "00"`, `CODE[256] = "01"`, the others absent. -/
theorem test_mkcode_v1 : codeTable t1'.node t1'.root = codes [(65, [true]), (66, [false, false]), (256, [false, true])] :=
  Vector.toList_inj.1 (by decide +kernel)

/-- V40. -/
theorem test_mkcode_v40 : seen (stepOn .mkcode State.reset) = some (0x8000000000002108#64, [], []) := by decide +kernel

/-- V55. -/
theorem test_encode_v55 :
    seen (stepOn .encode { t1 with inp := bytes [65, 66, 65, 65] ++ [.endTok] })
      = some (0x8000000000060000#64, [0x9A#8], []) := by decide +kernel

/-- V57: the byte 67 has no code; the bit of the first 65 stays pending. V59: the `FAIL` token; three bits stay pending. V60:
the sink refuses the byte of the eighth 65, and the one that `Close` offers. -/
theorem test_encode_stops_v57_v59_v60 :
    seen (stepOn .encode { t1 with inp := bytes [65, 67, 65] ++ [.endTok] }) = some (0x8000000100164305#64, [], [])
      ∧ seen (stepOn .encode { t1 with inp := bytes [65, 66] ++ [.failTok] }) = some (0x8000000400360001#64, [], [])
      ∧ seen (stepOn .encode { t1 with inp := bytes (List.replicate 9 65) ++ [.endTok], sinkNext := [.fail] })
        = some (0x8000007F00760002#64, [], [])
      ∧ seen (stepOn .encode { t1 with inp := bytes [65, 66, 65, 65] ++ [.endTok], sinkNext := [.fail] })
        = some (0x8000004D00760002#64, [], []) := by decide +kernel

/-- V65, and V67: the padding bit 1 is not examined and stays in `BR`. -/
theorem test_decode_v65_v67 :
    seen (stepOn .decode { t1' with inp := bytes [0x9A] ++ [.endTok] })
        = some (0x8000000000820000#64, [65, 66, 65, 65], [])
      ∧ seen (stepOn .decode { t1' with inp := bytes [0x9B] ++ [.endTok] })
        = some (0x8000800000820000#64, [65, 66, 65, 65], []) := by decide +kernel

/-- V70: the sink refuses the second byte. -/
theorem test_decode_sink_v70 :
    seen (stepOn .decode { t1' with inp := bytes [0x9A] ++ [.endTok], sinkNext := [.ok], sinkRest := some .fail })
      = some (0x8000D00002820002#64, [65], []) := by decide +kernel

/-- V45: the eighth bit. -/
theorem test_wbit_v45 :
    seen (stepOn (.wbit false) { State.reset with bwAcc := 0x4D, bwN := 7 })
      = some (0x8000000000000000#64, [0x9A], []) := by decide +kernel

/-- V48: the sink refuses the byte; the seven bits stay. -/
theorem test_wbit_v48 :
    seen (stepOn (.wbit true) { State.reset with bwAcc := 0x7F, bwN := 7, sinkNext := [.fail] })
      = some (0x8000007F00700002#64, [], []) := by decide +kernel

/-- V46. -/
theorem test_wclose_v46 :
    seen (stepOn .wclose { State.reset with bwAcc := 5, bwN := 3 }) = some (0x8000000000000000#64, [0xA0], []) := by
  decide +kernel

/-- V47. -/
theorem test_wclose_v47 : stepOn .wclose State.reset = .next State.reset := rfl

/-- V49: after the first of its `RBIT`s `BR.buf = 0x34`, `BR.n = 7`. -/
theorem test_rbit_v49 :
    seen (stepOn .rbit { State.reset with inp := bytes [0x9A] ++ [.endTok] })
      = some (0x8000340003800000#64, [], [0x8000000000000001#64]) := by decide +kernel

/-- V51. -/
theorem test_rbit_v51 :
    seen (stepOn .rbit { State.reset with inp := [.failTok] }) = some (0x8000000000000001#64, [], [0#64]) := by decide +kernel

/-! ### The sequencer -/

/-- V75: `WBIT` with `data[1] = 1`. -/
theorem test_illegal_v75 :
    seen (step { State.reset with cmd := [0x4000000000000002#64] }) = some (0x8000000000004009#64, [], []) := by decide +kernel

/-- V76: after `E_FORMAT`, `RBIT` responds zero and leaves the token; an illegal word is discarded. -/
theorem test_error_state_v76 :
    seen (stepOn .rbit { State.reset with err := .format, inp := bytes [0x9A] }) = some (0x8000000000000003#64, [], [0#64])
      ∧ seen (step { State.reset with err := .format, cmd := [0xFF00000000000000#64] })
        = some (0x8000000000000003#64, [], []) := by decide +kernel

/-- V50: the ninth `RBIT` has no token and is stuck; it has taken its word, and no step follows. -/
theorem test_wait_v50 :
    (after .rbit State.reset).seq = .rbitRead ∧ stoppedAt (step (after .rbit State.reset)) = some .waitIn := by decide +kernel

/-- R81: a `WBIT` whose byte gets no answer waits on OUT, and goes on when the answer comes. -/
theorem test_wait_out :
    stoppedAt (step { State.reset with bwAcc := 0x4D, bwN := 7, seq := .wbit false, sinkRest := none }) = some .waitOut
      ∧ seen (step { State.reset with bwAcc := 0x4D, bwN := 7, seq := .wbit false, sinkRest := none, sinkNext := [.ok] })
        = some (0x8000000000000000#64, [0x9A], []) := by decide +kernel

/-! ### The written forms and the pins -/

/-- R71: 3 "treated as `FAIL`". -/
theorem test_pins_r71 :
    [0#2, 1#2, 2#2, 3#2].map (tokenOfPins · 0x41) = [.byte 0x41, .endTok, .failTok, .failTok]
      ∧ [false, true].map answerOfPin = [.ok, .fail] := by decide

/-- V1: the 1028 bytes of the header: offset 263 holds 3, 267 and 1027 hold 1. -/
theorem test_header_v1 :
    (let h := hdrBe32 (freqs [(65, 3), (66, 1), (256, 1)])
     (h.length, h.getD 263 0, h.getD 267 0, h.getD 1027 0, h.countP (· != 0))) = (1028, 3#8, 1#8, 1#8, 3) := by decide +kernel

/-- R98: the operand forms. -/
theorem test_asm_r98 : [Instr.wrf 65 3, .rdf 65, .wbit true, .nop].map asmOf = ["WRF 65, 3", "RDF 65", "WBIT 1", "NOP"] := by
  decide +kernel

/-- R99: the lengths of the expansions, and the ends of `ENCFILE`. -/
theorem test_pseudo_r99 :
    (rdtab.length, (ldtab (freqs [])).length, encfile.take 3, encfile.drop 259)
      = (257, 257, [.clr, .count, .rdf 0], [.build, .mkcode, .encode, .rds]) := by decide +kernel

/-! ### Witnesses: for each statement with hypotheses, a state and operands that meet them

The name of a witness is the statement's. Where a statement has clauses, each clause has one at a boundary of its range. -/

theorem witness_encodeThenDecode :
    (Instr.wrf 511 0xFFFFFFFF).WellFormed = true ∧ (Instr.rdf 0).WellFormed = true ∧ (Instr.wbit true).WellFormed = true := by
  decide

theorem witness_decodeAcceptsOnlyEncodings : decode 0x110001FFFFFFFFFF#64 = .instr (.wrf 511 0xFFFFFFFF#32) := by decide

theorem witness_decodeAgreesWithOpcodeTable :
    (⟨"WBIT", 0x4000000000000000#64, maskB⟩ : OpcodeRow) ∈ opcodeTable
      ∧ 0x4000000000000001#64 &&& maskB = 0x4000000000000000#64
      ∧ 0x4000000000000002#64 &&& maskB ≠ 0x4000000000000000#64 := by decide

theorem witness_stepRunsTheDecodedCommand :
    { State.reset with cmd := [0x4200000000000000#64] }.seq = .idle
      ∧ { State.reset with cmd := [0x4200000000000000#64] }.cmd = 0x4200000000000000#64 :: []
      ∧ decode 0x4200000000000000#64 = .instr .rbit := by decide

/-- Both clauses: outside the error state, and in it. -/
theorem witness_illegalWordRaisesIllcmd :
    (∀ r ∈ opcodeTable, 0x4000000000000002#64 &&& r.mask ≠ r.pattern)
      ∧ { State.reset with cmd := [0x4000000000000002#64] }.err = .none
      ∧ { State.reset with cmd := [0x4000000000000002#64], err := .index }.err ≠ .none
      ∧ { State.reset with cmd := [0x4000000000000002#64], err := .index }.seq = .idle := by decide

/-- Each clause: a command that does not respond, whether or not RSP is taken; one that does, RSP taken and not. -/
theorem witness_errorStateDiscardsCommands :
    { State.reset with err := .format }.err ≠ .none ∧ runsInError .rbit = false ∧ runsInError .build = false
      ∧ responds .build = false ∧ responds .rbit = true
      ∧ { State.reset with err := .format }.RspTakes
      ∧ { State.reset with err := .format, rspRoom := some 0 }.err ≠ .none
      ∧ { State.reset with err := .format, rspRoom := some 0 }.rspRoom = some 0 := by decide

/-- Each wait of the statement occurs. -/
theorem witness_stepStopsOnlyToWait :
    stoppedAt (step State.reset) = some .waitCmd
      ∧ stoppedAt (step { State.reset with seq := .countRead }) = some .waitIn
      ∧ stoppedAt (step { State.reset with seq := .respond 0 none, rspRoom := some 0 }) = some .waitRsp
      ∧ stoppedAt (step { State.reset with seq := .decodeEmit, sinkRest := none }) = some .waitOut := by decide +kernel

theorem witness_rspTakes : State.reset.RspTakes ∧ { State.reset with rspRoom := some 1 }.RspTakes
    ∧ ¬ { State.reset with rspRoom := some 0 }.RspTakes := by decide

theorem witness_countCountsOccurrences :
    { State.reset with inp := bytes [65, 66, 65, 65] ++ [Token.endTok] }.Ready
      ∧ (∀ b : Byte, [65#8, 66, 65, 65].count b < 2 ^ 32)
      ∧ { State.reset with inp := bytes [65, 66, 65, 65] ++ [Token.endTok] }.inp
        = [65#8, 66, 65, 65].map Token.byte ++ Token.endTok :: [] := by
  refine ⟨⟨rfl, rfl⟩, fun b => ?_, rfl⟩
  exact Nat.lt_of_le_of_lt List.count_le_length (by decide)

theorem witness_countStopsOnFail :
    { State.reset with inp := bytes [65, 66] ++ [Token.failTok, Token.byte 65] }.Ready
      ∧ (∀ b : Byte, [65#8, 66].count b < 2 ^ 32)
      ∧ { State.reset with inp := bytes [65, 66] ++ [Token.failTok, Token.byte 65] }.inp
        = [65#8, 66].map Token.byte ++ Token.failTok :: [Token.byte 65] := by
  refine ⟨⟨rfl, rfl⟩, fun b => ?_, rfl⟩
  exact Nat.lt_of_le_of_lt List.count_le_length (by decide)

/-- A state whose IN holds the byte 7 `n + 1` times. -/
def sevens (n : Nat) : State := { State.reset with inp := (List.replicate n 7#8).map Token.byte ++ Token.byte 7#8 :: [] }

theorem sevens_fit (n : Nat) (h : n < 2 ^ 32) :
    (sevens n).Ready ∧ (∀ c : Byte, (List.replicate n 7#8).count c < 2 ^ 32) ∧ (List.replicate n 7#8).count 7#8 = n
      ∧ (sevens n).inp = (List.replicate n 7#8).map Token.byte ++ Token.byte 7#8 :: [] := by
  refine ⟨⟨rfl, rfl⟩, fun c => ?_, List.count_replicate_self, rfl⟩
  refine Nat.lt_of_le_of_lt List.count_le_length ?_
  rw [List.length_replicate]
  exact h

/-- One more than a count can hold. -/
theorem witness_countNeverWraps :
    (sevens (2 ^ 32 - 1)).Ready ∧ (∀ c : Byte, (List.replicate (2 ^ 32 - 1) 7#8).count c < 2 ^ 32)
      ∧ (List.replicate (2 ^ 32 - 1) 7#8).count 7#8 = 2 ^ 32 - 1
      ∧ (sevens (2 ^ 32 - 1)).inp = (List.replicate (2 ^ 32 - 1) 7#8).map Token.byte ++ Token.byte 7#8 :: [] :=
  sevens_fit (2 ^ 32 - 1) (Nat.sub_lt (Nat.pow_pos (by decide)) (by decide))

theorem witness_countWaitsForTokens :
    { State.reset with inp := bytes [65] }.Ready ∧ (∀ b : Byte, [65#8].count b < 2 ^ 32)
      ∧ { State.reset with inp := bytes [65] }.inp = [65#8].map Token.byte := by
  refine ⟨⟨rfl, rfl⟩, fun b => ?_, rfl⟩
  exact Nat.lt_of_le_of_lt List.count_le_length (by decide)

theorem witness_wrfAndRdf : State.reset.Ready ∧ State.reset.RspTakes ∧ 0 ≤ 256 ∧ 256 ≤ 256 := by decide

theorem witness_indexPastSentinel : State.reset.Ready ∧ State.reset.RspTakes ∧ 256 < 257 ∧ 257 < 512 ∧ 256 < 511 ∧ 511 < 512 := by
  decide

/-- Both clauses of the check, at the sentinel counts 0, 2 and 1. -/
theorem witness_buildChecksTheSentinelCount :
    (withFreq []).Ready ∧ (withFreq []).freqAt 256 ≠ 1 ∧ (withFreq [(256, 2)]).freqAt 256 ≠ 1
      ∧ (withFreq [(256, 1)]).Ready ∧ (withFreq [(256, 1)]).freqAt 256 = 1 := by decide +kernel

theorem witness_queueOrder : (65#10 : NodeIx) ≠ 66#10 ∧ keyLt t1'.node 66#10 65#10 = true ∧ keyLt t1'.node 65#10 258#10 = true := by
  decide +kernel

theorem witness_extractMin : ([65#10, 66#10, 256#10] : List NodeIx).Nodup ∧ ([65#10, 66#10, 256#10] : List NodeIx) ≠ [] := by decide

/-- The hypotheses of the statements about a `BUILD` that succeeds: a Leaf root, and an Internal one. -/
theorem witness_build :
    (withFreq [(256, 1)]).Ready ∧ (withFreq [(256, 1)]).freqAt 256 = 1
      ∧ (withFreq [(65, 3), (66, 1), (256, 1)]).Ready ∧ (withFreq [(65, 3), (66, 1), (256, 1)]).freqAt 256 = 1 := by
  decide +kernel

theorem witness_build_next (s : State) : exec .build s = .next (after .build s) := rfl

theorem witness_emptyTable :
    (withFreq [(256, 1)]).Ready ∧ (∀ i < 256, (withFreq [(256, 1)]).freqAt i = 0) ∧ (withFreq [(256, 1)]).freqAt 256 = 1 := by
  refine ⟨⟨rfl, rfl⟩, fun i hi => ?_, by decide +kernel⟩
  simp [withFreq, freqs, State.freqAt, countIn, tableGet_tableSet, Nat.ne_of_lt hi]

/-- The count 1, where the byte is on the left, and the largest count. -/
theorem witness_singleByteTable (i : Nat) :
    ((withFreq [(97, 1), (256, 1)]).Ready ∧ (1#32 : Count) ≠ 0
        ∧ (withFreq [(97, 1), (256, 1)]).freqAt i = if i = (97#8).toNat then 1#32 else if i = 256 then 1 else 0)
      ∧ (withFreq [(255, 0xFFFFFFFF), (256, 1)]).Ready ∧ (0xFFFFFFFF#32 : Count) ≠ 0
      ∧ (withFreq [(255, 0xFFFFFFFF), (256, 1)]).freqAt i
          = if i = (255#8).toNat then 0xFFFFFFFF#32 else if i = 256 then 1 else 0 := by
  refine ⟨⟨⟨rfl, rfl⟩, by decide, ?_⟩, ⟨rfl, rfl⟩, by decide, ?_⟩
  all_goals
    simp only [withFreq, freqs, State.freqAt, countIn, List.foldl]
    rw [tableGet_tableSet _ _ _ _ _ (by decide), tableGet_tableSet _ _ _ _ _ (by decide), tableGet_replicate]
    by_cases h : i = 256
    · subst h; rfl
    · simp [h]

theorem witness_buildDependsOnFreqAlone :
    (withFreq [(256, 1)]).Ready ∧ { withFreq [(256, 1)] with bwN := 3, root := 5 }.Ready
      ∧ (withFreq [(256, 1)]).freqAt 256 = 1
      ∧ (withFreq [(256, 1)]).freq = { withFreq [(256, 1)] with bwN := 3, root := 5 }.freq :=
  ⟨⟨rfl, rfl⟩, ⟨rfl, rfl⟩, by decide +kernel, rfl⟩

/-- Each clause of the preconditions. -/
theorem witness_sequencePreconditions :
    State.reset.Ready ∧ State.reset.treeValid = false ∧ State.reset.codesValid = false
      ∧ { t1 with bwN := 1 }.Ready ∧ { t1 with bwN := 1 }.bwN ≠ 0
      ∧ t1.Ready ∧ t1.treeValid = true ∧ t1.codesValid = true ∧ t1.bwN = 0 := by decide +kernel

theorem t1_codesOk : t1.CodesOk := fun _ => ⟨rfl, test_mkcode_v1.symm⟩

/-- V41. -/
theorem t41_codesOk : t41.CodesOk := fun _ => ⟨rfl, Vector.toList_inj.1 (by decide +kernel)⟩

/-- Each answer of the sink. -/
theorem witness_sinkWrite :
    { State.reset with sinkNext := [.ok] }.sinkNext = .ok :: [] ∧ { State.reset with sinkNext := [.fail] }.sinkNext = .fail :: []
      ∧ State.reset.sinkNext = [] ∧ State.reset.sinkRest = some .ok
      ∧ { State.reset with sinkRest := some .fail }.sinkRest = some .fail
      ∧ { State.reset with sinkRest := none }.sinkRest = none := by decide

/-- Each clause of `WBIT`: 6 pending bits; 7, the sink accepting, refusing, silent. -/
theorem witness_wbit :
    { State.reset with bwN := 6 }.Ready ∧ { State.reset with bwN := 6 }.bwN ≠ 7
      ∧ { State.reset with bwAcc := 0x4D, bwN := 7 }.sinkWrite (BitVec.ofNat 8 (2 * 0x4D + 0))
          = .accepted { State.reset with bwAcc := 0x4D, bwN := 7, out := [0x9A] }
      ∧ { State.reset with bwAcc := 0x4D, bwN := 7, sinkRest := some .fail }.sinkWrite (BitVec.ofNat 8 (2 * 0x4D + 0))
          = .failed { State.reset with bwAcc := 0x4D, bwN := 7, sinkRest := some .fail }
      ∧ { State.reset with bwAcc := 0x4D, bwN := 7, sinkRest := none }.sinkWrite (BitVec.ofNat 8 (2 * 0x4D + 0)) = .wait :=
  ⟨by decide, by decide, rfl, rfl, rfl⟩

/-- Each clause of `WCLOSE`: no pending bit; one, the sink accepting, refusing, silent. -/
theorem witness_wclose :
    State.reset.Ready ∧ State.reset.bwN = 0 ∧ { State.reset with bwAcc := 1, bwN := 1 }.bwN ≠ 0
      ∧ { State.reset with bwAcc := 1, bwN := 1 }.sinkWrite (BitVec.ofNat 8 (1 * 2 ^ (8 - 1)))
          = .accepted { State.reset with bwAcc := 1, bwN := 1, out := [0x80] }
      ∧ { State.reset with bwAcc := 1, bwN := 1, sinkRest := some .fail }.sinkWrite (BitVec.ofNat 8 (1 * 2 ^ (8 - 1)))
          = .failed { State.reset with bwAcc := 1, bwN := 1, sinkRest := some .fail }
      ∧ { State.reset with bwAcc := 1, bwN := 1, sinkRest := none }.sinkWrite (BitVec.ofNat 8 (1 * 2 ^ (8 - 1))) = .wait :=
  ⟨by decide, by decide, by decide, rfl, rfl, rfl⟩

/-- Each clause of `RBIT`: ended; one bit left; a refill by a byte, by `END`, by `FAIL`; no token. -/
theorem witness_rbit :
    State.reset.Ready ∧ State.reset.RspTakes ∧ { State.reset with brEof := true }.brEof = true
      ∧ ({ State.reset with brN := 1 }.brEof = false ∧ { State.reset with brN := 1 }.brN ≠ 0)
      ∧ (State.reset.brEof = false ∧ State.reset.brN = 0 ∧ State.reset.inp = [])
      ∧ { State.reset with inp := [.byte 0x9A] }.inp = .byte 0x9A :: []
      ∧ { State.reset with inp := [.endTok] }.inp = .endTok :: []
      ∧ { State.reset with inp := [.failTok] }.inp = .failTok :: [] := by decide

theorem witness_writerLaw :
    State.reset.bwN = 0 ∧ State.reset.SinkOk ∧ { State.reset with sinkNext := [.ok, .ok] }.SinkOk := by decide

theorem witness_readerLaw :
    { State.reset with inp := bytes [0x9A] ++ [Token.endTok] }.brN = 0
      ∧ { State.reset with inp := bytes [0x9A] ++ [Token.endTok] }.brEof = false
      ∧ { State.reset with inp := bytes [0x9A] ++ [Token.endTok] }.inp = [0x9A#8].map Token.byte ++ Token.endTok :: []
      ∧ 8 ≤ 8 * [0x9A#8].length := ⟨rfl, rfl, rfl, by decide⟩

/-- The encoder law's hypotheses, on V55's bytes and on no byte at all. -/
theorem witness_encoderLaw :
    { t1 with inp := bytes [65, 66, 65, 65] ++ [Token.endTok] }.Ready ∧ t1.codesValid = true ∧ t1.bwN = 0 ∧ t1.SinkOk
      ∧ { t1 with inp := bytes [65, 66, 65, 65] ++ [Token.endTok] }.inp
        = [65#8, 66, 65, 65].map Token.byte ++ Token.endTok :: []
      ∧ (∀ b ∈ [65#8, 66, 65, 65], t1.codeAt b.toNat ≠ none)
      ∧ { t1 with inp := [Token.endTok] }.inp = ([] : List Byte).map Token.byte ++ Token.endTok :: [] := by decide +kernel

/-- Each place where `ENCODE` stops: V57's byte without a code; V59's `FAIL` token; V60's sink, which refuses the first byte,
at the bit of the eighth 65 and in `Close`, and which refuses the second byte, before and at the sentinel's last bit. -/
theorem witness_encodeStopsOnAMissingCode :
    (t1.Ready ∧ t1.codesValid = true ∧ t1.bwN = 0)
      ∧ (t1.SinkOk ∧ { t1 with inp := bytes [65, 67, 65] }.inp = [65#8].map Token.byte ++ Token.byte 67 :: [Token.byte 65]
        ∧ (∀ c ∈ [65#8], t1.codeAt c.toNat ≠ none) ∧ t1.codeAt (67#8).toNat = none)
      ∧ (bytes [65, 66] ++ [Token.failTok] = [65#8, 66].map Token.byte ++ Token.failTok :: []
        ∧ (∀ c ∈ [65#8, 66], t1.codeAt c.toNat ≠ none))
      ∧ ({ t1 with sinkRest := some .fail }.SinkRefuses 0 []
        ∧ bytes (List.replicate 9 65) ++ [Token.endTok]
          = (List.replicate 7 65#8).map Token.byte ++ Token.byte 65 :: [Token.byte 65, Token.endTok]
        ∧ (∀ c ∈ List.replicate 7 65#8, t1.codeAt c.toNat ≠ none) ∧ t1.codeAt (65#8).toNat ≠ none
        ∧ (codeBits t1.code (List.replicate 7 65)).length < 8 * (0 + 1)
        ∧ 8 * (0 + 1) ≤ (codeBits t1.code (List.replicate 7 65 ++ [65])).length)
      ∧ ((∀ c ∈ [65#8, 66, 65, 65], t1.codeAt c.toNat ≠ none)
        ∧ (codeBits t1.code [65, 66, 65, 65]).length < 8 * (0 + 1)
        ∧ 8 * 0 < (payloadBits t1.code [65, 66, 65, 65]).length)
      ∧ ({ t1 with sinkNext := [.ok, .fail, .ok] }.SinkRefuses 1 [.ok]
        ∧ (codeBits t1.code (List.replicate 14 65)).length < 8 * (1 + 1)
        ∧ (payloadBits t1.code (List.replicate 14 65)).length = 8 * (1 + 1)
        ∧ (codeBits t1.code (List.replicate 15 65)).length < 8 * (1 + 1)
        ∧ (payloadBits t1.code (List.replicate 15 65)).length = 8 * (1 + 1) + 1) := by decide +kernel

/-- Each place where `ENCODE` waits: no token after V59's bytes; a sink with no answer to the byte of the eighth 65, to the one
that `Close` offers, and, after one answer, to the one that the sentinel's last bit fills. -/
theorem witness_encodeWaits :
    (bytes [65, 66] = [65#8, 66].map Token.byte
        ∧ (after .encode { t1 with inp := bytes [65, 66] }).seq = .encodeRead
        ∧ (after .encode { t1 with inp := bytes [65, 66] }).pending = [true, false, false])
      ∧ ({ t1 with sinkRest := none }.SinkSilent 0
        ∧ (after .encode { t1 with inp := bytes (List.replicate 9 65), sinkRest := none }).seq = .encodeBits [true] false
        ∧ (after .encode { t1 with inp := bytes [65, 66, 65, 65] ++ [.endTok], sinkRest := none }).seq = .encodeClose)
      ∧ ({ t1 with sinkNext := [.ok], sinkRest := none }.SinkSilent 1
        ∧ (payloadBits t1.code (List.replicate 14 65)).length = 8 * (1 + 1)
        ∧ (after .encode
            { t1 with inp := bytes (List.replicate 14 65) ++ [.endTok], sinkNext := [.ok], sinkRest := none }).seq
          = .encodeBits [true] true
        ∧ (after .encode
            { t1 with inp := bytes (List.replicate 14 65) ++ [.endTok], sinkNext := [.ok], sinkRest := none }).out
          = [0xFF]) := by decide +kernel

theorem witness_encodeDone :
    { t1 with inp := [.endTok] }.Ready
      ∧ (after .encode { t1 with inp := [.endTok] }).err = .none
      ∧ (after .encode { t1 with inp := [.endTok] }).seq = .idle := by decide +kernel

theorem witness_encodeDone_next (s : State) : exec .encode s = .next (after .encode s) := rfl

/-- Each clause under a Leaf root. -/
theorem witness_decodeLeafRoot :
    t36.Ready ∧ t36.treeValid = true ∧ (t36.nodeAt t36.root).kind = .leaf
      ∧ ({ t36 with inp := [.byte 0x7F] }.inp = .byte 0x7F :: [] ∧ (0x7F#8).getLsbD 7 = false)
      ∧ ({ t36 with inp := [.byte 0x80] }.inp = .byte 0x80 :: [] ∧ (0x80#8).getLsbD 7 = true)
      ∧ { t36 with inp := [.endTok] }.inp = .endTok :: []
      ∧ { t36 with inp := [.failTok] }.inp = .failTok :: []
      ∧ t36.inp = [] ∧ (after .decode t36).seq = .decodeRead := by decide +kernel

/-- The source's ends: V65, which ends first, and V68's third, which is truncated; the same bytes before a `FAIL` token. -/
theorem witness_decodeEndsOrIsTruncated :
    t1'.Ready ∧ t1'.treeValid = true ∧ t1'.SinkOk ∧ (t1'.nodeAt t1'.root).kind = .internal
      ∧ { t1' with inp := bytes [0x98] ++ [Token.endTok] }.inp = [0x98#8].map Token.byte ++ Token.endTok :: []
      ∧ (after .decode { t1' with inp := bytes [0x98] ++ [Token.endTok] }).err = .trunc
      ∧ (after .decode { t1' with inp := bytes [0x9A] ++ [Token.endTok] }).err = .none
      ∧ { t1' with inp := bytes [0x98] ++ [Token.failTok] }.inp = [0x98#8].map Token.byte ++ Token.failTok :: []
      ∧ (after .decode { t1' with inp := bytes [0x98] ++ [Token.failTok] }).err = .ioSrc
      ∧ (after .decode { t1' with inp := bytes [0x9A] ++ [Token.failTok] }).err = .none := by decide +kernel

theorem witness_decodeDone_next (s : State) : exec .decode s = .next (after .decode s) := rfl

/-- The frames' only hypothesis, that the instruction answers a next state, for one of each group. -/
theorem witness_frames (s : State) :
    exec .clr s = .next (after .clr s) ∧ exec (.wrf 256 1) s = .next (after (.wrf 256 1) s)
      ∧ exec (.wbit true) s = .next (after (.wbit true) s) := ⟨rfl, rfl, rfl⟩

theorem witness_errorsAndResponses :
    State.reset.Ready ∧ exec .rds State.reset = .next (after .rds State.reset) ∧ (after .rds State.reset).seq = .idle
      ∧ responds .rds = true ∧ responds .build = false
      ∧ exec .rbit State.reset = .next (after .rbit State.reset) ∧ (after .rbit State.reset).seq = .rbitRead
      ∧ responds .rbit = true := ⟨⟨rfl, rfl⟩, rfl, rfl, rfl, rfl, rfl, rfl, rfl⟩

/-- The error state, with `CLR` on CMD and with another command, and with a response that is not taken. -/
theorem witness_onlyClr :
    { State.reset with err := .format, cmd := [encode .clr] }.err ≠ .none
      ∧ { State.reset with err := .format, cmd := [encode .clr] }.SeqOk
      ∧ step { State.reset with err := .format, cmd := [encode .clr] } = .next State.reset
      ∧ step { State.reset with err := .format, cmd := [encode .build] } = .next { State.reset with err := .format }
      ∧ step { State.reset with err := .format, cmd := [encode .rbit], rspRoom := some 0 }
        = .next { State.reset with err := .format, rspRoom := some 0, seq := .respond 0 none } :=
  ⟨by decide, trivial, rfl, rfl, rfl⟩

/-- `CLR` as the first word on CMD, another behind it. -/
theorem witness_resetAndClr :
    { State.reset with cmd := [0x0100000000000000#64, 0] }.seq = .idle
      ∧ { State.reset with cmd := [0x0100000000000000#64, 0] }.cmd = 0x0100000000000000#64 :: [0]
      ∧ exec .clr State.reset = .next (after .clr State.reset) := ⟨rfl, rfl, rfl⟩

/-- The bit adapters at the largest and the smallest fill. -/
theorem witness_bitsOk :
    { State.reset with bwAcc := 0x7F, bwN := 7, brBuf := 0xFE, brN := 7 }.BitsOk ∧ State.reset.BitsOk ∧ State.reset.QueueOk
      ∧ step { State.reset with cmd := [0] } = .next State.reset := ⟨by decide, by decide, rfl, rfl⟩

/-- `COUNT`, `ENCODE` and `DECODE` each come to wait for a token, `IN` being empty or holding one. -/
theorem witness_waitingForTokens :
    t1.Ready ∧ ([.endTok] : List Token) ≠ []
      ∧ (after .count { t1 with inp := bytes [65] }).seq = .countRead
      ∧ (after .encode { t1 with inp := [] }).seq = .encodeRead
      ∧ (after .decode { t1 with inp := bytes [0xFF] }).seq = .decodeRead := by decide +kernel

theorem witness_waitingForTokens_next (s : State) : exec .count s = .next (after .count s) := rfl

/-- Commands come to wait for the sink: at a bit, in the middle of a code, at a Leaf; and a response that waits is taken. -/
theorem witness_waitingForAnswers :
    ([.ok] : List SinkAnswer) ≠ []
      ∧ (after (.wbit true) { State.reset with bwN := 7, sinkRest := none }).seq = .wbit true
      ∧ (after .encode { t1 with inp := bytes [65, 65, 65, 65, 65, 65, 65, 65], sinkRest := none }).seq = .encodeBits [true] false
      ∧ (after .decode { t1' with inp := bytes [0x9A], sinkRest := none }).seq = .decodeEmit
      ∧ { State.reset with seq := .respond 0 (some (.index, 257)) }.RspTakes := by decide +kernel

/-- A HOST that takes no response: an `RDF` waits with its word and the error after it, an `RBIT` with its bit, an `RBIT` with
no token for one. -/
theorem witness_waitingForRsp :
    State.reset.seq = .idle ∧ responds (.rdf 257) = true ∧ responds .rbit = true ∧ (some 1 : Option Nat) ≠ some 0
      ∧ (after (.rdf 257) { State.reset with rspRoom := some 0 }).seq = .respond 0 (some (.index, 257))
      ∧ (after .rbit { State.reset with inp := bytes [0x9A], rspRoom := some 0 }).seq = .respond 0x8000000000000001 none
      ∧ (after .rbit { State.reset with rspRoom := some 0 }).seq = .rbitRead := by decide +kernel

/-- The error clauses for a command that waited and for a word that is no command. -/
theorem witness_errorsAfterWait :
    { State.reset with seq := .countRead, inp := [.failTok] }.seq ≠ .idle
      ∧ { State.reset with seq := .countRead, inp := [.failTok] }.err = .none
      ∧ seen (step { State.reset with seq := .countRead, inp := [.failTok] }) = some (0x8000000000000001#64, [], [])
      ∧ State.reset.Ready ∧ decode 0x0300000000000000#64 = .reject .unknownOp
      ∧ seen (runWord 0x0300000000000000#64 State.reset) = some (0x8000000000000309#64, [], []) := by decide +kernel

/-- A command that waits, a token that the HOST offers, and the step that goes on with it. -/
theorem witness_goesOn :
    State.reset.Ready ∧ exec .count State.reset = .next (after .count State.reset)
      ∧ GoesOn (after .count State.reset)
          { after .count State.reset with seq := .idle, err := .ioSrc, errInfo := 0, inp := [] } :=
  ⟨⟨rfl, rfl⟩, rfl, .goOn (.host .start (.token .failTok)) (by decide) rfl⟩

/-- V1's bytes presented twice, and a second machine with the table counted. -/
theorem witness_roundTrip :
    (∀ b : Byte, [65#8].count b < 2 ^ 32) ∧ State.reset.SinkOk
      ∧ { State.reset with inp := bytes [65] ++ Token.endTok :: (bytes [65] ++ [Token.endTok]) }.inp
        = [65#8].map Token.byte ++ Token.endTok :: ([65#8].map Token.byte ++ Token.endTok :: [])
      ∧ (withFreq [(65, 1), (256, 1)]).Ready ∧ (withFreq [(65, 1), (256, 1)]).SinkOk
      ∧ (withFreq [(65, 1), (256, 1)]).freq
          = (after .count { State.reset with inp := bytes [65] ++ [Token.endTok] }).freq :=
  ⟨fun b => Nat.lt_of_le_of_lt List.count_le_length (by decide), by decide, rfl, ⟨rfl, rfl⟩, by decide,
    Vector.toList_inj.1 (by decide +kernel)⟩

/-! ### Whole trees of the spec, built by `BUILD`, and the witnesses that need one -/

/-- V1: the Leaves, both merges, the root and the next free slot. -/
theorem test_build_v1 : buildTree (freqs [(65, 3), (66, 1), (256, 1)]) = ⟨t1'.node, 258#10, 259#10, []⟩ :=
  tree_eq _ _ (by decide +kernel)

/-- V36: no merge. -/
theorem test_build_v36 : buildTree (freqs [(256, 1)]) = ⟨t36.node, 256#10, 257#10, []⟩ :=
  tree_eq _ _ (by decide +kernel)

/-- V1's tree is what `BUILD` makes of V1's table. -/
theorem t1'_treeOk : t1'.TreeOk := by
  intro _
  rw [show t1'.freq = freqs [(65, 3), (66, 1), (256, 1)] from rfl, test_build_v1]
  exact ⟨by decide +kernel, rfl, rfl, rfl⟩

theorem t1_treeOk : t1.TreeOk := by
  intro _
  rw [show t1.freq = freqs [(65, 3), (66, 1), (256, 1)] from rfl, test_build_v1]
  exact ⟨by decide +kernel, rfl, rfl, rfl⟩

theorem t36_treeOk : t36.TreeOk := by
  intro _
  rw [show t36.freq = freqs [(256, 1)] from rfl, test_build_v36]
  exact ⟨by decide +kernel, rfl, rfl, rfl⟩

theorem t41_treeOk : t41.TreeOk := by
  intro _
  rw [show t41.freq = freqs [(256, 1)] from rfl, test_build_v36]
  exact ⟨by decide +kernel, rfl, rfl, rfl⟩

/-- A merge of `BUILD` on V1's table: node 257 over 66 and 256, made while 65 stood without a parent. -/
theorem witness_buildMerges :
    (withFreq [(65, 3), (66, 1), (256, 1)]).Ready ∧ (withFreq [(65, 3), (66, 1), (256, 1)]).freqAt 256 = 1
      ∧ (after .build (withFreq [(65, 3), (66, 1), (256, 1)])).node = t1'.node
      ∧ t1'.nodeAt 257#10 = ⟨true, .internal, 2, 66, 256⟩
      ∧ (t1'.nodeAt 65#10).valid = true ∧ (65#10 : NodeIx).toNat < (257#10 : NodeIx).toNat
      ∧ (65#10 : NodeIx) ≠ 66 ∧ (65#10 : NodeIx) ≠ 256
      ∧ (∀ p : Fin 257, (t1'.nodeAt (BitVec.ofNat 10 p.val)).kind ≠ .internal) := by
  refine ⟨by decide +kernel, by decide +kernel, Vector.toList_inj.1 (by decide +kernel), ?_⟩
  decide +kernel

/-- `MKCODE` over an Internal root and over a Leaf root, on trees that `BUILD` made. -/
theorem witness_mkcode :
    (t1'.Ready ∧ t1'.treeValid = true ∧ t1'.TreeOk)
      ∧ ((t1'.nodeAt t1'.root).kind = .internal ∧ (t1'.nodeAt 65#10).valid = true ∧ (t1'.nodeAt 67#10).valid = false)
      ∧ (t36.Ready ∧ t36.treeValid = true ∧ t36.TreeOk) ∧ (t36.nodeAt t36.root).kind = .leaf :=
  ⟨⟨by decide +kernel, rfl, t1'_treeOk⟩, by decide +kernel, ⟨by decide +kernel, rfl, t36_treeOk⟩,
    by decide +kernel⟩

/-- The laws of the codes: codes that `MKCODE` made, of symbols with and without a count; two of them; both roots. -/
theorem witness_codes :
    (t1.codesValid = true ∧ t1.TreeOk ∧ t1.CodesOk)
      ∧ (t1.freqAt 65 ≠ 0 ∧ t1.freqAt 67 = 0 ∧ 65 ≠ 256 ∧ t1.codeAt 65 = some [true] ∧ t1.codeAt 256 = some [false, true])
      ∧ (List.replicate 256 true).length = 256
      ∧ (t41.codesValid = true ∧ t41.TreeOk ∧ t41.CodesOk) :=
  ⟨⟨rfl, t1_treeOk, t1_codesOk⟩, by decide +kernel, List.length_replicate, ⟨rfl, t41_treeOk, t41_codesOk⟩⟩

/-- V65's payload of V1's bytes; and under a Leaf root the payload of no byte. Other padding: V67's one bit, and V69's seven. -/
theorem witness_decoderLaw :
    (t1'.Ready ∧ t1'.treeValid = true ∧ t1'.TreeOk ∧ t1'.SinkOk)
      ∧ ((∀ b ∈ [65#8, 66, 65, 65], codeIn (codeTable t1'.node t1'.root) b.toNat ≠ none)
        ∧ { t1' with inp := bytes [0x9A, 0x55] }.inp
          = (packBits (payloadBits (codeTable t1'.node t1'.root) [65, 66, 65, 65])).map Token.byte ++ [Token.byte 0x55])
      ∧ [0x9B#8].flatMap byteBits = payloadBits (codeTable t1'.node t1'.root) [65, 66, 65, 65] ++ [true]
      ∧ (t36.Ready ∧ t36.treeValid = true ∧ t36.TreeOk)
      ∧ { t36 with inp := bytes [0x00] }.inp
        = (packBits (payloadBits (codeTable t36.node t36.root) [])).map Token.byte ++ []
      ∧ [0x7F#8].flatMap byteBits = payloadBits (codeTable t36.node t36.root) [] ++ List.replicate 7 true :=
  ⟨⟨by decide +kernel, rfl, t1'_treeOk, by decide +kernel⟩, by decide +kernel, by decide +kernel,
    ⟨by decide +kernel, rfl, t36_treeOk⟩, by decide +kernel⟩

/-- V68's second: `DECODE` on `0x80` stands at 257 with 65, 66, 66, 66 on OUT; with nothing on OUT and `CUR` past a Leaf, or
with `CUR` on a Leaf, it would not stand where R220 says. -/
theorem witness_decodeStandsAt :
    (after .decode { t1' with inp := bytes [0x80] ++ [Token.endTok] }).err = .trunc
      ∧ DecodeStandsAt t1' (after .decode { t1' with inp := bytes [0x80] ++ [Token.endTok] }) ([0x80#8].flatMap byteBits)
      ∧ ¬ DecodeStandsAt t1' { t1' with cur := 0 } ([0x80#8].flatMap byteBits)
      ∧ ¬ DecodeStandsAt t1' { t1' with out := [65, 66, 66], cur := 66 } ([0x80#8].flatMap byteBits) := by
  refine ⟨by decide +kernel, ⟨[65, 66, 66, 66], [false], by decide +kernel, by decide +kernel, ?_, by decide +kernel,
    by decide +kernel, by decide +kernel⟩, ?_, ?_⟩
  · intro i p h hp
    rw [test_mkcode_v1] at h
    simp only [codes, List.foldl, codeIn] at h
    rw [tableGet_tableSet _ _ _ _ _ (by decide), tableGet_tableSet _ _ _ _ _ (by decide),
      tableGet_tableSet _ _ _ _ _ (by decide), tableGet_replicate] at h
    split at h
    · cases h; exact absurd hp (by decide)
    · split at h
      · cases h; exact absurd hp (by decide)
      · split at h <;> cases h
        exact absurd hp (by decide)
  · rintro ⟨_, _, -, -, -, -, -, h⟩
    exact absurd h (by decide +kernel)
  · rintro ⟨_, _, -, -, -, -, -, h⟩
    exact absurd h (by decide +kernel)

/-- The places where `DECODE` waits: V68's second without its `END`; V65's without its `END` ends all the same; V70's with a sink
that gives no answer to the second byte. -/
theorem witness_decodeWaits :
    (bytes [0x80] = [0x80#8].map Token.byte
        ∧ (after .decode { t1' with inp := bytes [0x80] }).seq = .decodeRead
        ∧ (after .decode { t1' with inp := bytes [0x80] }).out = [65, 66, 66, 66]
        ∧ (after .decode { t1' with inp := bytes [0x80] }).cur = 257
        ∧ (after .decode { t1' with inp := bytes [0x9A] }).seq = .idle)
      ∧ ({ t1' with sinkNext := [.ok], sinkRest := none }.SinkSilent [65#8].length
        ∧ (after .decode { t1' with inp := bytes [0x9A], sinkNext := [.ok], sinkRest := none }).seq = .decodeEmit
        ∧ (after .decode { t1' with inp := bytes [0x9A], sinkNext := [.ok], sinkRest := none }).cur = 66
        ∧ (after .decode { t1' with inp := bytes [0x9A], sinkNext := [.ok], sinkRest := none }).out = [65]) := by
  decide +kernel

/-- V70: the sink refuses the second byte, 66. -/
theorem witness_decodeSinkRefuses :
    t1'.TreeOk ∧ { t1' with sinkNext := [.ok], sinkRest := some .fail }.SinkRefuses [65#8].length []
      ∧ (∀ c ∈ [65#8] ++ [66], codeIn (codeTable t1'.node t1'.root) c.toNat ≠ none)
      ∧ codeBits (codeTable t1'.node t1'.root) ([65] ++ [66]) <+: [0x9A#8].flatMap byteBits :=
  ⟨t1'_treeOk, by decide +kernel⟩

theorem witness_decodeDone :
    (t1'.TreeOk ∧ t1'.treeValid = true) ∧ { t1' with inp := bytes [0x9A] }.Ready
      ∧ (after .decode { t1' with inp := bytes [0x9A] }).err = .none
      ∧ (after .decode { t1' with inp := bytes [0x9A] }).seq = .idle :=
  ⟨⟨t1'_treeOk, rfl⟩, by decide +kernel⟩

/-- The invariants of the flags hold with both flags 1, and a command can be taken. -/
theorem witness_flagsInv : t1.FlagsInv ∧ { t1 with cmd := [encode .nop] }.seq = .idle ∧ decode (encode .nop) = .instr .nop :=
  ⟨⟨t1_treeOk, t1_codesOk, trivial⟩, rfl, by decide⟩

end Sys2Proof.Tests
end

section
/-! SUPPORT. The invariant of the two validity flags (10_state R30): what keeps it, for each command's body and for each place
where a command goes on, and with these for a step. -/

namespace Sys2Proof.Machine

/-! ### Stage 2 keeps what the body keeps -/

/-- A discarded command changes nothing, so a command keeps what its later stages keep (R272). -/
theorem State.unlessError_keeps {P : State → Prop} {s : State} {body : State → State} (h : P s)
    (hb : s.err = .none → P (body s)) : P (s.unlessError body) := by
  rcases s.unlessError_cases body with ⟨he, e⟩ | ⟨-, e⟩
  · rw [e]; exact hb he
  · rw [e]; exact h

/-- The same for a command that responds, where the response keeps it too (R96, R272). -/
theorem State.unlessErrorResponding_keeps {P : State → Prop} {s : State} {body : State → State}
    (h : P (s.respond zeroResponse none)) (hb : s.err = .none → P (body s)) : P (s.unlessErrorResponding body) := by
  rcases s.unlessErrorResponding_cases body with ⟨he, e⟩ | ⟨-, e⟩
  · rw [e]; exact hb he
  · rw [e]; exact h

@[simp] theorem State.afterRespond_seq (s : State) (after : Option (ErrCode × Info)) :
    (s.afterRespond after).seq = s.seq := by
  cases after <;> rfl

/-! ### What carries the invariant from one state to another -/

variable {s t : State}

/-- What the two flags speak of: the tables, the tree's pointers and the flags themselves (R30). -/
def State.tables (s : State) : FreqTable × NodeTable × NodeIx × NodeIx × CodeTable × Bool × Bool :=
  (s.freq, s.node, s.root, s.nn, s.code, s.treeValid, s.codesValid)

/-- An idle sequencer needs nothing. -/
theorem State.seqOk_of_idle (h : s.seq = .idle) : s.SeqOk := by
  simp only [State.SeqOk, h]

/-- The same tables and flags, and a sequencer that may stand where it stands. -/
theorem State.FlagsInv.of_tables (h : s.FlagsInv) (e : t.tables = s.tables) (hq : t.SeqOk) : t.FlagsInv := by
  simp only [State.tables, Prod.mk.injEq] at e
  obtain ⟨hf, hn, hr, hnn, hc, ht, hv⟩ := e
  refine ⟨?_, ?_, hq⟩
  · simpa only [State.TreeOk, State.freqAt, hf, hn, hr, hnn, ht] using h.tree
  · simpa only [State.CodesOk, hn, hr, hc, ht, hv] using h.codes

/-- With both flags 0 there is nothing to promise. -/
theorem State.FlagsInv.of_flags_clear (ht : t.treeValid = false) (hc : t.codesValid = false) (hq : t.SeqOk) : t.FlagsInv :=
  ⟨fun h => by simp [ht] at h, fun h => by simp [hc] at h, hq⟩

/-- A command that ended, with an error or without, leaves the sequencer idle; one that waits has to be allowed to. -/
theorem EndsAs.seqOk {ended : Prop} {errs : List ErrCode} {waits : Activity → Prop} (h : EndsAs s t ended errs waits)
    (hs : s.seq = .idle) (hw : t.err = s.err → waits t.seq → t.SeqOk) : t.SeqOk := by
  rcases h with ⟨-, hq, -⟩ | ⟨-, hq⟩ | ⟨he, hq⟩
  · exact State.seqOk_of_idle (hq.trans hs)
  · exact State.seqOk_of_idle (hq.trans hs)
  · exact hw he hq

/-! ### Responses -/

/-- A response keeps the invariant if it raises nothing, or comes before the error of a command that was executing (R96). -/
theorem State.FlagsInv.respond (h : s.FlagsInv) (hs : s.seq = .idle) (w : Word64) (after : Option (ErrCode × Info))
    (ha : after ≠ none → s.err = .none) : (s.respond w after).FlagsInv := by
  refine h.of_tables (by rw [s.respond_frame w after]; rfl) ?_
  rcases s.respond_cases w after with ⟨-, e⟩ | ⟨-, e⟩
  · exact State.seqOk_of_idle (by rw [e, State.afterRespond_seq]; exact hs)
  · rw [e]; exact ha

/-- `RDF` keeps the invariant (R137). -/
theorem State.FlagsInv.readFreq (h : s.FlagsInv) (hs : s.seq = .idle) (he : s.err = .none) (i : Nat) :
    (s.readFreq i).FlagsInv := by
  obtain ⟨w, after, e, -⟩ := s.readFreq_cases i
  rw [e]
  exact h.respond hs w after fun _ => he

/-- `RBIT` keeps the invariant (R186). -/
theorem State.FlagsInv.rbitRun (h : s.FlagsInv) (hs : s.seq = .idle) (he : s.err = .none) : s.rbitRun.FlagsInv := by
  rcases s.rbitRun_cases with ⟨r, w, after, e, -⟩ | e
  · have hr : (s.withReader r).FlagsInv := h.of_tables rfl (State.seqOk_of_idle hs)
    rw [e]
    exact hr.respond hs w after fun _ => he
  · rw [e]
    exact h.of_tables rfl he

/-! ### The table commands -/

/-- `COUNT`, its flags cleared and the sentinel's count not yet written, keeps the invariant (R131). -/
theorem State.FlagsInv.countRun (hs : s.seq = .idle) (he : s.err = .none) (ht : s.treeValid = false)
    (hc : s.codesValid = false) (hf : s.freqAt 256 = 0) : s.countRun.FlagsInv := by
  obtain ⟨hframe, hend⟩ := countLoop_cases s.inp s
  have ht' : s.countRun.treeValid = false := by rw [State.countRun, hframe]; exact ht
  have hc' : s.countRun.codesValid = false := by rw [State.countRun, hframe]; exact hc
  refine .of_flags_clear ht' hc' ?_
  rcases hend with ⟨-, hq⟩ | ⟨-, hq⟩ | ⟨he', hq, hf'⟩
  · exact State.seqOk_of_idle (hq.trans hs)
  · exact State.seqOk_of_idle (hq.trans hs)
  · have hq' : s.countRun.seq = .countRead := hq
    simp only [State.SeqOk, hq']
    exact ⟨he'.trans he, ht', hc', hf'.trans hf⟩

/-- `WRF` clears the flags, or raises `E_INDEX` and writes nothing (R136). -/
theorem State.FlagsInv.writeFreq (h : s.FlagsInv) (hs : s.seq = .idle) (i : Nat) (v : Count) :
    (s.writeFreq i v).FlagsInv := by
  unfold State.writeFreq
  split
  · exact .of_flags_clear rfl rfl (State.seqOk_of_idle hs)
  · exact h.of_tables rfl (State.seqOk_of_idle hs)

/-- `BUILD` makes the tree that `TREE_VALID` promises, and clears `CODES_VALID` (R148). -/
theorem State.FlagsInv.build (h : s.FlagsInv) (hs : s.seq = .idle) : s.build.FlagsInv := by
  unfold State.build
  split
  · next hf => exact ⟨fun _ => ⟨hf, rfl, rfl, rfl⟩, fun hc => by simp at hc, State.seqOk_of_idle hs⟩
  · exact h.of_tables rfl (State.seqOk_of_idle hs)

/-- `MKCODE` makes the codes that `CODES_VALID` promises, of a valid tree (R166). -/
theorem State.FlagsInv.makeCodes (h : s.FlagsInv) (hs : s.seq = .idle) : s.makeCodes.FlagsInv := by
  unfold State.makeCodes
  split
  · next ht => exact ⟨h.tree, fun _ => ⟨ht, rfl⟩, State.seqOk_of_idle hs⟩
  · exact h.of_tables rfl (State.seqOk_of_idle hs)

/-! ### The stream commands -/

/-- What a run of `ENCODE` does keeps the invariant, where its preconditions hold (R201). -/
theorem State.FlagsInv.of_encode {ended : Prop} {errs : List ErrCode} (h : s.FlagsInv) (hs : s.seq = .idle)
    (he : s.err = .none) (hc : s.codesValid = true)
    (ht : t = s.withEncode t ∧ EndsAs s t ended errs EncodeWaits) : t.FlagsInv := by
  obtain ⟨hframe, hend⟩ := ht
  refine h.of_tables (by rw [hframe]; rfl) (hend.seqOk hs fun he' hq => ?_)
  have hc' : t.codesValid = true := by rw [hframe]; exact hc
  rcases hq with hq | hq | ⟨rest, eos, hr, hq⟩
  · simp only [State.SeqOk, hq]; exact ⟨he'.trans he, hc'⟩
  · simp only [State.SeqOk, hq]; exact ⟨he'.trans he, hc'⟩
  · simp only [State.SeqOk, hq]; exact ⟨he'.trans he, hc', hr⟩

/-- What a run of `DECODE` does keeps the invariant, where its precondition holds (R216). -/
theorem State.FlagsInv.of_decode {ended : Prop} {errs : List ErrCode} (h : s.FlagsInv) (hs : s.seq = .idle)
    (he : s.err = .none) (hv : s.treeValid = true)
    (ht : t = s.withDecode t ∧ EndsAs s t ended errs DecodeWaits) : t.FlagsInv := by
  obtain ⟨hframe, hend⟩ := ht
  refine h.of_tables (by rw [hframe]; rfl) (hend.seqOk hs fun he' hq => ?_)
  have hv' : t.treeValid = true := by rw [hframe]; exact hv
  rcases hq with hq | hq
  · simp only [State.SeqOk, hq]; exact ⟨he'.trans he, hv'⟩
  · simp only [State.SeqOk, hq]; exact ⟨he'.trans he, hv'⟩

/-- `ENCODE` keeps the invariant (R201, R262). -/
theorem State.FlagsInv.encode (h : s.FlagsInv) (hs : s.seq = .idle) (he : s.err = .none) : s.encode.FlagsInv := by
  rcases s.encode_cases with ⟨e, -⟩ | ⟨e, hc, -⟩
  · rw [e]; exact h.of_tables rfl (State.seqOk_of_idle hs)
  · rw [e]; exact h.of_encode hs he hc (encodeLoop_cases s.inp s)

/-- `DECODE` keeps the invariant (R216, R262). -/
theorem State.FlagsInv.decode (h : s.FlagsInv) (hs : s.seq = .idle) (he : s.err = .none) : s.decode.FlagsInv := by
  unfold State.decode
  split
  · next hv =>
    have h' : s.decodeStart.FlagsInv := h.of_tables rfl (State.seqOk_of_idle hs)
    exact h'.of_decode hs he hv s.decodeStart.decodeRun_cases
  · exact h.of_tables rfl (State.seqOk_of_idle hs)

/-- `WBIT` keeps the invariant (R183). -/
theorem State.FlagsInv.wbitRun (h : s.FlagsInv) (hs : s.seq = .idle) (he : s.err = .none) (b : Bool) :
    (s.wbitRun b).FlagsInv := by
  obtain ⟨hframe, hend⟩ := s.wbitRun_cases b
  refine h.of_tables (by rw [hframe]; rfl) (hend.seqOk hs fun he' hq => ?_)
  simp only [State.SeqOk, hq]
  exact he'.trans he

/-- `WCLOSE` keeps the invariant (R184). -/
theorem State.FlagsInv.wcloseRun (h : s.FlagsInv) (hs : s.seq = .idle) (he : s.err = .none) : s.wcloseRun.FlagsInv := by
  obtain ⟨hframe, hend⟩ := s.wcloseRun_cases
  refine h.of_tables (by rw [hframe]; rfl) (hend.seqOk hs fun he' hq => ?_)
  simp only [State.SeqOk, hq]
  exact he'.trans he

/-! ### A step -/

/-- Every command keeps the invariant. -/
theorem State.FlagsInv.exec (h : s.FlagsInv) (hs : s.seq = .idle) (i : Instr) (e : exec i s = .next t) : t.FlagsInv := by
  cases i with
  | nop => cases e; exact h
  | clr => cases e; exact .of_flags_clear rfl rfl trivial
  | rds => cases e; exact h.respond hs _ none fun ha => absurd rfl ha
  | count =>
    cases e
    exact State.unlessError_keeps h fun he => .countRun hs he rfl rfl (s.freqAt_countStart 256)
  | wrf idx val => cases e; exact State.unlessError_keeps h fun _ => h.writeFreq hs idx val
  | rdf idx =>
    cases e
    exact State.unlessErrorResponding_keeps (h.respond hs _ none fun ha => absurd rfl ha) fun he => h.readFreq hs he idx
  | build => cases e; exact State.unlessError_keeps h fun _ => h.build hs
  | mkcode => cases e; exact State.unlessError_keeps h fun _ => h.makeCodes hs
  | encode => cases e; exact State.unlessError_keeps h fun he => h.encode hs he
  | decode => cases e; exact State.unlessError_keeps h fun he => h.decode hs he
  | wbit b => cases e; exact State.unlessError_keeps h fun he => h.wbitRun hs he b
  | wclose => cases e; exact State.unlessError_keeps h fun he => h.wcloseRun hs he
  | rbit =>
    cases e
    exact State.unlessErrorResponding_keeps (h.respond hs _ none fun ha => absurd rfl ha) fun he => h.rbitRun hs he

/-- A command that goes on keeps the invariant, from any place where it may have waited. -/
theorem State.FlagsInv.resume (a : Activity) (h : (s.suspend a).FlagsInv) :
    ((s.suspend .idle).resume a).FlagsInv := by
  have hi : (s.suspend .idle).FlagsInv := h.of_tables rfl trivial
  cases a with
  | idle => exact hi
  | countRead =>
    obtain ⟨he, ht, hc, hf⟩ := h.seq
    exact .countRun rfl he ht hc hf
  | encodeRead =>
    obtain ⟨he, hc⟩ := h.seq
    exact hi.of_encode rfl he hc (encodeLoop_cases s.inp _)
  | encodeBits rest eos =>
    obtain ⟨he, hc, -⟩ := h.seq
    exact hi.of_encode rfl he hc (State.encodeResume_cases _ rest eos)
  | encodeClose =>
    obtain ⟨he, hc⟩ := h.seq
    exact hi.of_encode rfl he hc (State.encodeClose_cases _)
  | decodeRead =>
    obtain ⟨he, hv⟩ := h.seq
    exact hi.of_decode rfl he hv (State.decodeRun_cases _)
  | decodeEmit =>
    obtain ⟨he, hv⟩ := h.seq
    exact hi.of_decode rfl he hv (State.decodeEmit_cases _)
  | wbit b => exact hi.wbitRun rfl h.seq b
  | wclose => exact hi.wcloseRun rfl h.seq
  | rbitRead => exact hi.rbitRun rfl h.seq
  | respond w after => exact hi.respond rfl w after h.seq

/-- Settles O54: an idle sequencer runs a command that keeps the invariant, or raises `E_ILLCMD` and touches no table; a command
that waited goes on from a place where the invariant says what it may rely on. -/
theorem stepKeepsTheValidityFlagsTrue : Obligations.StepKeepsTheValidityFlagsTrue := by
  intro s t h hstep
  have word : ∀ ws, State.FlagsInv { s with cmd := ws } := fun _ => ⟨h.tree, h.codes, h.seq⟩
  rcases step_cases hstep with ⟨hs, w, ws, -, ⟨i, -, e⟩ | ⟨x, -, rfl⟩⟩ | ⟨-, -, rfl⟩
  · exact (word ws).exec hs i e
  · exact State.unlessError_keeps (word ws) fun _ => (word ws).of_tables rfl (State.seqOk_of_idle hs)
  · exact .resume s.seq h

end Sys2Proof.Machine
end

section
/-! SUPPORT. The bit adapters at rest (10_state R26, R27): the BitWriter holds no bit above its pending ones and the BitReader
none below its unread ones, after every operation of the two and so after every step. -/

namespace Sys2Proof.Machine

variable {s t : State}

/-! ### The BitWriter (R26) -/

/-- `BW.acc[7:BW.n] = 0` (R26). -/
abbrev State.WriterClean (s : State) : Prop := s.bwAcc.toNat < 2 ^ s.bwN.toNat

/-- Where an operation of the BitWriter leaves the machine, however it comes out. -/
def WriteResult.state : WriteResult → State
  | .done s => s
  | .raised s => s
  | .wait _ s => s

/-- An empty BitWriter with a cleared accumulator is clean. -/
theorem State.writerClean_of_empty (ha : s.bwAcc = 0) (hn : s.bwN = 0) : s.WriterClean := by
  rw [State.WriterClean, ha, hn]; decide

/-- One more pending bit reaches one bit higher. -/
theorem shiftIn_toNat_lt {acc : BitVec 8} {n : Nat} (b : Bool) (h : acc.toNat < 2 ^ n) :
    (shiftIn acc b).toNat < 2 ^ (n + 1) := by
  refine Nat.lt_pow_two_of_testBit _ fun i hi => ?_
  change (shiftIn acc b).getLsbD i = false
  by_cases h8 : i < 8
  · rw [shiftIn_getLsbD acc b i h8, if_neg (by omega)]
    exact Nat.testBit_lt_two_pow (h.trans_le (Nat.pow_le_pow_right (by decide) (by omega)))
  · exact BitVec.getLsbD_of_ge _ i (by omega)

/-- A byte offered by the BitWriter empties it, or leaves it as it was. -/
theorem State.WriterClean.flushByte (h : s.WriterClean) (byte : Byte) (rest : List Bool) :
    (s.flushByte byte rest).state.WriterClean := by
  rcases s.flushByte_cases byte rest with ⟨t, e, -, ha, hn⟩ | ⟨t, e, -, ha, hn⟩ | ⟨e, -⟩
  · rw [e]; exact State.writerClean_of_empty ha hn
  · rw [e]
    change t.bwAcc.toNat < 2 ^ t.bwN.toNat
    rw [ha, hn]; exact h
  · rw [e]; exact h

/-- `WriteBit` keeps the accumulator clean (R181). -/
theorem State.WriterClean.writeBit (h : s.WriterClean) (b : Bool) : (s.writeBit b).state.WriterClean := by
  unfold State.writeBit
  split
  · next h7 =>
    have hn : (s.bwN + 1).toNat = s.bwN.toNat + 1 := by
      rw [BitVec.toNat_add, show (1 : BitVec 3).toNat = 1 from rfl]; omega
    change (shiftIn s.bwAcc b).toNat < 2 ^ (s.bwN + 1).toNat
    rw [hn]
    exact shiftIn_toNat_lt b h
  · exact h.flushByte _ _

/-- `Close` keeps the accumulator clean (R182). -/
theorem State.WriterClean.closeWriter (h : s.WriterClean) : s.closeWriter.state.WriterClean := by
  unfold State.closeWriter
  split
  · exact h
  · exact h.flushByte _ _

/-- A bit string leaves the accumulator clean, wherever it stops. -/
theorem State.WriterClean.writeBits (bits : List Bool) : ∀ {s : State}, s.WriterClean →
    (writeBits bits s).state.WriterClean := by
  induction bits with
  | nil => intro s h; exact h
  | cons b bits ih =>
    intro s h
    have hb := h.writeBit b
    simp only [Machine.writeBits]
    cases e : s.writeBit b with
    | done u => rw [e] at hb; exact ih hb
    | raised u => rw [e] at hb; exact hb
    | wait rest u => rw [e] at hb; exact hb

/-- `WBIT` keeps the accumulator clean (R183). -/
theorem State.WriterClean.wbitRun (h : s.WriterClean) (b : Bool) : (s.wbitRun b).WriterClean := by
  have hb := h.writeBit b
  unfold State.wbitRun
  cases e : s.writeBit b <;> rw [e] at hb <;> exact hb

/-- `WCLOSE` keeps the accumulator clean (R184). -/
theorem State.WriterClean.wcloseRun (h : s.WriterClean) : s.wcloseRun.WriterClean := by
  have hc := h.closeWriter
  unfold State.wcloseRun
  cases e : s.closeWriter <;> rw [e] at hc <;> exact hc

/-- The `Close` of `ENCODE` keeps the accumulator clean (R201). -/
theorem State.WriterClean.encodeClose (h : s.WriterClean) : s.encodeClose.WriterClean := by
  have hc := h.closeWriter
  unfold State.encodeClose
  cases e : s.closeWriter <;> rw [e] at hc <;> exact hc

/-- The sentinel's code and `Close` keep the accumulator clean (R201). -/
theorem State.WriterClean.encodeEos (h : s.WriterClean) (bits : List Bool) : (s.encodeEos bits).WriterClean := by
  have hb := State.WriterClean.writeBits bits h
  unfold State.encodeEos
  cases e : Machine.writeBits bits s with
  | done u => rw [e] at hb; exact State.WriterClean.encodeClose hb
  | raised u => rw [e] at hb; exact hb
  | wait rest u => rw [e] at hb; exact hb

/-- The loop of `ENCODE` keeps the accumulator clean (R201). -/
theorem State.WriterClean.encodeLoop (ts : List Token) : ∀ {s : State}, s.WriterClean →
    (encodeLoop ts s).WriterClean := by
  induction ts with
  | nil => intro s h; exact h
  | cons tok ts ih =>
    intro s h
    cases tok with
    | failTok => exact h
    | endTok => exact State.WriterClean.encodeEos (s := { s with inp := ts }) h _
    | byte b =>
      simp only [Machine.encodeLoop]
      cases State.codeAt { s with inp := ts } (symbolOf b) with
      | none => exact h
      | some bits =>
        have hb := State.WriterClean.writeBits bits (s := { s with inp := ts }) h
        cases e : Machine.writeBits bits { s with inp := ts } with
        | done u => rw [e] at hb; simp only [e]; exact ih hb
        | raised u => rw [e] at hb; simp only [e]; exact hb
        | wait rest u => rw [e] at hb; simp only [e]; exact hb

/-- `ENCODE` that goes on inside a code keeps the accumulator clean (R201). -/
theorem State.WriterClean.encodeResume (h : s.WriterClean) (rest : List Bool) (eos : Bool) :
    (s.encodeResume rest eos).WriterClean := by
  unfold State.encodeResume
  split
  · exact h.encodeEos rest
  · have hb := State.WriterClean.writeBits rest h
    cases e : Machine.writeBits rest s with
    | done u => rw [e] at hb; exact State.WriterClean.encodeLoop u.inp hb
    | raised u => rw [e] at hb; exact hb
    | wait rest' u => rw [e] at hb; exact hb

/-! ### The BitReader (R27) -/

/-- `BR.buf[7-BR.n:0] = 0` (R27). -/
abbrev State.ReaderClean (s : State) : Prop := s.brBuf.toNat % 2 ^ (8 - s.brN.toNat) = 0

/-- A cleared buffer is clean. -/
theorem State.readerClean_of_empty (hb : s.brBuf = 0) : s.ReaderClean := by
  rw [State.ReaderClean, hb]; exact Nat.zero_mod _

/-- Where `ReadBit` in `s` leaves the machine; a wait is in `s` itself. -/
def ReadResult.stateFrom (s : State) : ReadResult → State
  | .bit _ t => t
  | .eosSig t => t
  | .failed t => t
  | .wait => s

/-- The buffer without its first unread bit has one bit more below the unread ones. -/
theorem shiftLeft_one_mod_of_unread {buf : BitVec 8} {n : BitVec 3} (hn : n ≠ 0)
    (h : buf.toNat % 2 ^ (8 - n.toNat) = 0) : (buf <<< 1).toNat % 2 ^ (8 - (n - 1).toNat) = 0 := by
  have h0 : n.toNat ≠ 0 := fun e => hn (BitVec.eq_of_toNat_eq e)
  have hlt := n.isLt
  have hs : 8 - (n - 1).toNat = 8 - n.toNat + 1 := by
    rw [BitVec.toNat_sub, show (1 : BitVec 3).toNat = 1 from rfl]; omega
  obtain ⟨k, hk⟩ := Nat.dvd_of_mod_eq_zero h
  rw [hs, BitVec.toNat_shiftLeft, Nat.shiftLeft_eq, hk]
  refine Nat.mod_eq_zero_of_dvd ((Nat.dvd_mod_iff (pow_dvd_pow 2 (by omega))).2 ⟨k, ?_⟩)
  rw [Nat.pow_succ]; ring

/-- A byte without its first bit ends in a 0. -/
theorem shiftLeft_one_mod_two (v : Byte) : (v <<< 1).toNat % 2 = 0 := by
  rw [BitVec.toNat_shiftLeft, Nat.shiftLeft_eq]; omega

/-- `ReadBit` keeps the buffer clean (R185). -/
theorem State.ReaderClean.readBit (h : s.ReaderClean) : (s.readBit.stateFrom s).ReaderClean := by
  rcases s.readBit_cases with ⟨c, e, -, hn⟩ | ⟨v, ts, e, -⟩ | ⟨e, -⟩ | ⟨ts, e, -⟩ | ⟨ts, e, -⟩ | ⟨e, -⟩
  · rw [e]; exact shiftLeft_one_mod_of_unread hn h
  · rw [e]; exact shiftLeft_one_mod_two v
  · rw [e]; exact h
  · rw [e]; exact h
  · rw [e]; exact h
  · rw [e]; exact h

/-- A response leaves the buffer as it is. -/
theorem State.ReaderClean.respond (h : s.ReaderClean) (w : Word64) (after : Option (ErrCode × Info)) :
    (s.respond w after).ReaderClean := by
  rw [s.respond_frame w after]; exact h

/-- `RBIT` keeps the buffer clean (R186). -/
theorem State.ReaderClean.rbitRun (h : s.ReaderClean) : s.rbitRun.ReaderClean := by
  have hb := h.readBit
  unfold State.rbitRun
  cases e : s.readBit with
  | bit b u => rw [e] at hb; exact State.ReaderClean.respond hb _ _
  | eosSig u => rw [e] at hb; exact State.ReaderClean.respond hb _ _
  | failed u => rw [e] at hb; exact State.ReaderClean.respond hb _ _
  | wait => exact h

/-- The walk of `DECODE` keeps the buffer clean (R216). -/
theorem State.ReaderClean.decodeWalk (k : Nat) : ∀ {s : State}, s.ReaderClean → (decodeWalk k s).ReaderClean := by
  induction k with
  | zero => intro s h; exact h
  | succ k ih =>
    intro s h
    have hb := h.readBit
    cases e : s.readBit with
    | wait => simp only [Machine.decodeWalk, e]; exact h
    | failed u => rw [e] at hb; simp only [Machine.decodeWalk, e]; exact hb
    | eosSig u => rw [e] at hb; simp only [Machine.decodeWalk, e]; exact hb
    | bit b u =>
      rw [e] at hb
      have hd : (u.descend b).ReaderClean := hb
      rw [decodeWalk_bit e]
      cases ((u.descend b).nodeAt (u.descend b).cur).kind with
      | internal => exact ih hd
      | leaf =>
        simp only [leafTurn]
        split
        · exact hd
        · rcases (u.descend b).sinkWrite_cases (emittedByte (u.descend b).cur) with
            ⟨as, e', -⟩ | ⟨as, e', -⟩ | ⟨e', -⟩
          · rw [e']; exact ih hd
          · rw [e']; exact hd
          · rw [e']; exact hd

/-- `DECODE` from where it reads a bit keeps the buffer clean (R216, R218). -/
theorem State.ReaderClean.decodeRun (h : s.ReaderClean) : s.decodeRun.ReaderClean := by
  unfold State.decodeRun
  split
  · have hb := h.readBit
    unfold State.decodeLeafRoot
    cases e : s.readBit with
    | bit b u => rw [e] at hb; cases b <;> exact hb
    | eosSig u => rw [e] at hb; exact hb
    | failed u => rw [e] at hb; exact hb
    | wait => exact h
  · exact State.ReaderClean.decodeWalk _ h

/-- `DECODE` from where it offers a byte keeps the buffer clean (R216). -/
theorem State.ReaderClean.decodeEmit (h : s.ReaderClean) : s.decodeEmit.ReaderClean := by
  unfold State.decodeEmit
  rcases s.sinkWrite_cases (emittedByte s.cur) with ⟨as, e, -⟩ | ⟨as, e, -⟩ | ⟨e, -⟩
  · rw [e]; exact State.ReaderClean.decodeRun h
  · rw [e]; exact h
  · rw [e]; exact h

/-! ### Both adapters -/

/-- A command that does not touch the BitReader and leaves the BitWriter clean. -/
theorem State.BitsOk.of_writer (h : s.BitsOk) (ht : t.WriterClean) (hf : t.brBuf = s.brBuf ∧ t.brN = s.brN) :
    t.BitsOk := by
  refine ⟨ht, ?_⟩
  rw [hf.1, hf.2]; exact h.2

/-- A command that does not touch the BitWriter and leaves the BitReader clean. -/
theorem State.BitsOk.of_reader (h : s.BitsOk) (ht : t.ReaderClean) (hf : t.bwAcc = s.bwAcc ∧ t.bwN = s.bwN) :
    t.BitsOk := by
  refine ⟨?_, ht⟩
  rw [hf.1, hf.2]; exact h.1

/-- Cleared adapters are clean. -/
theorem State.bitsOk_clear (s : State) : s.clear.BitsOk :=
  ⟨State.writerClean_of_empty rfl rfl, State.readerClean_of_empty rfl⟩

/-- A response touches neither adapter. -/
theorem State.BitsOk.respond (h : s.BitsOk) (w : Word64) (after : Option (ErrCode × Info)) :
    (s.respond w after).BitsOk := by
  rw [s.respond_frame w after]; exact h

/-- `RDF` touches neither adapter. -/
theorem State.BitsOk.readFreq (h : s.BitsOk) (i : Nat) : (s.readFreq i).BitsOk := by
  obtain ⟨w, after, e, -⟩ := s.readFreq_cases i
  rw [e]; exact h.respond w after

/-- `COUNT` touches neither adapter. -/
theorem State.BitsOk.countRun (h : s.BitsOk) : s.countRun.BitsOk := by
  rw [State.countRun, (countLoop_cases s.inp s).1]; exact h

/-- `WRF` touches neither adapter. -/
theorem State.BitsOk.writeFreq (h : s.BitsOk) (i : Nat) (v : Count) : (s.writeFreq i v).BitsOk := by
  unfold State.writeFreq; split <;> exact h

/-- `BUILD` touches neither adapter. -/
theorem State.BitsOk.build (h : s.BitsOk) : s.build.BitsOk := by
  unfold State.build; split <;> exact h

/-- `MKCODE` touches neither adapter. -/
theorem State.BitsOk.makeCodes (h : s.BitsOk) : s.makeCodes.BitsOk := by
  unfold State.makeCodes; split <;> exact h

/-- What a run of `ENCODE` does touches the BitWriter alone. -/
theorem State.BitsOk.of_encode (h : s.BitsOk) (hf : t = s.withEncode t) (ht : t.WriterClean) : t.BitsOk :=
  h.of_writer ht (by rw [hf]; exact ⟨rfl, rfl⟩)

/-- What a run of `DECODE` does touches the BitReader alone. -/
theorem State.BitsOk.of_decode (h : s.BitsOk) (hf : t = s.withDecode t) (ht : t.ReaderClean) : t.BitsOk :=
  h.of_reader ht (by rw [hf]; exact ⟨rfl, rfl⟩)

/-- `ENCODE` keeps both adapters clean. -/
theorem State.BitsOk.encode (h : s.BitsOk) : s.encode.BitsOk := by
  rcases s.encode_cases with ⟨e, -⟩ | ⟨e, -⟩
  · rw [e]; exact h
  · rw [e]; exact h.of_encode (encodeLoop_cases s.inp s).1 (.encodeLoop s.inp h.1)

/-- `DECODE`, which starts with an empty BitReader, keeps both adapters clean. -/
theorem State.BitsOk.decode (h : s.BitsOk) : s.decode.BitsOk := by
  have hs : s.decodeStart.ReaderClean := State.readerClean_of_empty rfl
  unfold State.decode
  split
  · exact State.BitsOk.of_decode (s := s.decodeStart) ⟨h.1, hs⟩ s.decodeStart.decodeRun_cases.1 hs.decodeRun
  · exact h

/-- `WBIT` touches the BitWriter alone. -/
theorem State.BitsOk.wbitRun (h : s.BitsOk) (b : Bool) : (s.wbitRun b).BitsOk :=
  h.of_writer (State.WriterClean.wbitRun h.1 b) (by rw [(s.wbitRun_cases b).1]; exact ⟨rfl, rfl⟩)

/-- `WCLOSE` touches the BitWriter alone. -/
theorem State.BitsOk.wcloseRun (h : s.BitsOk) : s.wcloseRun.BitsOk :=
  h.of_writer (State.WriterClean.wcloseRun h.1) (by rw [s.wcloseRun_cases.1]; exact ⟨rfl, rfl⟩)

/-- `RBIT` touches the BitReader alone. -/
theorem State.BitsOk.rbitRun (h : s.BitsOk) : s.rbitRun.BitsOk := by
  refine h.of_reader (State.ReaderClean.rbitRun h.2) ?_
  rcases s.rbitRun_cases with ⟨r, w, after, e, -⟩ | e
  · rw [e, State.respond_frame]; exact ⟨rfl, rfl⟩
  · rw [e]; exact ⟨rfl, rfl⟩

/-! ### A step -/

/-- Every command keeps the adapters clean. -/
theorem State.BitsOk.exec (h : s.BitsOk) (i : Instr) (e : exec i s = .next t) : t.BitsOk := by
  cases i with
  | nop => cases e; exact h
  | clr => cases e; exact s.bitsOk_clear
  | rds => cases e; exact h.respond _ none
  | count => cases e; exact State.unlessError_keeps h fun _ => State.BitsOk.countRun h
  | wrf idx val => cases e; exact State.unlessError_keeps h fun _ => h.writeFreq idx val
  | rdf idx => cases e; exact State.unlessErrorResponding_keeps (h.respond _ none) fun _ => h.readFreq idx
  | build => cases e; exact State.unlessError_keeps h fun _ => h.build
  | mkcode => cases e; exact State.unlessError_keeps h fun _ => h.makeCodes
  | encode => cases e; exact State.unlessError_keeps h fun _ => h.encode
  | decode => cases e; exact State.unlessError_keeps h fun _ => h.decode
  | wbit b => cases e; exact State.unlessError_keeps h fun _ => h.wbitRun b
  | wclose => cases e; exact State.unlessError_keeps h fun _ => h.wcloseRun
  | rbit => cases e; exact State.unlessErrorResponding_keeps (h.respond _ none) fun _ => h.rbitRun

/-- A command that goes on keeps the adapters clean. -/
theorem State.BitsOk.resume (h : s.BitsOk) (a : Activity) : (s.resume a).BitsOk := by
  cases a with
  | idle => exact h
  | countRead => exact h.countRun
  | encodeRead => exact h.of_encode (encodeLoop_cases s.inp s).1 (.encodeLoop s.inp h.1)
  | encodeBits rest eos =>
    exact h.of_encode (s.encodeResume_cases rest eos).1 (State.WriterClean.encodeResume h.1 rest eos)
  | encodeClose => exact h.of_encode s.encodeClose_cases.1 (State.WriterClean.encodeClose h.1)
  | decodeRead => exact h.of_decode s.decodeRun_cases.1 (State.ReaderClean.decodeRun h.2)
  | decodeEmit => exact h.of_decode s.decodeEmit_cases.1 (State.ReaderClean.decodeEmit h.2)
  | wbit b => exact h.wbitRun b
  | wclose => exact h.wcloseRun
  | rbitRead => exact h.rbitRun
  | respond w after => exact h.respond w after

/-- Settles O55: each operation of the BitWriter leaves its accumulator clean and each `ReadBit` its buffer, and no command
reaches the adapters otherwise. -/
theorem stepKeepsTheBitAdaptersClean : Obligations.StepKeepsTheBitAdaptersClean := by
  intro s t h hstep
  have word : ∀ ws, State.BitsOk { s with cmd := ws } := fun _ => h
  rcases step_cases hstep with ⟨-, w, ws, -, ⟨i, -, e⟩ | ⟨x, -, rfl⟩⟩ | ⟨-, -, rfl⟩
  · exact (word ws).exec i e
  · exact State.unlessError_keeps (word ws) fun _ => word ws
  · exact State.BitsOk.resume (s := s.suspend .idle) h s.seq

end Sys2Proof.Machine
end

section
/-! SUPPORT. The queue between commands (10_state R29), the status word (R33), and what reset and `CLR` leave (R36, R302). -/

namespace Sys2Proof.Machine

variable {s t : State}

/-! ### The queue (R29) -/

/-- The members of `PQ` in a tree that `BUILD` made: none, since its root was taken out last (R148). -/
theorem buildTree_pq {f : FreqTable} (h : countIn f 256 = 1) : (buildTree f).pq = [] :=
  (buildTree_built (by rw [h]; decide)).queue

/-- `BUILD` empties the queue, or leaves it (R146, R148). -/
theorem State.QueueOk.build (h : s.QueueOk) : s.build.QueueOk := by
  unfold State.build
  split
  · next hf => exact buildTree_pq hf
  · exact h

/-- A response leaves the queue. -/
theorem State.respond_pq (s : State) (w : Word64) (after : Option (ErrCode × Info)) :
    (s.respond w after).pq = s.pq := by
  rw [s.respond_frame w after]; rfl

/-- `RDF` leaves the queue. -/
theorem State.readFreq_pq (s : State) (i : Nat) : (s.readFreq i).pq = s.pq := by
  obtain ⟨w, after, e, -⟩ := s.readFreq_cases i
  rw [e, State.respond_pq]

/-- `RBIT` leaves the queue. -/
theorem State.rbitRun_pq (s : State) : s.rbitRun.pq = s.pq := by
  rcases s.rbitRun_cases with ⟨r, w, after, e, -⟩ | e
  · rw [e, State.respond_pq]; rfl
  · rw [e]; rfl

/-- `COUNT` leaves the queue. -/
theorem State.countRun_pq (s : State) : s.countRun.pq = s.pq := by
  rw [State.countRun, (countLoop_cases s.inp s).1]; rfl

/-- `WRF` leaves the queue. -/
theorem State.writeFreq_pq (s : State) (i : Nat) (v : Count) : (s.writeFreq i v).pq = s.pq := by
  unfold State.writeFreq; split <;> rfl

/-- `MKCODE` leaves the queue. -/
theorem State.makeCodes_pq (s : State) : s.makeCodes.pq = s.pq := by
  unfold State.makeCodes; split <;> rfl

/-- What a run of `ENCODE` does leaves the queue. -/
theorem pq_of_withEncode (hf : t = s.withEncode t) : t.pq = s.pq := by rw [hf]; rfl

/-- What a run of `DECODE` does leaves the queue. -/
theorem pq_of_withDecode (hf : t = s.withDecode t) : t.pq = s.pq := by rw [hf]; rfl

/-- What `WBIT` and `WCLOSE` do leaves the queue. -/
theorem pq_of_withWriterEnd (hf : t = s.withWriterEnd t) : t.pq = s.pq := by rw [hf]; rfl

/-- `ENCODE` leaves the queue. -/
theorem State.encode_pq (s : State) : s.encode.pq = s.pq := by
  rcases s.encode_cases with ⟨e, -⟩ | ⟨e, -⟩
  · rw [e]; rfl
  · rw [e]; exact pq_of_withEncode (encodeLoop_cases s.inp s).1

/-- `DECODE` leaves the queue. -/
theorem State.decode_pq (s : State) : s.decode.pq = s.pq := by
  unfold State.decode
  split
  · exact pq_of_withDecode s.decodeStart.decodeRun_cases.1
  · rfl

/-- Every command leaves an empty queue empty. -/
theorem State.QueueOk.exec (h : s.QueueOk) (i : Instr) (e : exec i s = .next t) : t.QueueOk := by
  have hr : (s.respond zeroResponse none).QueueOk := (s.respond_pq _ _).trans h
  cases i with
  | nop => cases e; exact h
  | clr => cases e; rfl
  | rds => cases e; exact (s.respond_pq _ none).trans h
  | count => cases e; exact State.unlessError_keeps h fun _ => s.countStart.countRun_pq.trans h
  | wrf idx val => cases e; exact State.unlessError_keeps h fun _ => (s.writeFreq_pq idx val).trans h
  | rdf idx => cases e; exact State.unlessErrorResponding_keeps hr fun _ => (s.readFreq_pq idx).trans h
  | build => cases e; exact State.unlessError_keeps h fun _ => State.QueueOk.build h
  | mkcode => cases e; exact State.unlessError_keeps h fun _ => s.makeCodes_pq.trans h
  | encode => cases e; exact State.unlessError_keeps h fun _ => s.encode_pq.trans h
  | decode => cases e; exact State.unlessError_keeps h fun _ => s.decode_pq.trans h
  | wbit b =>
    cases e; exact State.unlessError_keeps h fun _ => (pq_of_withWriterEnd (s.wbitRun_cases b).1).trans h
  | wclose =>
    cases e; exact State.unlessError_keeps h fun _ => (pq_of_withWriterEnd s.wcloseRun_cases.1).trans h
  | rbit => cases e; exact State.unlessErrorResponding_keeps hr fun _ => s.rbitRun_pq.trans h

/-- A command that goes on leaves the queue: no `BUILD` waits. -/
theorem State.resume_pq (s : State) (a : Activity) : (s.resume a).pq = s.pq := by
  cases a with
  | idle => rfl
  | countRead => exact s.countRun_pq
  | encodeRead => exact pq_of_withEncode (encodeLoop_cases s.inp s).1
  | encodeBits rest eos => exact pq_of_withEncode (s.encodeResume_cases rest eos).1
  | encodeClose => exact pq_of_withEncode s.encodeClose_cases.1
  | decodeRead => exact pq_of_withDecode s.decodeRun_cases.1
  | decodeEmit => exact pq_of_withDecode s.decodeEmit_cases.1
  | wbit b => exact pq_of_withWriterEnd (s.wbitRun_cases b).1
  | wclose => exact pq_of_withWriterEnd s.wcloseRun_cases.1
  | rbitRead => exact s.rbitRun_pq
  | respond w after => exact s.respond_pq w after

/-- Settles O56: `BUILD` takes its root out of the queue as the last member, and nothing else touches the queue but `CLR`, which
empties it. -/
theorem stepKeepsTheQueueEmpty : Obligations.StepKeepsTheQueueEmpty := by
  intro s t h hstep
  have word : ∀ ws, State.QueueOk { s with cmd := ws } := fun _ => h
  rcases step_cases hstep with ⟨-, w, ws, -, ⟨i, -, e⟩ | ⟨x, -, rfl⟩⟩ | ⟨-, -, rfl⟩
  · exact State.QueueOk.exec (word ws) i e
  · exact State.unlessError_keeps (word ws) fun _ => word ws
  · exact (State.resume_pq _ s.seq).trans h

/-! ### The status word (R33) -/

/-- One bit placed at `k`. -/
theorem bitAt_getLsbD (b : Bool) (k i : Nat) (hk : k < 64) : (bitAt b k).getLsbD i = (decide (i = k) && b) := by
  simp only [bitAt, BitVec.getLsbD_shiftLeft, BitVec.getLsbD_setWidth, BitVec.getLsbD_ofBool]
  by_cases h : i = k
  · subst h; simp [hk]
  · by_cases hi : i < k
    · simp [h, hi]
    · simp [h, show i - k ≠ 0 by omega]

/-- A field placed at `k`. -/
theorem fieldAt_getLsbD {n : Nat} (x : BitVec n) (k i : Nat) (hk : n + k ≤ 64) :
    (x.setWidth 64 <<< k).getLsbD i = (decide (k ≤ i) && x.getLsbD (i - k)) := by
  simp only [BitVec.getLsbD_shiftLeft, BitVec.getLsbD_setWidth]
  by_cases h : i < k
  · simp [h, Nat.not_le.mpr h]
  · by_cases h64 : i < 64
    · simp [h64, h, Nat.le_of_not_lt h, show i - k < 64 by omega]
    · simp [h64, BitVec.getLsbD_of_ge x (i - k) (by omega)]

/-- Each bit of the status word, by the fields that reach it (R33). -/
theorem State.statusWord_getLsbD (s : State) (i : Nat) : s.statusWord.getLsbD i =
    (decide (i = 63)
      || (decide (40 ≤ i) && s.brBuf.getLsbD (i - 40)) || (decide (32 ≤ i) && s.bwAcc.getLsbD (i - 32))
      || (decide (23 ≤ i) && s.brN.getLsbD (i - 23)) || (decide (20 ≤ i) && s.bwN.getLsbD (i - 20))
      || (decide (i = 19) && s.brEof) || (decide (i = 18) && s.codesValid) || (decide (i = 17) && s.treeValid)
      || (decide (8 ≤ i) && s.errInfo.getLsbD (i - 8)) || s.err.code.getLsbD i) := by
  have he : (s.err.code.setWidth 64).getLsbD i = s.err.code.getLsbD i := by
    simpa using fieldAt_getLsbD s.err.code 0 i (by decide)
  simp only [State.statusWord, BitVec.getLsbD_or, bitAt_getLsbD _ _ _ (show 63 < 64 by decide),
    bitAt_getLsbD _ _ _ (show 19 < 64 by decide), bitAt_getLsbD _ _ _ (show 18 < 64 by decide),
    bitAt_getLsbD _ _ _ (show 17 < 64 by decide), fieldAt_getLsbD _ _ _ (show 8 + 40 ≤ 64 by decide),
    fieldAt_getLsbD _ _ _ (show 8 + 32 ≤ 64 by decide), fieldAt_getLsbD _ _ _ (show 3 + 23 ≤ 64 by decide),
    fieldAt_getLsbD _ _ _ (show 3 + 20 ≤ 64 by decide), fieldAt_getLsbD _ _ _ (show 9 + 8 ≤ 64 by decide), he,
    Bool.and_true]

/-- A field of a word, bit by bit. -/
theorem extractLsb'_eq_of_getLsbD {n : Nat} {w : Word64} {k : Nat} {x : BitVec n}
    (h : ∀ j < n, w.getLsbD (k + j) = x.getLsbD j) : w.extractLsb' k n = x := by
  apply BitVec.eq_of_getLsbD_eq
  intro j hj
  rw [BitVec.getLsbD_extractLsb', h j hj]
  simp [hj]

/-- The four single bits of the status word. -/
theorem State.statusWord_bits (s : State) :
    s.statusWord.getLsbD 63 = true ∧ s.statusWord.getLsbD 19 = s.brEof ∧ s.statusWord.getLsbD 18 = s.codesValid
      ∧ s.statusWord.getLsbD 17 = s.treeValid := by
  refine ⟨?_, ?_, ?_, ?_⟩
  all_goals
    simp (disch := omega) only [State.statusWord_getLsbD, BitVec.getLsbD_of_ge, decide_eq_true, decide_eq_false]
    simp

/-- The fields of the status word and its two gaps. -/
theorem State.statusWord_fields (s : State) :
    s.statusWord.extractLsb' 48 15 = 0 ∧ s.statusWord.extractLsb' 40 8 = s.brBuf
      ∧ s.statusWord.extractLsb' 32 8 = s.bwAcc ∧ s.statusWord.extractLsb' 26 6 = 0
      ∧ s.statusWord.extractLsb' 23 3 = s.brN ∧ s.statusWord.extractLsb' 20 3 = s.bwN
      ∧ s.statusWord.extractLsb' 8 9 = s.errInfo ∧ s.statusWord.extractLsb' 0 8 = s.err.code := by
  refine ⟨?_, ?_, ?_, ?_, ?_, ?_, ?_, ?_⟩
  all_goals
    refine extractLsb'_eq_of_getLsbD fun j hj => ?_
    simp (disch := omega) only [State.statusWord_getLsbD, BitVec.getLsbD_of_ge, decide_eq_true, decide_eq_false,
      Nat.add_sub_cancel_left]
    simp

/-- Settles O11: `RDS` responds the status word, and at each bit of a field that field is the only part of the word that
reaches it. -/
theorem rdsRespondsTheStatusFields : Obligations.RdsRespondsTheStatusFields := by
  intro s hr
  obtain ⟨hvalid, heof, hcodes, htree⟩ := s.statusWord_bits
  obtain ⟨hgap, hbuf, hacc, hgap', hbrN, hbwN, hinfo, herr⟩ := s.statusWord_fields
  exact ⟨s.statusWord, congrArg Host.Outcome.next (s.respond_of_takes _ none hr), hvalid, hgap, hbuf, hacc, hgap', hbrN, hbwN,
    heof, hcodes, htree, hinfo, herr⟩

/-! ### Reset and `CLR` (R36, R302) -/

/-- Clearing leaves every row of R36's table at its value. -/
theorem State.clear_cleared (s : State) : s.clear.Cleared where
  freq i := tableGet_replicate 257 0#32 i
  node n := nodeIn_replicate n
  pointers := ⟨rfl, rfl, rfl⟩
  code i := by
    have h : s.clear.codeAt i = none := tableGet_replicate 257 none i
    rw [h]; exact ⟨rfl, rfl, rfl⟩
  writer := ⟨rfl, rfl⟩
  reader := ⟨rfl, rfl, rfl⟩
  queue := rfl
  flags := ⟨rfl, rfl⟩
  error := ⟨rfl, rfl⟩
  levels := ⟨rfl, rfl⟩

/-- Clearing the state after reset changes nothing. -/
theorem State.reset_clear : State.reset.clear = State.reset := rfl

/-- An idle sequencer that is offered a word takes it. -/
theorem step_of_word {w : Word64} {ws : List Word64} (hs : s.seq = .idle) (hc : s.cmd = w :: ws) :
    step s = runWord w { s with cmd := ws } := by
  simp [step, advance, hs, hc, waitingPort, State.portReady, State.takeCommand]

/-- Settles O12: reset and `CLR` are the same clearing, and `CLR`'s word decodes to it. -/
theorem resetAndClrLeaveEverythingCleared : Obligations.ResetAndClrLeaveEverythingCleared := by
  refine ⟨State.reset_clear ▸ State.reset.clear_cleared, fun s => ⟨rfl, s.clear_cleared, rfl, rfl, rfl, rfl, rfl, rfl, rfl⟩,
    fun s t e => ?_, fun s ws hs hc => ?_⟩
  · cases e; exact ⟨s.clear_cleared, rfl⟩
  · have hd : decode 0x0100000000000000#64 = .instr .clr := by decide
    rw [step_of_word hs hc, runWord, hd]; rfl

/-- Settles O58: at reset both flags are 0, the sequencer is idle, the adapters are cleared and the queue is empty. -/
theorem resetMeetsTheInvariants : Obligations.ResetMeetsTheInvariants :=
  ⟨.of_flags_clear rfl rfl (State.seqOk_of_idle rfl), State.reset_clear ▸ State.reset.bitsOk_clear, rfl⟩

end Sys2Proof.Machine
end

section
/-! SUPPORT. Where the machine stands still (20_memory R81): a step faults exactly when the port it waits on is not supplied, and
nothing else stops it. -/

namespace Sys2Proof.Machine

variable {s t : State}

/-! ### The port of a wait and its supply -/

/-- Only an idle sequencer waits on CMD. -/
theorem waitingPort_eq_cmd {a : Activity} : waitingPort a = .cmd ↔ a = .idle := by
  cases a <;> simp [waitingPort]

/-- The places that wait on IN. -/
theorem waitingPort_eq_inp {a : Activity} :
    waitingPort a = .inp ↔ a ∈ [Activity.countRead, .encodeRead, .decodeRead, .rbitRead] := by
  cases a <;> simp [waitingPort]

/-- The places that wait on OUT. -/
theorem waitingPort_eq_out {a : Activity} :
    waitingPort a = .out ↔ (∃ rest eos, a = .encodeBits rest eos) ∨ (∃ b, a = .wbit b)
      ∨ a ∈ [Activity.encodeClose, .decodeEmit, .wclose] := by
  cases a <;> simp [waitingPort]

/-- Only a response waits on RSP. -/
theorem waitingPort_eq_rsp {a : Activity} : waitingPort a = .rsp ↔ ∃ w after, a = .respond w after := by
  cases a <;> simp [waitingPort]

theorem State.portReady_cmd_eq_false : s.portReady .cmd = false ↔ s.cmd = [] := by simp [State.portReady]

theorem State.portReady_inp_eq_false : s.portReady .inp = false ↔ s.inp = [] := by simp [State.portReady]

theorem State.portReady_out_eq_false : s.portReady .out = false ↔ s.sinkNext = [] ∧ s.sinkRest = none := by
  simp [State.portReady]

theorem State.portReady_rsp_eq_false : s.portReady .rsp = false ↔ s.rspRoom = some 0 := by simp [State.portReady]

/-- Each port's wait has a name of its own. -/
theorem waitFault_inj {p q : Port} : waitFault p = waitFault q ↔ p = q := by
  cases p <;> cases q <;> simp [waitFault]

/-! ### A step -/

/-- A command answers a next state, in every state. -/
theorem exec_next (i : Instr) (s : State) : ∃ t, exec i s = .next t := by
  cases i <;> exact ⟨_, rfl⟩

/-- An accepted word runs to a next state, whether or not it decodes to a command. -/
theorem runWord_next (w : Word64) (s : State) : ∃ t, runWord w s = .next t := by
  unfold runWord
  split
  · next i _ => exact exec_next i s
  · exact ⟨_, rfl⟩

/-- What a command that waits does once its port is supplied; an idle sequencer stays as it is. -/
def State.goOn (s : State) : State := (s.suspend .idle).resume s.seq

/-- A command whose port is supplied goes on. -/
theorem step_of_waiting (hs : s.seq ≠ .idle) (hp : s.portReady (waitingPort s.seq) = true) : step s = .next s.goOn := by
  rw [step, if_pos hp, advance]
  split
  · next h => exact absurd h hs
  · rfl

/-- A step whose port is supplied answers a next state. -/
theorem step_next_of_ready (hp : s.portReady (waitingPort s.seq) = true) : ∃ t, step s = .next t := by
  by_cases hs : s.seq = .idle
  · cases hc : s.cmd with
    | nil => simp [hs, waitingPort, State.portReady, hc] at hp
    | cons w ws => rw [step_of_word hs hc]; exact runWord_next _ _
  · exact ⟨_, step_of_waiting hs hp⟩

/-- A step faults with the name of its wait exactly when the port is not supplied (R81). -/
theorem step_eq_fault_iff (p : Port) :
    step s = .fault (waitFault p) ↔ waitingPort s.seq = p ∧ s.portReady p = false := by
  cases hp : s.portReady (waitingPort s.seq) with
  | true =>
    obtain ⟨t, e⟩ := step_next_of_ready hp
    rw [e]
    exact ⟨nofun, fun ⟨h, hf⟩ => absurd (h ▸ hf) (by rw [hp]; decide)⟩
  | false =>
    rw [step, if_neg (by rw [hp]; decide), Host.Outcome.fault.injEq, waitFault_inj]
    exact ⟨fun h => ⟨h, h ▸ hp⟩, And.left⟩

/-- No step is refused. -/
theorem step_ne_refused (s : State) (r : Refusal) : step s ≠ .refused r := by
  cases hp : s.portReady (waitingPort s.seq) with
  | true => obtain ⟨t, e⟩ := step_next_of_ready hp; rw [e]; exact nofun
  | false => rw [step, if_neg (by rw [hp]; decide)]; exact nofun

/-- Settles O9: a step faults exactly where the port of its wait is not supplied, and each place waits on one port. -/
theorem stepStopsOnlyToWait : Obligations.StepStopsOnlyToWait := by
  intro s
  refine ⟨step_ne_refused s, ?_, ?_, ?_, ?_⟩
  · rw [← waitingPort_eq_cmd, ← State.portReady_cmd_eq_false]; exact step_eq_fault_iff .cmd
  · rw [← waitingPort_eq_inp, ← State.portReady_inp_eq_false]; exact step_eq_fault_iff .inp
  · rw [← waitingPort_eq_rsp, ← State.portReady_rsp_eq_false]; exact step_eq_fault_iff .rsp
  · rw [← waitingPort_eq_out, ← State.portReady_out_eq_false]; exact step_eq_fault_iff .out

end Sys2Proof.Machine
end

section
/-! SUPPORT. What the commands do at the ports: the sink's answers (20_memory R68), an index that names no entry (R62), the words
that the responding commands send (R70, R96), and what the HOST's actions leave true (R80). -/

namespace Sys2Proof.Machine

variable {s t : State}

/-! ### The sink (R68) -/

/-- Settles O35: the next listed answer decides, else the standing one, and with neither there is no outcome. -/
theorem sinkWriteFollowsTheAnswer : Obligations.SinkWriteFollowsTheAnswer := by
  intro s b
  refine ⟨fun as h => ?_, fun as h => ?_, fun h hr => ?_, fun h hr => ?_, fun h hr => s.sinkWrite_of_sinkSilent b ⟨h, hr⟩⟩
  · simp only [State.sinkWrite, State.sinkAnswer, h]
  · simp only [State.sinkWrite, State.sinkAnswer, h]
  · simp only [State.sinkWrite, State.sinkAnswer, h, hr]
  · simp only [State.sinkWrite, State.sinkAnswer, h, hr]

/-! ### An index that names no entry (R62) -/

/-- Stage 4 stops every index past the sentinel's. -/
theorem indexLegal_eq_false {idx : Nat} (h : 256 < idx) : indexLegal idx = false := by
  simpa [indexLegal] using h

/-- `WRF` of no entry raises `E_INDEX` alone (R136). -/
theorem State.writeFreq_of_illegal (s : State) {idx : Nat} (v : Count) (h : 256 < idx) :
    s.writeFreq idx v = s.raise .index (indexInfo idx) := by
  simp [State.writeFreq, indexLegal_eq_false h]

/-- `RDF` of no entry responds the zero word before `E_INDEX` (R137). -/
theorem State.readFreq_of_illegal (s : State) {idx : Nat} (h : 256 < idx) :
    s.readFreq idx = s.respond zeroResponse (some (.index, indexInfo idx)) := by
  simp [State.readFreq, indexLegal_eq_false h]

/-- Settles O18: stage 4 stops the index, before `WRF` writes and before `RDF` reads. -/
theorem indexPastSentinelRaisesIndex : Obligations.IndexPastSentinelRaisesIndex := by
  rintro s idx val ⟨-, he⟩ hidx -
  refine ⟨congrArg Host.Outcome.next ?_, fun hr => congrArg Host.Outcome.next ?_⟩
  · rw [s.unlessError_of_ok _ he, s.writeFreq_of_illegal val hidx]; rfl
  · rw [s.unlessErrorResponding_of_ok _ he, s.readFreq_of_illegal hidx, s.respond_of_takes _ _ hr]; rfl

/-! ### Responses (R70, R96) -/

@[simp] theorem State.afterRespond_rsp (s : State) (after : Option (ErrCode × Info)) :
    (s.afterRespond after).rsp = s.rsp := by
  cases after <;> rfl

/-- A discarded command sends nothing, so a command sends what its later stages send. -/
theorem State.unlessError_rsp {body : State → State} (hb : (body s).rsp = s.rsp) : (s.unlessError body).rsp = s.rsp :=
  State.unlessError_keeps (P := fun t => t.rsp = s.rsp) rfl fun _ => hb

/-- `ENCODE` sends no word. -/
theorem State.encode_rsp (s : State) : s.encode.rsp = s.rsp := by
  rcases s.encode_cases with ⟨e, -⟩ | ⟨e, -⟩
  · rw [e]; rfl
  · rw [e, (encodeLoop_cases s.inp s).1]; rfl

/-- `DECODE` sends no word. -/
theorem State.decode_rsp (s : State) : s.decode.rsp = s.rsp := by
  unfold State.decode
  split
  · rw [s.decodeStart.decodeRun_cases.1]; rfl
  · rfl

/-- A command that does not respond sends no word. -/
theorem exec_rsp_of_not_responds {i : Instr} (hi : responds i = false) (e : exec i s = .next t) : t.rsp = s.rsp := by
  cases i with
  | nop => cases e; rfl
  | clr => cases e; rfl
  | rds => cases hi
  | rdf idx => cases hi
  | rbit => cases hi
  | count => cases e; exact State.unlessError_rsp (by rw [State.countRun, (countLoop_cases _ _).1]; rfl)
  | wrf idx val => cases e; exact State.unlessError_rsp (by unfold State.writeFreq; split <;> rfl)
  | build => cases e; exact State.unlessError_rsp (by unfold State.build; split <;> rfl)
  | mkcode => cases e; exact State.unlessError_rsp (by unfold State.makeCodes; split <;> rfl)
  | encode => cases e; exact State.unlessError_rsp s.encode_rsp
  | decode => cases e; exact State.unlessError_rsp s.decode_rsp
  | wbit b => cases e; exact State.unlessError_rsp (by rw [(s.wbitRun_cases b).1]; rfl)
  | wclose => cases e; exact State.unlessError_rsp (by rw [s.wcloseRun_cases.1]; rfl)

/-- `ReadBit` waits exactly with no bit held, the source not known to have ended and no token on IN (R185). -/
theorem State.readBit_eq_wait : s.readBit = .wait ↔ s.brEof = false ∧ s.brN = 0 ∧ s.inp = [] := by
  constructor
  · intro h
    rcases s.readBit_cases with ⟨c, e, -⟩ | ⟨v, ts, e, -⟩ | ⟨e, -⟩ | ⟨ts, e, -⟩ | ⟨ts, e, -⟩ | ⟨-, hw⟩
    · cases e.symm.trans h
    · cases e.symm.trans h
    · cases e.symm.trans h
    · cases e.symm.trans h
    · cases e.symm.trans h
    · exact hw
  · rintro ⟨he, hn, hi⟩
    simp only [State.readBit, he, hn, State.srcRead, hi]; rfl

/-- `s` with a HOST that takes `room` more words from RSP. -/
def State.withRoom (s : State) (room : Option Nat) : State := { s with rspRoom := room }

/-- `RBIT` reads its bit before it responds, so what it reads and responds does not depend on RSP (R186). -/
theorem State.rbitRun_withRoom (s : State) :
    (∃ r w after, ∀ room, (s.withRoom room).rbitRun = ((s.withRoom room).withReader r).respond w after)
      ∨ (s.readBit = .wait ∧ ∀ room, (s.withRoom room).rbitRun = (s.withRoom room).suspend .rbitRead) := by
  have run : ∀ room, (s.withRoom room).rbitRun = ((s.withRoom room).withReader s).rbitRun := fun _ => rfl
  cases e : s.readBit with
  | bit b r => exact .inl ⟨r, _, _, fun room => by rw [run, State.rbitRun, State.readBit_withReader, e]⟩
  | eosSig r => exact .inl ⟨r, _, _, fun room => by rw [run, State.rbitRun, State.readBit_withReader, e]⟩
  | failed r => exact .inl ⟨r, _, _, fun room => by rw [run, State.rbitRun, State.readBit_withReader, e]⟩
  | wait => exact .inr ⟨rfl, fun room => by rw [run, State.rbitRun, State.readBit_withReader, e]; rfl⟩

/-- Every responding command responds one word, the same whether or not RSP takes it, or is an `RBIT` that waits for a token
first. -/
theorem exec_of_responds {i : Instr} (hi : responds i = true) (s : State) :
    (∃ r w after, ∀ room, exec i (s.withRoom room) = .next (((s.withRoom room).withReader r).respond w after))
      ∨ (i = .rbit ∧ s.err = .none ∧ s.readBit = .wait
        ∧ ∀ room, exec i (s.withRoom room) = .next ((s.withRoom room).suspend .rbitRead)) := by
  have discarded : s.err ≠ .none → ∀ room (body : State → State),
      (s.withRoom room).unlessErrorResponding body = ((s.withRoom room).withReader s).respond zeroResponse none :=
    fun he room body => (s.withRoom room).unlessErrorResponding_of_error body he
  cases i with
  | rds => exact .inl ⟨s, s.statusWord, none, fun room => rfl⟩
  | rdf idx =>
    by_cases he : s.err = .none
    · have run : ∀ room, exec (.rdf idx) (s.withRoom room) = .next ((s.withRoom room).readFreq idx) :=
        fun room => congrArg Host.Outcome.next ((s.withRoom room).unlessErrorResponding_of_ok _ he)
      by_cases hl : indexLegal idx = true
      · exact .inl ⟨s, freqResponse (s.freqAt idx), none, fun room => by rw [run, State.readFreq, if_pos hl]; rfl⟩
      · exact .inl ⟨s, _, some _, fun room => by rw [run, State.readFreq, if_neg hl]; rfl⟩
    · exact .inl ⟨s, _, none, fun room => congrArg Host.Outcome.next (discarded he room _)⟩
  | rbit =>
    by_cases he : s.err = .none
    · have run : ∀ room, exec .rbit (s.withRoom room) = .next (s.withRoom room).rbitRun :=
        fun room => congrArg Host.Outcome.next ((s.withRoom room).unlessErrorResponding_of_ok _ he)
      rcases s.rbitRun_withRoom with ⟨r, w, after, e⟩ | ⟨hw, e⟩
      · exact .inl ⟨r, w, after, fun room => by rw [run, e]⟩
      · exact .inr ⟨rfl, he, hw, fun room => by rw [run, e]⟩
    · exact .inl ⟨s, _, none, fun room => congrArg Host.Outcome.next (discarded he room _)⟩
  | nop | clr | count | wrf _ _ | build | mkcode | encode | decode | wbit _ | wclose => cases hi

/-- While RSP is taken a responding command sends one word and ends, or sends none and is an `RBIT` that waits for a token. -/
theorem exec_rsp_of_responds {i : Instr} (hi : responds i = true) (hr : s.RspTakes) (e : exec i s = .next t) :
    (t.seq = s.seq ∧ ∃ w, t.rsp = s.rsp ++ [w]) ∨ (t.seq = .rbitRead ∧ t.rsp = s.rsp) := by
  rcases exec_of_responds hi s with ⟨r, w, after, h⟩ | ⟨-, -, -, h⟩
  · left
    have taken := (s.withReader r).respond_of_takes w after hr
    obtain rfl : (s.withReader r).respond w after = t := Host.Outcome.next.inj ((h s.rspRoom).symm.trans e)
    rw [taken, State.afterRespond_seq, State.afterRespond_rsp]
    exact ⟨rfl, w, rfl⟩
  · right
    obtain rfl : s.suspend .rbitRead = t := Host.Outcome.next.inj ((h s.rspRoom).symm.trans e)
    exact ⟨rfl, rfl⟩

/-- Settles O52: a command that does not respond leaves RSP, and one that does responds once, unless it is an `RBIT` that waits for
a token. -/
theorem responsesOfEachCommand : Obligations.ResponsesOfEachCommand := by
  intro i s t hs e
  refine ⟨fun hi => exec_rsp_of_not_responds hi e, fun hi hr ht => ?_, fun hi hr ht => ?_⟩
  · rcases exec_rsp_of_responds hi hr e with ⟨-, hw⟩ | ⟨hq, -⟩
    · exact hw
    · cases hq.symm.trans ht
  · rcases exec_rsp_of_responds hi hr e with ⟨hq, -⟩ | hw
    · exact absurd (hq.trans hs) ht
    · exact hw

/-! ### The HOST's actions (R80, R300) -/

/-- Settles O57: an action changes the HOST's side of one port, of which no invariant speaks, or it is reset. -/
theorem hostActionsKeepTheInvariants : Obligations.HostActionsKeepTheInvariants := by
  intro s a
  cases a with
  | command w => exact ⟨fun h => ⟨h.tree, h.codes, h.seq⟩, id, id⟩
  | token tok => exact ⟨fun h => ⟨h.tree, h.codes, h.seq⟩, id, id⟩
  | answer ans => exact ⟨fun h => ⟨h.tree, h.codes, h.seq⟩, id, id⟩
  | room k => exact ⟨fun h => ⟨h.tree, h.codes, h.seq⟩, id, id⟩
  | reset => exact ⟨fun _ => .of_flags_clear rfl rfl (State.seqOk_of_idle rfl), fun _ => s.bitsOk_clear, fun _ => rfl⟩

end Sys2Proof.Machine
end

section
/-! SUPPORT. A command that waited (20_memory R66, R68, R81): what each operation and each command makes of more tokens and more
answers of the sink, and that going on with them is the same as having had them from the start. -/

namespace Sys2Proof.Machine

variable {s t u : State} {b : List Token} {as : List SinkAnswer} {c : Bool}

/-! ### More tokens and more answers -/

/-- `s` with more tokens on IN and more answers listed by the sink, after those already there. -/
def State.supply (s : State) (b : List Token) (as : List SinkAnswer) : State :=
  { s with inp := s.inp ++ b, sinkNext := s.sinkNext ++ as }

@[simp] theorem State.supply_cur (s : State) (b : List Token) (as : List SinkAnswer) : (s.supply b as).cur = s.cur := rfl

/-- No standing answer of the sink comes before the added ones. -/
abbrev State.MayAnswer (s : State) (as : List SinkAnswer) : Prop := as = [] ∨ s.sinkRest = none

/-- A wait of an idle sequencer, taken back. -/
theorem State.suspend_back (h : s.seq = .idle) (a : Activity) : (s.suspend a).suspend .idle = s := by
  rw [← h]; rfl

/-- A command stands at `t` with what it was given: it has ended, or it waits on a port that is not supplied. Given `b` and `as`
as well from the start it stands at `u`, which is where it comes to when it goes on from `t` with them. -/
structure GoesOnTo (b : List Token) (as : List SinkAnswer) (t u : State) : Prop where
  stands : t.seq = .idle ∨ t.portReady (waitingPort t.seq) = false
  goes : u = (t.supply b as).goOn

/-- A command that has ended uses no more. -/
theorem GoesOnTo.ended (h : t.seq = .idle) : GoesOnTo b as t (t.supply b as) := by
  refine ⟨.inl h, ?_⟩
  have hq : (t.supply b as).seq = .idle := h
  rw [State.goOn, hq, State.resume, State.suspend, ← hq]

/-- A command that waits goes on from where it waits. -/
theorem GoesOnTo.waiting {a : Activity} (e : t = s.suspend a) (h : s.seq = .idle)
    (hp : s.portReady (waitingPort a) = false) : GoesOnTo b as t ((s.supply b as).resume a) := by
  subst e
  refine ⟨.inr ?_, ?_⟩
  · cases hw : waitingPort a <;> rw [hw] at hp <;> exact (congrArg _ hw).trans hp
  · exact congrArg (State.resume · a) (State.suspend_back (s := s.supply b as) h a).symm

/-- A choice that the supply does not bear on. -/
theorem GoesOnTo.ite {p : Prop} [Decidable p] {t' u' : State} (ht : p → GoesOnTo b as t u)
    (he : ¬p → GoesOnTo b as t' u') : GoesOnTo b as (if p then t else t') (if p then u else u') := by
  by_cases h : p
  · rw [if_pos h, if_pos h]; exact ht h
  · rw [if_neg h, if_neg h]; exact he h

/-! ### The ports and the bit adapters -/

/-- More tokens matter to `ReadBit` only where it waits (R185). -/
theorem State.readBit_supply (s : State) (b : List Token) (as : List SinkAnswer) : (s.supply b as).readBit =
    match s.readBit with
    | .bit c t => .bit c (t.supply b as)
    | .eosSig t => .eosSig (t.supply b as)
    | .failed t => .failed (t.supply b as)
    | .wait => (s.supply b as).readBit := by
  rcases s.readBit_cases with ⟨c, e, he, hn⟩ | ⟨v, ts, e, he, hn, hi⟩ | ⟨e, he⟩ | ⟨ts, e, he, hn, hi⟩ | ⟨ts, e, he, hn, hi⟩ |
    ⟨e, -⟩
  · simp only [State.readBit, State.supply, he, hn, if_false]; rfl
  · simp only [State.readBit, State.supply, State.srcRead, he, hn, hi]; rfl
  · simp only [State.readBit, State.supply, he, if_true]
  · simp only [State.readBit, State.supply, State.srcRead, he, hn, hi]; rfl
  · simp only [State.readBit, State.supply, State.srcRead, he, hn, hi]; rfl
  · rw [e]

/-- `ReadBit` changes the BitReader and IN alone (R185). -/
theorem State.readBit_frame (s : State) : s.readBit.stateFrom s = s.withReader (s.readBit.stateFrom s) := by
  rcases s.readBit_cases with ⟨c, e, -⟩ | ⟨v, ts, e, -⟩ | ⟨e, -⟩ | ⟨ts, e, -⟩ | ⟨ts, e, -⟩ | ⟨e, -⟩ <;> rw [e] <;> rfl

/-- More answers matter to `SinkWrite` only where it waits (R68). -/
theorem State.sinkWrite_supply (h : s.MayAnswer as) (v : Byte) : (s.supply b as).sinkWrite v =
    match s.sinkWrite v with
    | .accepted t => .accepted (t.supply b as)
    | .failed t => .failed (t.supply b as)
    | .wait => (s.supply b as).sinkWrite v := by
  rcases s.sinkAnswer_cases with ⟨a, l, hn, e⟩ | ⟨a, hn, hr, e⟩ | ⟨hn, hr, e⟩
  · have e' : (s.supply b as).sinkAnswer = some (a, State.supply { s with sinkNext := l } b as) := by
      simp only [State.sinkAnswer, State.supply, hn, List.cons_append]
    cases a with
    | ok => simp only [State.sinkWrite, e, e']; rfl
    | fail => simp only [State.sinkWrite, e, e']
  · have ha : as = [] := h.resolve_right (by rw [hr]; exact nofun)
    have e' : (s.supply b as).sinkAnswer = some (a, s.supply b as) := by
      simp only [State.sinkAnswer, State.supply, hn, hr, ha, List.append_nil]
    cases a with
    | ok => simp only [State.sinkWrite, e, e']; rfl
    | fail => simp only [State.sinkWrite, e, e']
  · simp only [State.sinkWrite, e]

/-- How an operation of the BitWriter comes out with more supply: as it did without, or from its wait on as `next` says. -/
def WriteResult.supply (b : List Token) (as : List SinkAnswer) (next : List Bool → State → WriteResult) :
    WriteResult → WriteResult
  | .done t => .done (t.supply b as)
  | .raised t => .raised (t.supply b as)
  | .wait rest t => next rest (t.supply b as)

/-- More answers matter to a byte that the BitWriter offers only where it waits, and there `next` offers it again. -/
theorem State.flushByte_supply (h : s.MayAnswer as) (v : Byte) (rest : List Bool) {next : List Bool → State → WriteResult}
    (hn : next rest (s.supply b as) = (s.supply b as).flushByte v rest) :
    (s.supply b as).flushByte v rest = (s.flushByte v rest).supply b as next := by
  cases e : s.sinkWrite v with
  | accepted t => simp only [State.flushByte, State.sinkWrite_supply h, e]; rfl
  | failed t => simp only [State.flushByte, State.sinkWrite_supply h, e]; rfl
  | wait => rw [← hn, State.flushByte, e]; rfl

/-- The same for `WriteBit` (R181). -/
theorem State.writeBit_supply (h : s.MayAnswer as) (c : Bool) :
    (s.supply b as).writeBit c = (s.writeBit c).supply b as fun _ u => u.writeBit c := by
  have full : ∀ u : State, u.bwN = s.bwN → ¬s.bwN.toNat < 7 → u.writeBit c = u.flushByte (shiftIn u.bwAcc c) [c] :=
    fun u hu h7 => by rw [State.writeBit, hu, if_neg h7]
  by_cases h7 : s.bwN.toNat < 7
  · have h7' : (s.supply b as).bwN.toNat < 7 := h7
    rw [State.writeBit, State.writeBit, if_pos h7, if_pos h7']; rfl
  · rw [full s rfl h7, full (s.supply b as) rfl h7]
    exact State.flushByte_supply h _ _ (full _ rfl h7)

/-- The same for `Close` (R182). -/
theorem State.closeWriter_supply (h : s.MayAnswer as) :
    (s.supply b as).closeWriter = s.closeWriter.supply b as fun _ u => u.closeWriter := by
  have pending : ∀ u : State, u.bwN = s.bwN → s.bwN ≠ 0 → u.closeWriter = u.flushByte (paddedByte u.bwAcc u.bwN) [] :=
    fun u hu h0 => by rw [State.closeWriter, if_neg (hu ▸ h0)]
  by_cases h0 : s.bwN = 0
  · have h0' : (s.supply b as).bwN = 0 := h0
    rw [State.closeWriter, State.closeWriter, if_pos h0, if_pos h0']; rfl
  · rw [pending s rfl h0, pending (s.supply b as) rfl h0]
    exact State.flushByte_supply h _ _ (pending _ rfl h0)

/-- A bit string that waits goes on with the bits left. -/
theorem writeBits_supply (bits : List Bool) : ∀ {s : State}, s.MayAnswer as →
    writeBits bits (s.supply b as) = (writeBits bits s).supply b as writeBits := by
  induction bits with
  | nil => intro s _; rfl
  | cons c bits ih =>
    intro s h
    have go : ∀ u, s.writeBit c = .done u → u.sinkRest = s.sinkRest →
        writeBits (c :: bits) (s.supply b as) = (writeBits (c :: bits) s).supply b as writeBits := by
      intro u e hu
      simp only [writeBits, State.writeBit_supply h, e]
      exact ih (h.imp_right hu.trans)
    rcases s.writeBit_cases c with ⟨-, e⟩ | ⟨u, e, hu, -⟩ | ⟨u, e, hu, -⟩ | ⟨e, -⟩
    · exact go _ e rfl
    · exact go u e (by rw [hu]; rfl)
    · simp only [writeBits, State.writeBit_supply h, e, WriteResult.supply]
    · simp only [writeBits, e, WriteResult.supply]

/-! ### Responses and `RBIT` -/

/-- A response depends on neither IN nor the sink. -/
theorem State.respond_supply (hs : s.seq = .idle) (w : Word64) (after : Option (ErrCode × Info)) :
    GoesOnTo b as (s.respond w after) ((s.supply b as).respond w after) := by
  rcases s.respond_cases w after with ⟨hr, e⟩ | ⟨hr, e⟩
  · have e' : (s.supply b as).respond w after = ((s.answered w).afterRespond after).supply b as := by
      rw [State.respond_of_takes (s.supply b as) w after hr]; cases after <;> rfl
    rw [e, e']
    exact .ended ((State.afterRespond_seq _ after).trans hs)
  · exact .waiting e hs (State.portReady_rsp_eq_false.2 hr)

/-- `RBIT` (R186). -/
theorem State.rbitRun_supply (hs : s.seq = .idle) : GoesOnTo b as s.rbitRun (s.supply b as).rbitRun := by
  have hf := s.readBit_frame
  cases e : s.readBit with
  | wait =>
    obtain ⟨-, -, hi⟩ := State.readBit_eq_wait.1 e
    exact .waiting (a := .rbitRead) (by rw [State.rbitRun, e]) hs (State.portReady_inp_eq_false.2 hi)
  | bit c u | eosSig u | failed u =>
    rw [e] at hf
    have hu : u.seq = .idle := (congrArg State.seq hf).trans hs
    rw [State.rbitRun, State.rbitRun, State.readBit_supply, e]
    exact State.respond_supply hu _ _

/-! ### `COUNT` -/

/-- `COUNT` with no token on IN waits (R66). -/
theorem State.countRun_nil (hi : s.inp = []) : s.countRun = s.suspend .countRead := by
  rw [State.countRun, hi, countLoop, ← hi]

/-- `COUNT` (R131). -/
theorem State.countRun_supply (ts : List Token) : ∀ {s : State}, s.inp = ts → s.seq = .idle →
    GoesOnTo b as s.countRun (s.supply b as).countRun := by
  induction ts with
  | nil =>
    intro s hi hs
    exact .waiting (State.countRun_nil hi) hs (State.portReady_inp_eq_false.2 hi)
  | cons tok ts ih =>
    intro s hi hs
    have hi' : (s.supply b as).inp = tok :: (ts ++ b) := by rw [State.supply, hi]; rfl
    cases tok with
    | endTok => simp only [State.countRun, hi, hi']; exact .ended hs
    | failTok => simp only [State.countRun, hi, hi']; exact .ended hs
    | byte v =>
      simp only [State.countRun, hi, hi']
      exact .ite (p := s.freqAt (symbolOf v) = countMax) (fun _ => .ended hs) fun _ =>
        ih (s := State.setFreq { s with inp := ts } (symbolOf v) (s.freqAt (symbolOf v) + 1)) rfl hs

/-! ### The BitWriter's commands -/

/-- Where an operation of the BitWriter leaves a command that ends with it, waiting at `a`. -/
def WriteResult.endAt (a : Activity) : WriteResult → State
  | .done s => s
  | .raised s => s
  | .wait _ s => s.suspend a

/-- `WBIT` (R183). -/
theorem State.wbitRun_supply (hs : s.seq = .idle) (h : s.MayAnswer as) (c : Bool) :
    GoesOnTo b as (s.wbitRun c) ((s.supply b as).wbitRun c) := by
  have ended : ∀ u, (s.writeBit c = .done u ∨ s.writeBit c = .raised u) → u.seq = .idle →
      GoesOnTo b as (s.wbitRun c) ((s.supply b as).wbitRun c) := by
    intro u e hu
    rw [State.wbitRun, State.wbitRun, State.writeBit_supply h]
    rcases e with e | e <;> rw [e] <;> exact .ended hu
  rcases s.writeBit_cases c with ⟨-, e⟩ | ⟨u, e, hu, -⟩ | ⟨u, e, hu, -⟩ | ⟨e, hw⟩
  · exact ended _ (.inl e) hs
  · exact ended _ (.inl e) (by rw [hu]; exact hs)
  · exact ended _ (.inr e) (by rw [hu]; exact hs)
  · exact .waiting (a := .wbit c) (by rw [State.wbitRun, e]) hs (State.portReady_out_eq_false.2 hw)

/-- A command that ends with `Close`, waiting for the sink at `a` (R182, R184, R201). -/
theorem State.closeAt_supply {a : Activity} (hs : s.seq = .idle) (h : s.MayAnswer as) (ha : waitingPort a = .out)
    (hclose : ∀ u : State, u.resume a = u.closeWriter.endAt a) :
    GoesOnTo b as (s.resume a) ((s.supply b as).resume a) := by
  rcases s.closeWriter_cases with ⟨u, e, hu, -⟩ | ⟨u, e, hu, -⟩ | ⟨e, hw⟩
  · rw [hclose, hclose, State.closeWriter_supply h, e]
    exact .ended (by rw [hu]; exact hs)
  · rw [hclose, hclose, State.closeWriter_supply h, e]
    exact .ended (by rw [hu]; exact hs)
  · exact .waiting (by rw [hclose, e]; rfl) hs (ha ▸ State.portReady_out_eq_false.2 hw)

/-- `WCLOSE` (R184). -/
theorem State.wcloseRun_supply (hs : s.seq = .idle) (h : s.MayAnswer as) :
    GoesOnTo b as s.wcloseRun (s.supply b as).wcloseRun :=
  State.closeAt_supply (a := .wclose) hs h rfl fun _ => rfl

/-! ### `ENCODE` -/

/-- The `Close` of `ENCODE` (R201). -/
theorem State.encodeClose_supply (hs : s.seq = .idle) (h : s.MayAnswer as) :
    GoesOnTo b as s.encodeClose (s.supply b as).encodeClose :=
  State.closeAt_supply (a := .encodeClose) hs h rfl fun _ => rfl

/-- The bits of a code, then `Close` after the sentinel's and the next token after a byte's (R201). -/
theorem State.encodeResume_eq (s : State) (bits : List Bool) (eos : Bool) : s.encodeResume bits eos =
    match writeBits bits s with
    | .done u => if eos then u.encodeClose else u.encodeRun
    | .raised u => u
    | .wait rest u => u.suspend (.encodeBits rest eos) := by
  cases eos <;> rfl

/-- The bits of a code and what follows them, where what follows a whole byte's code goes on as it should (R201). -/
theorem State.encodeResume_supply (hs : s.seq = .idle) (h : s.MayAnswer as) (bits : List Bool) (eos : Bool)
    (next : eos = false → ∀ u, u = s.withWriter u → GoesOnTo b as u.encodeRun (u.supply b as).encodeRun) :
    GoesOnTo b as (s.encodeResume bits eos) ((s.supply b as).encodeResume bits eos) := by
  have hsup := writeBits_supply (b := b) bits h
  rcases writeBits_cases bits s with ⟨u, e, hu⟩ | ⟨u, e, hu⟩ | ⟨rest, u, e, hu, -, hw⟩
  · rw [State.encodeResume_eq, State.encodeResume_eq, hsup, e]
    exact .ite (p := eos = true) (fun _ => State.encodeClose_supply (by rw [hu]; exact hs) (by rw [hu]; exact h))
      fun he => next (by simpa using he) u hu
  · rw [State.encodeResume_eq, State.encodeResume_eq, hsup, e]
    exact .ended (by rw [hu]; exact hs)
  · have hgo : (s.supply b as).encodeResume bits eos = (u.supply b as).encodeResume rest eos := by
      rw [State.encodeResume_eq, hsup, e, State.encodeResume_eq]; rfl
    rw [hgo]
    exact .waiting (a := .encodeBits rest eos) (by rw [State.encodeResume_eq, e]) (by rw [hu]; exact hs)
      (State.portReady_out_eq_false.2 hw)

/-- `ENCODE` with no token on IN waits (R66). -/
theorem State.encodeRun_nil (hi : s.inp = []) : s.encodeRun = s.suspend .encodeRead := by
  rw [State.encodeRun, hi, encodeLoop, ← hi]

/-- One turn of `ENCODE` on a byte with no code (R201). -/
theorem State.encodeRun_absent {v : Byte} {ts : List Token} (hi : s.inp = .byte v :: ts)
    (hc : s.codeAt (symbolOf v) = none) : s.encodeRun = State.raise { s with inp := ts } .noCode (byteInfo v) := by
  have hc' : State.codeAt { s with inp := ts } (symbolOf v) = none := hc
  rw [State.encodeRun, hi]
  simp only [encodeLoop, hc']

/-- One turn of `ENCODE` on a byte with a code: its bits, then the next token (R201). -/
theorem State.encodeRun_byte {v : Byte} {ts : List Token} {bits : List Bool} (hi : s.inp = .byte v :: ts)
    (hc : s.codeAt (symbolOf v) = some bits) : s.encodeRun = State.encodeResume { s with inp := ts } bits false := by
  have hc' : State.codeAt { s with inp := ts } (symbolOf v) = some bits := hc
  rw [State.encodeRun, hi]
  simp only [encodeLoop, hc', State.encodeResume]
  rcases writeBits_cases bits { s with inp := ts } with ⟨u, e, hu⟩ | ⟨u, e, -⟩ | ⟨rest, u, e, -⟩ <;> simp only [e]
  · have hui : u.inp = ts := by rw [hu]; rfl
    simp only [State.encodeRun, hui]; rfl
  · rfl
  · rfl

/-- `ENCODE` (R201). -/
theorem State.encodeRun_supply (ts : List Token) : ∀ {s : State}, s.inp = ts → s.seq = .idle → s.MayAnswer as →
    GoesOnTo b as s.encodeRun (s.supply b as).encodeRun := by
  induction ts with
  | nil =>
    intro s hi hs _
    exact .waiting (State.encodeRun_nil hi) hs (State.portReady_inp_eq_false.2 hi)
  | cons tok ts ih =>
    intro s hi hs h
    have hi' : (s.supply b as).inp = tok :: (ts ++ b) := by rw [State.supply, hi]; rfl
    cases tok with
    | failTok => simp only [State.encodeRun, hi, hi']; exact .ended hs
    | endTok =>
      simp only [State.encodeRun, hi, hi']
      exact State.encodeResume_supply (s := { s with inp := ts }) hs h _ true nofun
    | byte v =>
      cases hc : s.codeAt (symbolOf v) with
      | none => rw [State.encodeRun_absent hi hc, State.encodeRun_absent hi' hc]; exact .ended hs
      | some bits =>
        rw [State.encodeRun_byte hi hc, State.encodeRun_byte hi' hc]
        exact State.encodeResume_supply (s := { s with inp := ts }) hs h bits false fun _ u hu =>
          ih (by rw [hu]; rfl) (by rw [hu]; exact hs) (by rw [hu]; exact h)

/-! ### `DECODE` -/

/-- `s` after the sink has taken the byte of the Leaf it stands on: at the root again, `l` the answers still listed (R216). -/
def State.emitted (s : State) (l : List SinkAnswer) : State :=
  { s with sinkNext := l, out := s.out ++ [emittedByte s.cur], cur := s.root }

/-- Under an Internal root the walk is the reading of `DECODE`, with any bound above the bits still to come (R216). -/
theorem decodeWalk_eq_decodeRun {k : Nat} (hr : (s.nodeAt s.root).kind = .internal) (hk : s.bitBudget < k) :
    decodeWalk k s = s.decodeRun := by
  rw [State.decodeRun, hr]
  exact decodeWalk_fuel k _ s hk (Nat.lt_succ_self _)

/-- The turn on a byte's Leaf is the offering of that byte (R216). -/
theorem leafTurn_eq_decodeEmit {k : Nat} (hc : s.cur ≠ Config.eosIx) (hr : (s.nodeAt s.root).kind = .internal)
    (hk : s.bitBudget < k) : leafTurn k s = s.decodeEmit := by
  rw [leafTurn, if_neg hc, State.decodeEmit]
  rcases s.sinkWrite_cases (emittedByte s.cur) with ⟨l, e, -⟩ | ⟨l, e, -⟩ | ⟨e, -⟩
  · rw [e]
    exact decodeWalk_eq_decodeRun (s := s.emitted l) hr hk
  · rw [e]
  · rw [e]

/-- One turn of `DECODE` under an Internal root: a descent, the end on the sentinel's Leaf, or a byte to offer (R216, R217). -/
theorem State.decodeRun_bit (hr : (s.nodeAt s.root).kind = .internal) (e : s.readBit = .bit c t) :
    s.decodeRun =
      match ((t.descend c).nodeAt (t.descend c).cur).kind with
      | .internal => (t.descend c).decodeRun
      | .leaf => if (t.descend c).cur = Config.eosIx then t.descend c else (t.descend c).decodeEmit := by
  have ht : t = s.withReader t := by have hf := s.readBit_frame; rw [e] at hf; exact hf
  have hr' : ((t.descend c).nodeAt (t.descend c).root).kind = .internal := by rw [ht]; exact hr
  have hk : (t.descend c).bitBudget < s.bitBudget := State.bitBudget_readBit (t := t) e
  rw [← decodeWalk_eq_decodeRun hr (Nat.lt_succ_self _), decodeWalk_bit e]
  cases ((t.descend c).nodeAt (t.descend c).cur).kind with
  | internal => exact decodeWalk_eq_decodeRun hr' hk
  | leaf =>
    by_cases hc : (t.descend c).cur = Config.eosIx
    · simp only [leafTurn, if_pos hc]
    · simp only [if_neg hc]
      exact leafTurn_eq_decodeEmit hc hr' hk

/-- `DECODE` whose `ReadBit` waits waits too, under either kind of root (R66). -/
theorem State.decodeRun_wait (e : s.readBit = .wait) : s.decodeRun = s.suspend .decodeRead := by
  unfold State.decodeRun
  split
  · rw [State.decodeLeafRoot, e]
  · simp only [decodeWalk, e]

/-- A source that fails ends `DECODE`, under either kind of root (R216, R218). -/
theorem State.decodeRun_failed (e : s.readBit = .failed t) : s.decodeRun = t.raise .ioSrc 0 := by
  unfold State.decodeRun
  split
  · rw [State.decodeLeafRoot, e]
  · simp only [decodeWalk, e]

/-- A source that has ended ends `DECODE`, under either kind of root (R218, R220). -/
theorem State.decodeRun_eosSig (e : s.readBit = .eosSig t) : s.decodeRun = t.raise .trunc 0 := by
  unfold State.decodeRun
  split
  · rw [State.decodeLeafRoot, e]
  · simp only [decodeWalk, e]

/-- Under a Leaf root `DECODE` reads one bit (R218). -/
theorem State.decodeRun_leaf (hr : (s.nodeAt s.root).kind = .leaf) (e : s.readBit = .bit c t) :
    s.decodeRun = if c then t.raise .badCode 0 else t := by
  rw [State.decodeRun, hr, State.decodeLeafRoot, e]

/-- `DECODE` whose `ReadBit` gives no bit. -/
theorem State.decodeRun_supply_of_no_bit (hs : s.seq = .idle) (hno : ∀ c u, s.readBit ≠ .bit c u) :
    GoesOnTo b as s.decodeRun (s.supply b as).decodeRun := by
  have hf := s.readBit_frame
  have hread := s.readBit_supply b as
  cases e : s.readBit with
  | bit c u => exact absurd e (hno c u)
  | wait =>
    obtain ⟨-, -, hi⟩ := State.readBit_eq_wait.1 e
    exact .waiting (State.decodeRun_wait e) hs (State.portReady_inp_eq_false.2 hi)
  | failed u =>
    rw [e] at hf hread
    rw [State.decodeRun_failed e, State.decodeRun_failed hread]
    exact .ended ((congrArg State.seq hf).trans hs)
  | eosSig u =>
    rw [e] at hf hread
    rw [State.decodeRun_eosSig e, State.decodeRun_eosSig hread]
    exact .ended ((congrArg State.seq hf).trans hs)

/-- The byte that `DECODE` offers, where what follows an accepted one goes on as it should (R216). -/
theorem State.decodeEmit_supply (hs : s.seq = .idle) (h : s.MayAnswer as)
    (next : ∀ l, GoesOnTo b as (s.emitted l).decodeRun ((s.emitted l).supply b as).decodeRun) :
    GoesOnTo b as s.decodeEmit (s.supply b as).decodeEmit := by
  rcases s.sinkWrite_cases (emittedByte s.cur) with ⟨l, e, -⟩ | ⟨l, e, -⟩ | ⟨e, hw⟩
  · simp only [State.decodeEmit, State.supply_cur, State.sinkWrite_supply h, e]
    exact next l
  · simp only [State.decodeEmit, State.supply_cur, State.sinkWrite_supply h, e]
    exact .ended hs
  · exact .waiting (a := .decodeEmit) (by rw [State.decodeEmit, e]) hs (State.portReady_out_eq_false.2 hw)

/-- `DECODE` under an Internal root (R216, R217): each turn reads a bit of those still to come. -/
theorem State.decodeRun_supply_internal (n : Nat) : ∀ {s : State}, s.bitBudget < n → (s.nodeAt s.root).kind = .internal →
    s.seq = .idle → s.MayAnswer as → GoesOnTo b as s.decodeRun (s.supply b as).decodeRun := by
  induction n with
  | zero => intro s hn; omega
  | succ n ih =>
    intro s hn hr hs h
    have hr' : ((s.supply b as).nodeAt (s.supply b as).root).kind = .internal := hr
    have hf := s.readBit_frame
    have hread := s.readBit_supply b as
    cases e : s.readBit with
    | wait | failed u | eosSig u => exact State.decodeRun_supply_of_no_bit hs fun _ _ h => nomatch e.symm.trans h
    | bit c u =>
      rw [e] at hf hread
      replace hf : u = s.withReader u := hf
      have hb : (u.descend c).bitBudget < s.bitBudget := State.bitBudget_readBit (t := u) e
      have hu : (u.descend c).seq = .idle := (congrArg State.seq hf).trans hs
      have hur : ((u.descend c).nodeAt (u.descend c).root).kind = .internal := by rw [hf]; exact hr
      have hus : (u.descend c).MayAnswer as := by rw [hf]; exact h
      have hd : (u.supply b as).descend c = (u.descend c).supply b as := rfl
      rw [State.decodeRun_bit hr e, State.decodeRun_bit hr' hread, hd]
      generalize u.descend c = d at hb hu hur hus
      have hkind : ((d.supply b as).nodeAt (d.supply b as).cur).kind = (d.nodeAt d.cur).kind := rfl
      rw [hkind]
      cases (d.nodeAt d.cur).kind with
      | internal => exact ih (by omega) hur hu hus
      | leaf =>
        have hemit : ∀ l, (d.emitted l).bitBudget = d.bitBudget := fun _ => rfl
        exact .ite (p := d.cur = Config.eosIx) (fun _ => .ended hu) fun _ =>
          State.decodeEmit_supply hu hus fun l => ih (by rw [hemit]; omega) hur hu hus

/-- `DECODE` from where it reads its next bit (R216, R218). -/
theorem State.decodeRun_supply (hs : s.seq = .idle) (h : s.MayAnswer as) :
    GoesOnTo b as s.decodeRun (s.supply b as).decodeRun := by
  cases hr : (s.nodeAt s.root).kind with
  | internal => exact State.decodeRun_supply_internal _ (Nat.lt_succ_self _) hr hs h
  | leaf =>
    have hr' : ((s.supply b as).nodeAt (s.supply b as).root).kind = .leaf := hr
    have hf := s.readBit_frame
    have hread := s.readBit_supply b as
    cases e : s.readBit with
    | wait | failed u | eosSig u => exact State.decodeRun_supply_of_no_bit hs fun _ _ h => nomatch e.symm.trans h
    | bit c u =>
      rw [e] at hf hread
      have hu : u.seq = .idle := (congrArg State.seq hf).trans hs
      rw [State.decodeRun_leaf hr e, State.decodeRun_leaf hr' hread]
      exact .ite (p := c = true) (fun _ => .ended hu) fun _ => .ended hu

/-! ### Every command -/

/-- A command in stage 2, where its later stages go on as they should (R272). -/
theorem State.unlessError_supply {body : State → State} (hs : s.seq = .idle)
    (hb : GoesOnTo b as (body s) (body (s.supply b as))) :
    GoesOnTo b as (s.unlessError body) ((s.supply b as).unlessError body) :=
  .ite (p := s.inError = true) (fun _ => .ended hs) fun _ => hb

/-- The same for a command that responds (R96, R272). -/
theorem State.unlessErrorResponding_supply {body : State → State} (hs : s.seq = .idle)
    (hb : GoesOnTo b as (body s) (body (s.supply b as))) :
    GoesOnTo b as (s.unlessErrorResponding body) ((s.supply b as).unlessErrorResponding body) :=
  .ite (p := s.inError = true) (fun _ => State.respond_supply hs _ _) fun _ => hb

/-- `WRF` (R136). -/
theorem State.writeFreq_supply (hs : s.seq = .idle) (i : Nat) (v : Count) :
    GoesOnTo b as (s.writeFreq i v) ((s.supply b as).writeFreq i v) :=
  .ite (p := indexLegal i = true) (fun _ => .ended hs) fun _ => .ended hs

/-- `RDF` (R137). -/
theorem State.readFreq_supply (hs : s.seq = .idle) (i : Nat) :
    GoesOnTo b as (s.readFreq i) ((s.supply b as).readFreq i) :=
  .ite (p := indexLegal i = true) (fun _ => State.respond_supply hs _ _) fun _ => State.respond_supply hs _ _

/-- `BUILD` (R148). -/
theorem State.build_supply (hs : s.seq = .idle) : GoesOnTo b as s.build (s.supply b as).build :=
  .ite (p := s.freqAt 256 = 1) (fun _ => .ended hs) fun _ => .ended hs

/-- `MKCODE` (R166). -/
theorem State.makeCodes_supply (hs : s.seq = .idle) : GoesOnTo b as s.makeCodes (s.supply b as).makeCodes :=
  .ite (p := s.treeValid = true) (fun _ => .ended hs) fun _ => .ended hs

/-- `ENCODE` with its preconditions (R201, R262). -/
theorem State.encode_supply (hs : s.seq = .idle) (h : s.MayAnswer as) :
    GoesOnTo b as s.encode (s.supply b as).encode :=
  .ite (p := s.codesValid = false) (fun _ => .ended hs) fun _ =>
    .ite (p := s.bwN ≠ 0) (fun _ => .ended hs) fun _ => State.encodeRun_supply _ rfl hs h

/-- `DECODE` with its precondition (R216, R262). -/
theorem State.decode_supply (hs : s.seq = .idle) (h : s.MayAnswer as) :
    GoesOnTo b as s.decode (s.supply b as).decode :=
  .ite (p := s.treeValid = true) (fun _ => State.decodeRun_supply (s := s.decodeStart) hs h) fun _ => .ended hs

/-- Every command, given more tokens or answers from the start, comes to where it comes to when it goes on with them. -/
theorem exec_supply (hs : s.seq = .idle) (h : s.MayAnswer as) (i : Instr) (e : exec i s = .next t)
    (e' : exec i (s.supply b as) = .next u) : GoesOnTo b as t u := by
  cases i with
  | nop => cases e; cases e'; exact .ended hs
  | clr => cases e; cases e'; exact .ended rfl
  | rds => cases e; cases e'; exact State.respond_supply hs _ none
  | count => cases e; cases e'; exact State.unlessError_supply hs (State.countRun_supply _ (s := s.countStart) rfl hs)
  | wrf idx val => cases e; cases e'; exact State.unlessError_supply hs (State.writeFreq_supply hs idx val)
  | rdf idx => cases e; cases e'; exact State.unlessErrorResponding_supply hs (State.readFreq_supply hs idx)
  | build => cases e; cases e'; exact State.unlessError_supply hs (State.build_supply hs)
  | mkcode => cases e; cases e'; exact State.unlessError_supply hs (State.makeCodes_supply hs)
  | encode => cases e; cases e'; exact State.unlessError_supply hs (State.encode_supply hs h)
  | decode => cases e; cases e'; exact State.unlessError_supply hs (State.decode_supply hs h)
  | wbit c => cases e; cases e'; exact State.unlessError_supply hs (State.wbitRun_supply hs h c)
  | wclose => cases e; cases e'; exact State.unlessError_supply hs (State.wcloseRun_supply hs h)
  | rbit => cases e; cases e'; exact State.unlessErrorResponding_supply hs (State.rbitRun_supply hs)

/-! ### The statement -/

/-- A command that came to wait had none of what it waits for, and goes on, once its port is supplied, to where it comes to with
all of the supply from the start. -/
theorem step_supply_of_waiting {i : Instr} (hs : s.seq = .idle) (h : s.MayAnswer as) (e : exec i s = .next t)
    (ht : t.seq ≠ .idle) (hp : (t.supply b as).portReady (waitingPort t.seq) = true) :
    t.portReady (waitingPort t.seq) = false ∧ step (t.supply b as) = exec i (s.supply b as) := by
  obtain ⟨u, e'⟩ := exec_next i (s.supply b as)
  obtain ⟨hstands, hgoes⟩ := exec_supply hs h i e e'
  refine ⟨hstands.resolve_left ht, ?_⟩
  rw [e', hgoes]
  exact step_of_waiting (s := t.supply b as) ht hp

/-- A command that waited for a token (R66). -/
theorem step_of_waiting_inp {i : Instr} {a : List Token} (hs : s.seq = .idle) (hb : b ≠ [])
    (e : exec i { s with inp := a } = .next t) (hw : waitingPort t.seq = .inp) :
    step { t with inp := b } = exec i { s with inp := a ++ b } := by
  have ht : t.seq ≠ .idle := fun hi => by rw [hi] at hw; cases hw
  have hp : (t.supply b []).portReady (waitingPort t.seq) = true := by
    rw [hw]; simp [State.portReady, State.supply, hb]
  obtain ⟨hnone, hstep⟩ := step_supply_of_waiting (s := { s with inp := a }) hs (.inl rfl) e ht hp
  rw [hw, State.portReady_inp_eq_false] at hnone
  simpa only [State.supply, hnone, List.append_nil, List.nil_append] using hstep

/-- A command that waited for the sink (R68). -/
theorem step_of_waiting_out {i : Instr} {a : List SinkAnswer} (hs : s.seq = .idle) (has : as ≠ [])
    (e : exec i { s with sinkNext := a, sinkRest := none } = .next t) (hw : waitingPort t.seq = .out) :
    step { t with sinkNext := as } = exec i { s with sinkNext := a ++ as, sinkRest := none } := by
  have ht : t.seq ≠ .idle := fun hi => by rw [hi] at hw; cases hw
  have hp : (t.supply [] as).portReady (waitingPort t.seq) = true := by
    rw [hw]; simp [State.portReady, State.supply, has]
  obtain ⟨hnone, hstep⟩ :=
    step_supply_of_waiting (s := { s with sinkNext := a, sinkRest := none }) hs (.inr rfl) e ht hp
  rw [hw, State.portReady_out_eq_false] at hnone
  simpa only [State.supply, hnone.1, List.append_nil, List.nil_append] using hstep

/-- A response that waited is taken as soon as RSP takes it, and its command ends as it does (R81, R96). -/
theorem step_of_waiting_rsp {w : Word64} {after : Option (ErrCode × Info)} (hs : s.seq = .respond w after)
    (hr : s.RspTakes) : step s = .next ((s.suspend .idle).respond w after) := by
  have hp : s.portReady (waitingPort s.seq) = true := by
    rw [hs]; simpa [waitingPort, State.portReady] using hr
  rw [step_of_waiting (by rw [hs]; exact nofun) hp, State.goOn, hs]
  rfl

/-- A responding command while RSP is not taken sends nothing and raises nothing (R81): it is an `RBIT` that waits for a token
first, or it waits with its word, and then ends as if RSP had been taken from the start. -/
theorem exec_of_responds_untaken {i : Instr} {room : Option Nat} (hs : s.seq = .idle) (hi : responds i = true)
    (hr : room ≠ some 0) : ∃ t, exec i { s with rspRoom := some 0 } = .next t
      ∧ t.rsp = s.rsp ∧ t.err = s.err ∧ t.errInfo = s.errInfo
      ∧ ((i = .rbit ∧ s.err = .none ∧ s.brEof = false ∧ s.brN = 0 ∧ s.inp = [] ∧ t.seq = .rbitRead)
        ∨ ((∃ w after, t.seq = .respond w after)
          ∧ step { t with rspRoom := room } = exec i { s with rspRoom := room })) := by
  rcases exec_of_responds hi s with ⟨r, w, after, h⟩ | ⟨rfl, he, hw, h⟩
  · refine ⟨((s.withRoom (some 0)).withReader r).suspend (.respond w after), h (some 0), rfl, rfl, rfl,
      .inr ⟨⟨w, after, rfl⟩, ?_⟩⟩
    have hstep := step_of_waiting_rsp (s := ((s.withRoom room).withReader r).suspend (.respond w after)) rfl hr
    rw [State.suspend_back (s := (s.withRoom room).withReader r) hs, ← h room] at hstep
    exact hstep
  · obtain ⟨heof, hn, hin⟩ := State.readBit_eq_wait.1 hw
    exact ⟨_, h (some 0), rfl, rfl, rfl, .inl ⟨rfl, he, heof, hn, hin, rfl⟩⟩

/-- Settles O59: every command commutes with more tokens and more answers of the sink, and what a response says is fixed before
RSP takes it. -/
theorem waitingChangesNothing : Obligations.WaitingChangesNothing := by
  refine ⟨fun s t i a b hs hb e hw => step_of_waiting_inp hs.1 hb e hw,
    fun s t i a b hs hb e hw => step_of_waiting_out hs.1 hb e hw,
    fun s i room hs hi hr => exec_of_responds_untaken hs hi hr, fun s w after hs hr => ?_⟩
  rw [step_of_waiting_rsp hs hr, State.respond_of_takes (s.suspend .idle) w after hr]
  cases after <;> rfl

end Sys2Proof.Machine
end

section
/-! SUPPORT. Encoding and decoding of the command word (30_encoding R90 to R97): what each format and each mask asks of a word's
fields, decode and encode as inverses, the rows of the opcode table, and what the sequencer makes of a word (R92, R95). -/

namespace Sys2Proof

variable {w : Word64} {i j : Instr} {op : BitVec 8} {r r' : OpcodeRow}

/-! ### What a format accepts (R91, R95) -/

theorem formatN_eq_instr :
    formatN w j = .instr i ↔ (rsvField w = 0 ∧ idxField w = 0 ∧ dataField w = 0) ∧ j = i := by
  simp [formatN, requireZero_instr, and_assoc]

theorem formatX_eq_instr : formatX w j = .instr i ↔ (rsvField w = 0 ∧ dataField w = 0) ∧ j = i := by
  simp [formatX, requireZero_instr]

theorem formatXD_eq_instr : formatXD w j = .instr i ↔ rsvField w = 0 ∧ j = i := by
  simp [formatXD, requireZero_instr]

theorem formatB_eq_instr : formatB w j = .instr i ↔
    (rsvField w = 0 ∧ idxField w = 0 ∧ (dataField w).extractLsb' 1 31 = 0) ∧ j = i := by
  simp [formatB, requireZero_instr, and_assoc]

/-! ### The word of a command from its fields (R90, R93) -/

/-- `data` is the bit `data[0]` alone when `data[31:1]` is 0 (format `B`). -/
theorem setWidth_ofBool_getLsbD_zero {d : BitVec 32} (h : d.extractLsb' 1 31 = 0) :
    (BitVec.ofBool (d.getLsbD 0)).setWidth 32 = d := by
  apply BitVec.eq_of_getLsbD_eq
  intro k hk
  cases k with
  | zero => simp
  | succ k =>
    have hbit : (d.extractLsb' 1 31).getLsbD k = false := by rw [h]; simp
    rw [BitVec.getLsbD_extractLsb', Nat.add_comm] at hbit
    simpa [show k < 31 by omega] using hbit.symm

/-- A word is the encoding of the command whose opcode and operands stand in its fields, `rsv` being 0. -/
theorem encode_eq_of_fields (hop : opField w = opcodeOf i) (hrsv : rsvField w = 0) (hidx : idxOf i = idxField w)
    (hdata : dataOf i = dataField w) : encode i = w := by
  rw [encode, ← hop, hidx, hdata, packWord_fields w hrsv]

theorem encode_wrf_fields (hop : opField w = 0x11#8) (hrsv : rsvField w = 0) :
    encode (.wrf (idxField w).toNat (dataField w)) = w :=
  encode_eq_of_fields hop hrsv (by simp [idxOf]) rfl

theorem encode_rdf_field (hop : opField w = 0x12#8) (hrsv : rsvField w = 0) (hdata : dataField w = 0) :
    encode (.rdf (idxField w).toNat) = w :=
  encode_eq_of_fields hop hrsv (by simp [idxOf]) hdata.symm

theorem encode_wbit_field (hop : opField w = 0x40#8) (hrsv : rsvField w = 0) (hidx : idxField w = 0)
    (hdata : (dataField w).extractLsb' 1 31 = 0) : encode (.wbit ((dataField w).getLsbD 0)) = w :=
  encode_eq_of_fields hop hrsv hidx.symm (setWidth_ofBool_getLsbD_zero hdata)

/-- An index read from its 9 bits fits them. -/
theorem wellFormed_wrf_idxField (w : Word64) (v : Count) : (Instr.wrf (idxField w).toNat v).WellFormed = true :=
  decide_eq_true (idxField w).isLt

theorem wellFormed_rdf_idxField (w : Word64) : (Instr.rdf (idxField w).toNat).WellFormed = true :=
  decide_eq_true (idxField w).isLt

/-! ### Decode and encode are inverses -/

/-- The decoder reads a well-formed command's word as that command (R93). -/
theorem decode_encode (h : i.WellFormed = true) : decode (encode i) = .instr i := by
  cases i with
  | wrf idx val =>
    have hidx : idx < 512 := of_decide_eq_true h
    simp [decode, encode, opcodeOf, idxOf, dataOf, formatXD_eq_instr, Nat.mod_eq_of_lt hidx]
  | rdf idx =>
    have hidx : idx < 512 := of_decide_eq_true h
    simp [decode, encode, opcodeOf, idxOf, dataOf, formatX_eq_instr, Nat.mod_eq_of_lt hidx]
  | wbit b => cases b <;> decide
  | nop | clr | rds | count | build | mkcode | encode | decode | wclose | rbit => decide

/-- A word of format `N` that is read as a command without operands is that command's word. -/
theorem encodes_of_formatN (h : formatN w j = .instr i) (hop : opField w = opcodeOf j)
    (hj : j.WellFormed = true ∧ idxOf j = 0 ∧ dataOf j = 0) : i.WellFormed = true ∧ encode i = w := by
  obtain ⟨⟨hrsv, hidx, hdata⟩, rfl⟩ := formatN_eq_instr.1 h
  obtain ⟨hwf, hidx', hdata'⟩ := hj
  exact ⟨hwf, encode_eq_of_fields hop hrsv (hidx'.trans hidx.symm) (hdata'.trans hdata.symm)⟩

/-- The decoder accepts no word but the one that encodes what it reads (R95): down the opcode map, each run of commands of format
`N` alike, and the three commands with operands by their formats. -/
theorem encodes_of_decode (h : decode w = .instr i) : i.WellFormed = true ∧ encode i = w := by
  unfold decode at h
  iterate 4
    obtain ⟨hop, h⟩ | ⟨-, h⟩ := ite_eq_iff.1 h
    · exact encodes_of_formatN h hop (by decide)
  obtain ⟨hop, h⟩ | ⟨-, h⟩ := ite_eq_iff.1 h
  · obtain ⟨hrsv, rfl⟩ := formatXD_eq_instr.1 h
    exact ⟨wellFormed_wrf_idxField w _, encode_wrf_fields hop hrsv⟩
  obtain ⟨hop, h⟩ | ⟨-, h⟩ := ite_eq_iff.1 h
  · obtain ⟨⟨hrsv, hdata⟩, rfl⟩ := formatX_eq_instr.1 h
    exact ⟨wellFormed_rdf_idxField w, encode_rdf_field hop hrsv hdata⟩
  iterate 4
    obtain ⟨hop, h⟩ | ⟨-, h⟩ := ite_eq_iff.1 h
    · exact encodes_of_formatN h hop (by decide)
  obtain ⟨hop, h⟩ | ⟨-, h⟩ := ite_eq_iff.1 h
  · obtain ⟨⟨hrsv, hidx, hdata⟩, rfl⟩ := formatB_eq_instr.1 h
    exact ⟨rfl, encode_wbit_field hop hrsv hidx hdata⟩
  iterate 2
    obtain ⟨hop, h⟩ | ⟨-, h⟩ := ite_eq_iff.1 h
    · exact encodes_of_formatN h hop (by decide)
  cases h

/-- The words of the well-formed commands are exactly those the decoder accepts. -/
theorem decode_eq_instr_iff : decode w = .instr i ↔ i.WellFormed = true ∧ encode i = w :=
  ⟨encodes_of_decode, fun ⟨hwf, e⟩ => e ▸ decode_encode hwf⟩

/-- Settles O1: an operand that fits its field is read back from it, command by command. -/
theorem encodeThenDecodeGivesTheCommand : Obligations.EncodeThenDecodeGivesTheCommand :=
  fun _ => decode_encode

/-- Settles O2: each format's zeros leave a word only the fields of its command. -/
theorem decodeAcceptsOnlyEncodings : Obligations.DecodeAcceptsOnlyEncodings :=
  fun _ _ => encodes_of_decode

/-! ### What a mask asks of a word (R91, R97) -/

theorem and_maskN (w : Word64) : w &&& maskN = w := BitVec.and_allOnes

theorem and_maskX : w &&& maskX = packWord op 0 0 ↔ opField w = op ∧ rsvField w = 0 ∧ dataField w = 0 := by
  have hop : opField maskX = BitVec.allOnes 8 := by decide
  have hrsv : rsvField maskX = BitVec.allOnes 15 := by decide
  have hidx : idxField maskX = 0 := by decide
  have hdata : dataField maskX = BitVec.allOnes 32 := by decide
  simp only [and_mask_eq_packWord, hop, hrsv, hidx, hdata, BitVec.and_allOnes]
  simp

theorem and_maskXD : w &&& maskXD = packWord op 0 0 ↔ opField w = op ∧ rsvField w = 0 := by
  have hop : opField maskXD = BitVec.allOnes 8 := by decide
  have hrsv : rsvField maskXD = BitVec.allOnes 15 := by decide
  have hidx : idxField maskXD = 0 := by decide
  have hdata : dataField maskXD = 0 := by decide
  simp only [and_mask_eq_packWord, hop, hrsv, hidx, hdata, BitVec.and_allOnes]
  simp

/-- All but bit 0 of `data` are 0 when the bits of `maskB` are. -/
theorem extractLsb'_eq_zero_of_and {d : BitVec 32} (h : d &&& 0xFFFFFFFE#32 = 0) : d.extractLsb' 1 31 = 0 := by
  have hm : (0xFFFFFFFE#32).extractLsb' 1 31 = BitVec.allOnes 31 := by decide
  rw [← BitVec.and_allOnes (x := d.extractLsb' 1 31), ← hm, ← BitVec.extractLsb'_and, h]
  simp

theorem fields_of_and_maskB (h : w &&& maskB = packWord op 0 0) :
    opField w = op ∧ rsvField w = 0 ∧ idxField w = 0 ∧ (dataField w).extractLsb' 1 31 = 0 := by
  obtain ⟨hop, hrsv, hidx, hdata⟩ := and_mask_eq_packWord.1 h
  refine ⟨?_, ?_, ?_, extractLsb'_eq_zero_of_and hdata⟩
  · rwa [show opField maskB = BitVec.allOnes 8 by decide, BitVec.and_allOnes] at hop
  · rwa [show rsvField maskB = BitVec.allOnes 15 by decide, BitVec.and_allOnes] at hrsv
  · rwa [show idxField maskB = BitVec.allOnes 9 by decide, BitVec.and_allOnes] at hidx

/-! ### The rows of the opcode table (R94, R97) -/

/-- A row of format `N` fits one word alone. -/
theorem encodes_of_fits_maskN {p : Word64} (h : w &&& maskN = p) (hi : encode i = p) : encode i = w :=
  hi.trans (h.symm.trans (and_maskN w))

/-- A word that fits a row is the word of a command of that row. -/
theorem exists_encode_of_fits (hr : r ∈ opcodeTable) (h : w &&& r.mask = r.pattern) :
    ∃ i : Instr, i.WellFormed = true ∧ encode i = w ∧ i.mnemonic = r.mnemonic := by
  simp only [opcodeTable, List.mem_cons, List.not_mem_nil, or_false] at hr
  rcases hr with rfl | rfl | rfl | rfl | rfl | rfl | rfl | rfl | rfl | rfl | rfl | rfl | rfl
  · exact ⟨.nop, rfl, encodes_of_fits_maskN h (by decide), rfl⟩
  · exact ⟨.clr, rfl, encodes_of_fits_maskN h (by decide), rfl⟩
  · exact ⟨.rds, rfl, encodes_of_fits_maskN h (by decide), rfl⟩
  · exact ⟨.count, rfl, encodes_of_fits_maskN h (by decide), rfl⟩
  · obtain ⟨hop, hrsv⟩ := and_maskXD.1 (show _ = packWord 0x11 0 0 from h)
    exact ⟨_, wellFormed_wrf_idxField w _, encode_wrf_fields hop hrsv, rfl⟩
  · obtain ⟨hop, hrsv, hdata⟩ := and_maskX.1 (show _ = packWord 0x12 0 0 from h)
    exact ⟨_, wellFormed_rdf_idxField w, encode_rdf_field hop hrsv hdata, rfl⟩
  · exact ⟨.build, rfl, encodes_of_fits_maskN h (by decide), rfl⟩
  · exact ⟨.mkcode, rfl, encodes_of_fits_maskN h (by decide), rfl⟩
  · exact ⟨.encode, rfl, encodes_of_fits_maskN h (by decide), rfl⟩
  · exact ⟨.decode, rfl, encodes_of_fits_maskN h (by decide), rfl⟩
  · obtain ⟨hop, hrsv, hidx, hdata⟩ := fields_of_and_maskB (show _ = packWord 0x40 0 0 from h)
    exact ⟨_, rfl, encode_wbit_field hop hrsv hidx hdata, rfl⟩
  · exact ⟨.wclose, rfl, encodes_of_fits_maskN h (by decide), rfl⟩
  · exact ⟨.rbit, rfl, encodes_of_fits_maskN h (by decide), rfl⟩

open Laws in
/-- Every command has a row, and its word fits it. -/
theorem encodingFitsRow (i : Instr) : EncodingFitsRow.Statement i := by
  cases i with
  | nop => exact EncodingFitsRow.nop
  | clr => exact EncodingFitsRow.clr
  | rds => exact EncodingFitsRow.rds
  | count => exact EncodingFitsRow.count
  | wrf idx val => exact EncodingFitsRow.wrf idx val
  | rdf idx => exact EncodingFitsRow.rdf idx
  | build => exact EncodingFitsRow.build
  | mkcode => exact EncodingFitsRow.mkcode
  | encode => exact EncodingFitsRow.encode
  | decode => exact EncodingFitsRow.decode
  | wbit b => exact EncodingFitsRow.wbit b
  | wclose => exact EncodingFitsRow.wclose
  | rbit => exact EncodingFitsRow.rbit

/-- A decoded word fits a row of its command. -/
theorem fits_of_decode (h : decode w = .instr i) :
    ∃ r ∈ opcodeTable, r.mnemonic = i.mnemonic ∧ w &&& r.mask = r.pattern := by
  obtain ⟨hwf, rfl⟩ := encodes_of_decode h
  obtain ⟨r, hr, hm, hfits⟩ := encodingFitsRow i hwf
  exact ⟨r, hr, hm, beq_iff_eq.1 hfits⟩

/-- No two rows have one mnemonic. -/
theorem row_eq_of_mnemonic_eq (hr : r ∈ opcodeTable) (hr' : r' ∈ opcodeTable) (h : r.mnemonic = r'.mnemonic) : r = r' :=
  List.inj_on_of_nodup_map (show (opcodeTable.map OpcodeRow.mnemonic).Nodup by decide) hr hr' h

/-- A word decodes to a command of a row exactly when it fits the row (R97). -/
theorem decode_row_iff (hr : r ∈ opcodeTable) :
    (∃ i, decode w = .instr i ∧ i.mnemonic = r.mnemonic) ↔ w &&& r.mask = r.pattern := by
  constructor
  · rintro ⟨i, hd, hm⟩
    obtain ⟨r', hr', hm', hfits⟩ := fits_of_decode hd
    rwa [row_eq_of_mnemonic_eq hr hr' (hm.symm.trans hm'.symm)]
  · intro h
    obtain ⟨i, hwf, e, hm⟩ := exists_encode_of_fits hr h
    exact ⟨i, decode_eq_instr_iff.2 ⟨hwf, e⟩, hm⟩

/-- The rows are disjoint: a word that fits two of them decodes to one command, which has one mnemonic (R97). -/
theorem row_eq_of_fits (hr : r ∈ opcodeTable) (hr' : r' ∈ opcodeTable) (h : w &&& r.mask = r.pattern)
    (h' : w &&& r'.mask = r'.pattern) : r = r' := by
  obtain ⟨i, hd, hm⟩ := (decode_row_iff hr).2 h
  obtain ⟨i', hd', hm'⟩ := (decode_row_iff hr').2 h'
  cases hd.symm.trans hd'
  exact row_eq_of_mnemonic_eq hr hr' (hm.symm.trans hm')

/-- A row's pattern is its opcode, shifted into place. -/
theorem pattern_eq_opField : ∀ r ∈ opcodeTable, r.pattern = (opField r.pattern).setWidth 64 <<< 56 := by decide

/-- A word that fits no row is no command (R95). -/
theorem decode_rejects_of_no_row (h : ∀ r ∈ opcodeTable, w &&& r.mask ≠ r.pattern) : ∃ x, decode w = .reject x := by
  cases hd : decode w with
  | instr i =>
    obtain ⟨r, hr, -, hfits⟩ := fits_of_decode hd
    exact absurd hfits (h r hr)
  | reject x => exact ⟨x, rfl⟩

/-- Settles O3: a command's word fits its row, and a word that fits a row is the word of a command of the row. -/
theorem decodeAgreesWithOpcodeTable : Obligations.DecodeAgreesWithOpcodeTable :=
  ⟨fun _ _ => decode_row_iff, fun _ _ _ => row_eq_of_fits, fun r hr => ⟨_, pattern_eq_opField r hr⟩,
    fun _ => decode_rejects_of_no_row⟩

/-- Settles O4: each word of 30_encoding section 7 is evaluated. -/
theorem referenceWordsDecode : Obligations.ReferenceWordsDecode := by
  unfold Obligations.ReferenceWordsDecode
  decide

end Sys2Proof

namespace Sys2Proof.Machine

/-! ### What the sequencer makes of a word (R92, R95, R272) -/

/-- Settles O5: an idle sequencer takes the word and runs what it decodes to. -/
theorem stepRunsTheDecodedCommand : Obligations.StepRunsTheDecodedCommand := by
  intro s w ws i hs hc hd
  rw [step_of_word hs hc, runWord, hd]

/-- A word that fits no row is taken and has the effect of an illegal one. -/
theorem step_of_no_row {s : State} {w : Word64} {ws : List Word64} (hs : s.seq = .idle) (hc : s.cmd = w :: ws)
    (h : ∀ r ∈ opcodeTable, w &&& r.mask ≠ r.pattern) : step s = .next (State.illegal { s with cmd := ws } w) := by
  obtain ⟨x, hd⟩ := decode_rejects_of_no_row h
  rw [step_of_word hs hc, runWord, hd]

/-- Settles O6: a word that fits no row raises `E_ILLCMD` where a command would run, and is discarded where one would be. -/
theorem illegalWordRaisesIllcmd : Obligations.IllegalWordRaisesIllcmd := by
  intro s w ws hs hc h
  rw [step_of_no_row hs hc h]
  exact ⟨fun he => congrArg Host.Outcome.next (State.unlessError_of_ok _ _ he),
    fun he => congrArg Host.Outcome.next (State.unlessError_of_error _ _ he)⟩

end Sys2Proof.Machine
end

section
/-! SUPPORT. What the system commands do in every state (40_system_commands), and what they and the other responding commands leave
unchanged (R137, R186). -/

namespace Sys2Proof.Machine

variable {s : State}

/-! ### The system commands (R120 to R123) -/

/-- Settles O10: none of the three commands looks at the error state before it acts. -/
theorem systemCommandsExecuteInEveryState : Obligations.SystemCommandsExecuteInEveryState := by
  intro s
  refine ⟨rfl, ⟨s.clear, rfl, s.clear_cleared, rfl, rfl, rfl, rfl, rfl, rfl, rfl⟩, fun hr => ?_⟩
  exact congrArg Host.Outcome.next (s.respond_of_takes s.statusWord none hr)

/-! ### The frames of the responding commands (R96) -/

/-- A response with no error after it changes RSP, or only where the sequencer waits: the frame of `RDS` (R123). -/
theorem State.respond_none_frame (s : State) (w : Word64) : s.respond w none = frameOf .rds s (s.respond w none) := by
  rcases s.respond_cases w none with ⟨-, e⟩ | ⟨-, e⟩ <;> rw [e] <;> rfl

/-- A command that responds keeps to its frame when its later stages do and the frame holds what a response may change: discarded,
it responds and does nothing else (R272). -/
theorem State.unlessErrorResponding_frame {i : Instr} {body : State → State}
    (hresp : ∀ t, s.withResponse t = frameOf i s (s.withResponse t)) (hbody : body s = frameOf i s (body s)) :
    s.unlessErrorResponding body = frameOf i s (s.unlessErrorResponding body) := by
  refine State.unlessErrorResponding_keeps (P := fun t => t = frameOf i s t) ?_ fun _ => hbody
  rw [s.respond_frame zeroResponse none]
  exact hresp _

/-- `RDF` changes what its response changes, with the error after it (R137). -/
theorem State.readFreq_frame (s : State) (idx : Nat) : s.readFreq idx = frameOf (.rdf idx) s (s.readFreq idx) := by
  obtain ⟨w, after, e, -⟩ := s.readFreq_cases idx
  rw [e]
  exact s.respond_frame w after

/-- `RBIT` changes the BitReader and IN and then what its response changes, or only waits for a token (R186). -/
theorem State.rbitRun_frame (s : State) : s.rbitRun = frameOf .rbit s s.rbitRun := by
  rcases s.rbitRun_cases with ⟨r, w, after, e, -⟩ | e
  · rw [e, (s.withReader r).respond_frame w after]; rfl
  · rw [e]; rfl

/-- Settles O48: `RDS` is its response, and `RDF` and `RBIT` keep to their frames executed and discarded. -/
theorem frameOfSystemAndRespondingCommands : Obligations.FrameOfSystemAndRespondingCommands := by
  intro i s t hi e
  cases i with
  | nop => cases e; rfl
  | clr => cases e; rfl
  | rds => cases e; exact s.respond_none_frame s.statusWord
  | rdf idx => cases e; exact State.unlessErrorResponding_frame (fun _ => rfl) (s.readFreq_frame idx)
  | rbit => cases e; exact State.unlessErrorResponding_frame (fun _ => rfl) s.rbitRun_frame
  | count | wrf _ _ | build | mkcode | encode | decode | wbit _ | wclose => simp [responds] at hi

end Sys2Proof.Machine
end

section
/-! SUPPORT. The FrequencyCounter (41_frequency_counter): what `COUNT` holds after a run of `BYTE` tokens and what the next token makes
of it, the one entry that `WRF` and `RDF` name, and what the table commands leave unchanged (R131, R136, R148, R166). -/

namespace Sys2Proof.Machine

variable {s : State} {x : List Byte}

/-! ### COUNT after a run of `BYTE` tokens (R131, R133) -/

/-- `COUNT` when it has counted the bytes `x`, nothing else yet done. -/
def State.counted (s : State) (x : List Byte) : State :=
  { s.countStart with freq := tally s.countStart.freq x }

/-- The bytes are counted, and `COUNT` goes on with the tokens after them. -/
theorem exec_count_bytes {ts : List Token} (hr : s.Ready) (hx : ∀ b, x.count b < 2 ^ 32) (hi : s.inp = x.map .byte ++ ts) :
    exec .count s = .next (countLoop ts (s.counted x)) := by
  have hfit : ∀ b, (s.countStart.freqAt (symbolOf b)).toNat + x.count b < 2 ^ 32 := by simpa using hx
  refine congrArg Host.Outcome.next ?_
  rw [s.unlessError_of_ok _ hr.2, State.countRun, State.countStart_inp, hi, countLoop_bytes x _ ts hfit, State.counted]

/-- A byte's entry is the number of its occurrences, while that is a count. -/
theorem State.freqAt_counted_byte (s : State) {b : Byte} (hb : x.count b < 2 ^ 32) :
    ((s.counted x).freqAt b.toNat).toNat = x.count b := by
  have h0 : (countIn s.countStart.freq (symbolOf b)).toNat = 0 :=
    congrArg BitVec.toNat (s.freqAt_countStart (symbolOf b))
  exact (tally_byte x s.countStart.freq b (by rwa [h0, Nat.zero_add])).trans (by rw [h0, Nat.zero_add])

/-- No byte is the sentinel. -/
theorem State.freqAt_counted_eos (s : State) (x : List Byte) : (s.counted x).freqAt 256 = 0 :=
  (tally_other x s.countStart.freq 256 (Nat.le_refl 256)).trans (s.freqAt_countStart 256)

/-- Summed over the bytes, the numbers of occurrences give the length (R133). -/
theorem sum_count_bytes (x : List Byte) : ((List.range 256).map fun i => x.count (BitVec.ofNat 8 i)).sum = x.length := by
  have hcount : ∀ i ∈ Finset.range 256, x.count (BitVec.ofNat 8 i) = (x.map BitVec.toNat : Multiset Nat).count i := by
    intro i hi
    have e : (BitVec.ofNat 8 i).toNat = i := Nat.mod_eq_of_lt (Finset.mem_range.1 hi)
    rw [Multiset.coe_count]
    conv_rhs => rw [← e]
    exact (List.count_map_of_injective x BitVec.toNat (fun _ _ => BitVec.eq_of_toNat_eq) _).symm
  have hmem : ∀ a ∈ (x.map BitVec.toNat : Multiset Nat), a ∈ Finset.range 256 := by
    intro a ha
    obtain ⟨b, -, rfl⟩ := List.mem_map.1 (Multiset.mem_coe.1 ha)
    exact Finset.mem_range.2 b.isLt
  calc ((List.range 256).map fun i => x.count (BitVec.ofNat 8 i)).sum
      = ∑ i ∈ Finset.range 256, x.count (BitVec.ofNat 8 i) := rfl
    _ = ∑ i ∈ Finset.range 256, (x.map BitVec.toNat : Multiset Nat).count i := Finset.sum_congr rfl hcount
    _ = x.length := by rw [Multiset.sum_count_eq_card hmem, Multiset.coe_card, List.length_map]

/-- Entries that are each byte's number of occurrences sum to the length (R133). -/
theorem sum_freqAt_of_counts (h : ∀ b : Byte, (s.freqAt b.toNat).toNat = x.count b) :
    ((List.range 256).map fun i => (s.freqAt i).toNat).sum = x.length := by
  rw [← sum_count_bytes x]
  refine congrArg List.sum (List.map_congr_left fun i hi => ?_)
  rw [← h (BitVec.ofNat 8 i), BitVec.toNat_ofNat, Nat.mod_eq_of_lt (List.mem_range.1 hi)]

/-! ### What the next token makes of the counts (R131, R134) -/

/-- Settles O13: `END` writes the sentinel's count beside the bytes' counts. -/
theorem countCountsOccurrences : Obligations.CountCountsOccurrences := by
  intro s x rest hr hx hi
  have hbyte (b : Byte) : ((countLoop (.endTok :: rest) (s.counted x)).freqAt b.toNat).toNat = x.count b := by
    have hne : b.toNat ≠ 256 := by have := b.isLt; omega
    rw [← s.freqAt_counted_byte (hx b)]
    exact congrArg BitVec.toNat (((s.counted x).freqAt_setFreq 256 b.toNat 1 (Nat.le_refl 256)).trans (if_neg hne))
  exact ⟨_, exec_count_bytes hr hx hi, hbyte, sum_freqAt_of_counts hbyte,
    (s.counted x).freqAt_setFreq 256 256 1 (Nat.le_refl 256), rfl⟩

/-- Settles O14: `FAIL` raises `E_IO_SRC` and leaves the counts as they stand. -/
theorem countStopsOnFail : Obligations.CountStopsOnFail := by
  intro s x rest hr hx hi
  exact ⟨_, exec_count_bytes hr hx hi, fun b => s.freqAt_counted_byte (hx b), s.freqAt_counted_eos x, rfl⟩

/-- A byte whose count is the largest raises `E_OVERFLOW` in place of the count after it (R134). -/
theorem countLoop_byte_of_max {b : Byte} (ts : List Token) (h : s.freqAt (symbolOf b) = countMax) :
    countLoop (.byte b :: ts) s = State.raise { s with inp := ts } .overflow (byteInfo b) :=
  if_pos h

/-- Settles O15: the byte that would pass `2^32 - 1` finds its count there and raises `E_OVERFLOW`. -/
theorem countNeverWraps : Obligations.CountNeverWraps := by
  intro s x b rest hr hx hb hi
  have hmax : (s.counted x).freqAt b.toNat = countMax := by
    apply BitVec.eq_of_toNat_eq
    rw [s.freqAt_counted_byte (hx b), hb]; rfl
  have hrun := exec_count_bytes hr hx hi
  rw [countLoop_byte_of_max rest hmax] at hrun
  exact ⟨_, hrun, hmax, fun c => s.freqAt_counted_byte (hx c), s.freqAt_counted_eos x, rfl⟩

/-- Settles O16: with no token left the loop waits, the counts as they stand. -/
theorem countWaitsForTokens : Obligations.CountWaitsForTokens := by
  intro s x hr hx hi
  have hrun := exec_count_bytes (ts := []) hr hx (by rw [hi, List.append_nil])
  exact ⟨_, hrun, fun b => s.freqAt_counted_byte (hx b), s.freqAt_counted_eos x, rfl⟩

/-! ### WRF and RDF of an entry (R136, R137) -/

/-- Stage 4 passes every index of an entry (R62). -/
theorem indexLegal_eq_true {idx : Nat} (h : idx ≤ 256) : indexLegal idx = true := decide_eq_true h

/-- `WRF` of an entry writes it and clears both flags (R136, R312). -/
theorem State.writeFreq_of_legal (s : State) {idx : Nat} (v : Count) (h : idx ≤ 256) :
    s.writeFreq idx v = (s.setFreq idx v).invalidate := if_pos (indexLegal_eq_true h)

/-- `RDF` of an entry responds it, with no error after (R137). -/
theorem State.readFreq_of_legal (s : State) {idx : Nat} (h : idx ≤ 256) :
    s.readFreq idx = s.respond (freqResponse (s.freqAt idx)) none := if_pos (indexLegal_eq_true h)

/-- Settles O17: the written entry reads back, and no other is touched. -/
theorem wrfWritesOneEntry : Obligations.WrfWritesOneEntry := by
  intro s idx val hr hidx
  have hrun : exec (.wrf idx val) s = .next (s.setFreq idx val).invalidate := by
    refine congrArg Host.Outcome.next ?_
    rw [s.unlessError_of_ok _ hr.2, s.writeFreq_of_legal val hidx]
  have hread (j : Nat) : (s.setFreq idx val).invalidate.freqAt j = if j = idx then val else s.freqAt j :=
    s.freqAt_setFreq idx j val hidx
  exact ⟨_, hrun, (hread idx).trans (if_pos rfl), fun j hj => (hread j).trans (if_neg hj), rfl⟩

/-- Each bit of `RDF`'s response (R96). -/
theorem freqResponse_getLsbD (c : Count) (i : Nat) : (freqResponse c).getLsbD i = (decide (i = 63) || c.getLsbD i) := by
  have hc : (c.setWidth 64).getLsbD i = c.getLsbD i := by simpa using fieldAt_getLsbD c 0 i (by decide)
  rw [freqResponse, BitVec.getLsbD_or, bitAt_getLsbD true 63 i (by decide), Bool.and_true, hc]

/-- Settles O19: the response holds bit 63, the entry below bit 32, and zeros between. -/
theorem rdfRespondsTheEntry : Obligations.RdfRespondsTheEntry := by
  intro s idx hr ht hidx
  refine ⟨freqResponse (s.freqAt idx), ?_, ?_, ?_, ?_⟩
  · refine congrArg Host.Outcome.next ?_
    rw [s.unlessErrorResponding_of_ok _ hr.2, s.readFreq_of_legal hidx, s.respond_of_takes _ none ht, State.afterRespond_none]
  · rw [freqResponse_getLsbD]; rfl
  · refine extractLsb'_eq_of_getLsbD fun j hj => ?_
    rw [freqResponse_getLsbD, BitVec.getLsbD_of_ge _ (32 + j) (by omega), Bool.or_false, decide_eq_false (by omega)]
    exact BitVec.getLsbD_zero.symm
  · refine extractLsb'_eq_of_getLsbD fun j hj => ?_
    rw [freqResponse_getLsbD, Nat.zero_add, decide_eq_false (by omega), Bool.false_or]

/-! ### The frames of the table commands -/

/-- `COUNT` changes the flags and `FREQ` at its start, and then what its loop changes (R131). -/
theorem State.countRun_frame (s : State) : s.countStart.countRun = frameOf .count s s.countStart.countRun := by
  rw [State.countRun, (countLoop_cases s.countStart.inp s.countStart).1]; rfl

/-- `WRF` writes an entry and the flags, or raises an error (R136). -/
theorem State.writeFreq_frame (s : State) (idx : Nat) (val : Count) :
    s.writeFreq idx val = frameOf (.wrf idx val) s (s.writeFreq idx val) := by
  unfold State.writeFreq; split <;> rfl

/-- `BUILD` writes the tree and the flags, or raises an error (R148). -/
theorem State.build_frame (s : State) : s.build = frameOf .build s s.build := by
  unfold State.build; split <;> rfl

/-- `MKCODE` writes the codes and their flag, or raises an error (R166). -/
theorem State.makeCodes_frame (s : State) : s.makeCodes = frameOf .mkcode s s.makeCodes := by
  unfold State.makeCodes; split <;> rfl

/-- A command keeps to its frame when its later stages do: discarded, it changes nothing (R272). -/
theorem State.unlessError_frame {i : Instr} {body : State → State} (hi : s = frameOf i s s)
    (hbody : body s = frameOf i s (body s)) : s.unlessError body = frameOf i s (s.unlessError body) :=
  State.unlessError_keeps (P := fun t => t = frameOf i s t) hi fun _ => hbody

/-- Settles O49: each of the four keeps to its frame executed and discarded. -/
theorem frameOfTableCommands : Obligations.FrameOfTableCommands := by
  intro s t idx val
  refine ⟨fun e => ?_, fun e => ?_, fun e => ?_, fun e => ?_⟩ <;> cases e
  · exact State.unlessError_frame rfl s.countRun_frame
  · exact State.unlessError_frame rfl (s.writeFreq_frame idx val)
  · exact State.unlessError_frame rfl s.build_frame
  · exact State.unlessError_frame rfl s.makeCodes_frame

end Sys2Proof.Machine
end

section
/-! SUPPORT. The TreeBuilder (42_tree_builder): `BUILD` as the tree of `FREQ` put into the state, which slots of that tree hold an
Internal node and are a node's parents (R148, R152), and the order and the choices of its queue (R147, R149, R150). -/

namespace Sys2Proof.Machine

variable {f : FreqTable} {t : Tree} {s : State}

/-! ### BUILD with and without the sentinel's count (R146, R148, R153) -/

/-- The state with a finished tree, as `BUILD` leaves it. -/
def State.withTree (s : State) (t : Tree) : State :=
  { s with node := t.node, root := t.root, nn := t.nn, pq := t.pq, treeValid := true, codesValid := false }

/-- Outside the error state `BUILD` is its body. -/
theorem exec_build_of_ready (hr : s.Ready) : exec .build s = .next s.build :=
  congrArg Host.Outcome.next (s.unlessError_of_ok State.build hr.2)

/-- A table that passes the check gets its tree. -/
theorem exec_build_of_sentinel (hr : s.Ready) (h : s.freqAt 256 = 1) :
    exec .build s = .next (s.withTree (buildTree s.freq)) :=
  (exec_build_of_ready hr).trans (congrArg Host.Outcome.next (if_pos h))

/-- A table that fails the check raises `E_FORMAT`. -/
theorem exec_build_of_no_sentinel (hr : s.Ready) (h : s.freqAt 256 ≠ 1) : exec .build s = .next (s.raise .format 0) :=
  (exec_build_of_ready hr).trans (congrArg Host.Outcome.next (if_neg h))

/-- What a successful `BUILD` answers is the state with the tree. -/
theorem eq_withTree_of_exec_build {u : State} (hr : s.Ready) (h : s.freqAt 256 = 1) (e : exec .build s = .next u) :
    u = s.withTree (buildTree s.freq) :=
  (Host.Outcome.next.inj ((exec_build_of_sentinel hr h).symm.trans e)).symm

/-- The tree of a table that passes the check is a finished one. -/
theorem State.built_of_sentinel (h : s.freqAt 256 = 1) : Built s.freq (buildTree s.freq) :=
  buildTree_built (ne_of_eq_of_ne h (by decide))

/-- Settles O20: the check alone decides between the error and the tree. -/
theorem buildChecksTheSentinelCount : Obligations.BuildChecksTheSentinelCount := by
  intro s hr
  exact ⟨exec_build_of_no_sentinel hr, fun h => ⟨_, exec_build_of_sentinel hr h, hr.2, rfl⟩⟩

/-- Settles O28: of the state, the tree reads `FREQ`. -/
theorem buildDependsOnFreqAlone : Obligations.BuildDependsOnFreqAlone := by
  intro s s' u u' hr hr' h hf e e'
  have h' : s'.freqAt 256 = 1 := by rwa [State.freqAt, ← hf]
  rw [eq_withTree_of_exec_build hr h e, eq_withTree_of_exec_build hr' h' e', hf]
  exact ⟨rfl, rfl, rfl⟩

/-! ### The Internal nodes of a finished tree (R152) -/

/-- From 257 on the valid slots are those below `NN`. -/
theorem Built.valid_iff (h : Built f t) {n : NodeIx} (hn : 257 ≤ n.toNat) :
    (nodeIn t.node n).valid = true ↔ n.toNat < t.nn.toNat :=
  ⟨h.valid_lt, fun hlt => (h.slots n.toNat hn hlt).1⟩

/-- A valid Internal node stands in a slot that a merge filled. -/
theorem Built.internal_slot (h : Built f t) {n : NodeIx} (hv : (nodeIn t.node n).valid = true)
    (hk : (nodeIn t.node n).kind = .internal) : 257 ≤ n.toNat ∧ n.toNat < t.nn.toNat :=
  ⟨(h.internal_iff hv).1 hk, h.valid_lt hv⟩

/-- The parents of a node are the valid Internal nodes that have it as a child. -/
theorem Built.parentOf_iff (h : Built f t) {p n : NodeIx} : t.ParentOf p.toNat n ↔
    (nodeIn t.node p).valid = true ∧ (nodeIn t.node p).kind = .internal
      ∧ ((nodeIn t.node p).left = n ∨ (nodeIn t.node p).right = n) := by
  constructor
  · rintro ⟨hlo, hhi, hc⟩
    obtain ⟨hv, hk⟩ := h.slots p.toNat hlo hhi
    exact ⟨hv, hk, hc⟩
  · rintro ⟨hv, hk, hc⟩
    obtain ⟨hlo, hhi⟩ := h.internal_slot hv hk
    exact ⟨hlo, hhi, hc⟩

/-- A parent's slot is a node index. -/
theorem Built.parentOf_toNat (h : Built f t) {p : Nat} {n : NodeIx} (hp : t.ParentOf p n) :
    (BitVec.ofNat 10 p).toNat = p := by
  have := h.high
  have := hp.2.1
  exact Nat.mod_eq_of_lt (by omega)

/-- Settles O24: the children of an Internal node are `Built.children`; a node's one parent is `Built.parents`. -/
theorem buildMakesAFullTree : Obligations.BuildMakesAFullTree := by
  intro s u hr hs e
  obtain rfl := eq_withTree_of_exec_build hr hs e
  have h := State.built_of_sentinel hs
  refine ⟨fun n hv hk => ?_, fun n hv hne => ?_, fun p hv hk => ?_⟩
  · obtain ⟨hlo, hhi⟩ := h.internal_slot hv hk
    obtain ⟨hne, hl, hr, hlv, hrv, -⟩ := h.children n.toNat hlo hhi
    exact ⟨hne, hlv, hrv, hl, hr⟩
  · obtain ⟨p, hp, honly⟩ := h.parents n hv hne
    have ep := h.parentOf_toNat hp
    refine ⟨BitVec.ofNat 10 p, h.parentOf_iff.1 (ep.symm ▸ hp), fun p' hv' hk' hc' => BitVec.eq_of_toNat_eq ?_⟩
    exact (honly p'.toNat (h.parentOf_iff.2 ⟨hv', hk', hc'⟩)).trans ep.symm
  · have hno (hc) := h.rootOrphan p.toNat (h.parentOf_iff.2 ⟨hv, hk, hc⟩)
    exact ⟨fun el => hno (.inl el), fun er => hno (.inr er)⟩

/-- Settles O25: each merge added its children's weights, and the queue's whole weight stayed that of `FREQ`. -/
theorem buildAddsWeightsWithoutOverflow : Obligations.BuildAddsWeightsWithoutOverflow := by
  intro s u hr hs e
  obtain rfl := eq_withTree_of_exec_build hr hs e
  have h := State.built_of_sentinel hs
  refine ⟨fun n hv hk => ?_, h.weight, totalCount_lt s.freq⟩
  obtain ⟨hlo, hhi⟩ := h.internal_slot hv hk
  obtain ⟨-, -, -, -, -, hw⟩ := h.children n.toNat hlo hhi
  exact hw

/-- Settles O23: the slots up to 256 are the Leaves', those from 257 to `NN - 1` the merges'. -/
theorem buildFillsTheArena : Obligations.BuildFillsTheArena := by
  intro s hr hs
  have h := State.built_of_sentinel hs
  refine ⟨_, exec_build_of_sentinel hr hs, fun i hi => ?_, h.size, fun n hn => h.valid_iff hn,
    fun n hn hv => (h.internal_iff hv).2 hn, h.rootAt, ?_⟩
  · exact (congrArg (buildTree s.freq).at (leafIx_toNat (by omega))).trans (h.leaves i hi)
  · rw [State.withTree, h.queue]

/-! ### The sentinel alone (R151) -/

/-- With no count but the sentinel's there is one Leaf. -/
theorem leafCount_of_sentinel_alone (h0 : ∀ i < 256, countIn f i = 0) (h1 : countIn f 256 = 1) : leafCount f = 1 := by
  have hbytes : (List.range 256).countP (fun i => countIn f i != 0#32) = 0 :=
    List.countP_eq_zero.2 fun i hi => by simpa using h0 i (List.mem_range.1 hi)
  rw [leafCount, List.range_succ, List.countP_append, hbytes]
  simp [h1]

/-- Settles O26: one Leaf, so no merge, and the root is the sentinel's slot. -/
theorem emptyTableGivesALeafRoot : Obligations.EmptyTableGivesALeafRoot := by
  intro s hr h0 hs
  have h := State.built_of_sentinel hs
  have hL : leafCount s.freq = 1 := leafCount_of_sentinel_alone h0 hs
  have hnn : (buildTree s.freq).nn.toNat = 257 := by have := h.size; omega
  have hroot : (buildTree s.freq).root.toNat = 256 := by rw [h.rootAt, if_pos hL]
  refine ⟨_, exec_build_of_sentinel hr hs, BitVec.eq_of_toNat_eq hroot, BitVec.eq_of_toNat_eq hnn, rfl,
    (h.leaf_iff h.root_valid).2 hroot.le, fun n hn => ?_⟩
  exact Bool.eq_false_iff.2 fun hv => absurd ((h.valid_iff hn).1 hv) (by omega)

/-! ### The order of the queue and the merges' choices (R147, R149, R150) -/

/-- Settles O21: one of two different nodes is below the other, and not both, since the order is irreflexive and transitive. -/
theorem queueOrderIsStrictAndTotal : Obligations.QueueOrderIsStrictAndTotal := by
  intro t x y z
  refine ⟨keyLt_irrefl t x, keyLt_trans, fun hne => ⟨fun hxy => ?_, keyLt_or hne.symm⟩⟩
  by_contra hyx
  rw [Bool.not_eq_false] at hyx
  exact absurd (keyLt_trans hxy hyx) (by simp [keyLt_irrefl])

/-- On a queue without repeats the rest holds larger keys only (R147). -/
theorem extractMin_of_nodup (t : NodeTable) {q : List NodeIx} (hnd : q.Nodup) (hq : q ≠ []) :
    ∃ m q', extractMin t q = some (m, q') ∧ q.Perm (m :: q') ∧ ∀ x ∈ q', keyLt t m x = true := by
  obtain ⟨m, hm, e, hmin⟩ := extractMin_spec t hq
  refine ⟨m, q.erase m, e, List.perm_cons_erase hm, fun x hx => ?_⟩
  obtain ⟨hne, hxq⟩ := hnd.mem_erase_iff.1 hx
  exact (hmin x hxq).resolve_left hne

/-- A node that no earlier Internal node has as a child was without a parent at the merge that made node `n`. -/
theorem Built.no_earlier_parent (h : Built f t) {n x : NodeIx}
    (hno : ∀ p : NodeIx, (nodeIn t.node p).valid = true → (nodeIn t.node p).kind = .internal → p.toNat < n.toNat →
      (nodeIn t.node p).left ≠ x ∧ (nodeIn t.node p).right ≠ x) :
    ∀ p < n.toNat, ¬ t.ParentOf p x := by
  intro p hp hpx
  have ep := h.parentOf_toNat hpx
  obtain ⟨hv, hk, hc⟩ := h.parentOf_iff.1 (ep.symm ▸ hpx)
  obtain ⟨hl, hr⟩ := hno _ hv hk (ep.symm ▸ hp)
  exact hc.elim hl hr

/-- Settles O22: the order and `ExtractMin` by their laws; every merge took the two smallest keys, which `Forest` carries through
the later ones. -/
theorem extractMinRemovesTheSmallestKey : Obligations.ExtractMinRemovesTheSmallestKey := by
  refine ⟨keyLt_iff, fun t q => extractMin_of_nodup t, fun s u hr hs e n hv hk => ?_⟩
  obtain rfl := eq_withTree_of_exec_build hr hs e
  have h := State.built_of_sentinel hs
  obtain ⟨hlo, hhi⟩ := h.internal_slot hv hk
  obtain ⟨hlr, hmin⟩ := h.smallest n.toNat hlo hhi
  exact ⟨hlr, fun x hxv hxn hno => hmin x hxv hxn (h.no_earlier_parent hno)⟩

end Sys2Proof.Machine
end

section
/-! SUPPORT. The CodeTableBuilder (43_code_table_builder): `MKCODE` outside the error state, the finished tree and the codes that
the two flags promise (R30), and the laws of the codes (R166 to R170). -/

namespace Sys2Proof.Machine

variable {f : FreqTable} {t : Tree} {s : State} {i j : Nat} {p q : List Bool}

/-! ### What the flags promise (R30) -/

/-- The tree that stands in the state, the queue empty as it is between commands (R29). -/
def State.tree (s : State) : Tree := ⟨s.node, s.root, s.nn, []⟩

/-- While `TREE_VALID` is 1 the tree in the state is a finished one. -/
theorem State.built_of_treeOk (h : s.TreeOk) (ht : s.treeValid = true) : Built s.freq s.tree := by
  obtain ⟨hf, hn, hr, hnn⟩ := h ht
  have hb := State.built_of_sentinel hf
  have e : s.tree = buildTree s.freq := by rw [State.tree, hn, hr, hnn, ← hb.queue]
  exact e ▸ hb

/-- While `CODES_VALID` is 1 the tree is a finished one too, and the codes are those of that tree. -/
theorem State.built_of_codesOk (hv : s.codesValid = true) (h : s.TreeOk) (hc : s.CodesOk) :
    Built s.freq s.tree ∧ ∀ i, s.codeAt i = codeIn (codeTable s.tree.node s.tree.root) i := by
  obtain ⟨ht, hcode⟩ := hc hv
  exact ⟨State.built_of_treeOk h ht, fun i => congrArg (codeIn · i) hcode⟩

/-- Outside the error state `MKCODE` writes the codes of a valid tree, and nothing else but their flag (R166). -/
theorem exec_mkcode_of_treeValid (hr : s.Ready) (ht : s.treeValid = true) :
    exec .mkcode s = .next { s with code := codeTable s.node s.root, codesValid := true } :=
  congrArg Host.Outcome.next ((s.unlessError_of_ok State.makeCodes hr.2).trans (if_pos ht))

/-! ### Codes and paths in a finished tree (R167, R168) -/

theorem leafIx_of_toNat (n : NodeIx) : leafIx n.toNat = n := by simp [leafIx]

/-- Two symbols with one Leaf slot are the same. -/
theorem leafIx_inj (hi : i ≤ 256) (hj : j ≤ 256) (e : leafIx i = leafIx j) : i = j := by
  rw [← leafIx_toNat (show i < 1024 by omega), e, leafIx_toNat (by omega)]

/-- The slot of a symbol with a count is a Leaf. -/
theorem Built.leafIx_leaf (h : Built f t) (hi : i ≤ 256) (hc : countIn f i ≠ 0#32) :
    (nodeIn t.node (leafIx i)).kind = .leaf :=
  (h.leaf_iff ((h.leafIx_valid hi).2 hc)).2 (by rwa [leafIx_toNat (by omega)])

/-- A code leads to a Leaf. -/
theorem Built.code_leads_to_leaf (h : Built f t) (hr : (nodeIn t.node t.root).kind = .internal)
    (hp : codeIn (codeTable t.node t.root) i = some p) : (nodeIn t.node (follow t.node t.root p)).kind = .leaf := by
  obtain ⟨hi, -, hend⟩ := (h.code_iff hr i p).1 hp
  rw [hend]
  exact h.leafIx_leaf hi ((h.code_exists hr hi).1 ⟨p, hp⟩)

/-- A path from the root to a Leaf is the code of the symbol whose slot it is. -/
theorem Built.code_of_path (h : Built f t) (hr : (nodeIn t.node t.root).kind = .internal) (hp : IsPath t.node t.root p)
    (hk : (nodeIn t.node (follow t.node t.root p)).kind = .leaf) :
    codeIn (codeTable t.node t.root) (follow t.node t.root p).toNat = some p :=
  (h.code_iff hr _ p).2 ⟨(h.leaf_iff (h.follow_valid p h.root_valid hp)).1 hk, hp, (leafIx_of_toNat _).symm⟩

/-- Under a Leaf root a code is the sentinel's one bit. -/
theorem Built.leaf_root_code_iff (h : Built f t) (hr : (nodeIn t.node t.root).kind = .leaf) :
    codeIn (codeTable t.node t.root) i = some p ↔ i = 256 ∧ p = [false] := by
  rw [h.leaf_root_code hr]
  split
  · next hi => simp [hi, eq_comm]
  · next hi => simp [hi]

/-- Under a Leaf root the counted symbol is the sentinel: a path to any other Leaf would lead down from the root (R151). -/
theorem Built.leaf_root_counted (h : Built f t) (hr : (nodeIn t.node t.root).kind = .leaf) (hi : i ≤ 256) :
    countIn f i ≠ 0#32 ↔ i = 256 := by
  have hroot : t.root = leafIx 256 := (h.leaf_root hr).1
  constructor
  · intro hc
    obtain ⟨q, hq, hend⟩ := h.path_exists _ (leafIx i) ((h.leafIx_valid hi).2 hc) (Nat.le_refl _)
    cases q with
    | nil => exact leafIx_inj hi (Nat.le_refl _) (hend.symm.trans hroot)
    | cons b q => exact absurd (hr.symm.trans (isPath_cons.1 hq).1) (by decide)
  · rintro rfl
    exact (h.leafIx_valid (Nat.le_refl _)).1 (hroot ▸ h.root_valid)

/-! ### The laws of the codes (R170) -/

/-- A symbol has a code iff its count is not 0, whatever the root is. -/
theorem Built.code_present_iff (h : Built f t) (hi : i ≤ 256) :
    (∃ p, codeIn (codeTable t.node t.root) i = some p) ↔ countIn f i ≠ 0#32 := by
  cases hr : (nodeIn t.node t.root).kind with
  | internal => exact h.code_exists hr hi
  | leaf => simp [h.leaf_root_counted hr hi, h.leaf_root_code_iff hr]

/-- A code has 1 to 256 bits: the Internal root has no empty path to a Leaf, and each bit leads to a smaller slot (R7). -/
theorem Built.code_length (h : Built f t) (hp : codeIn (codeTable t.node t.root) i = some p) :
    1 ≤ p.length ∧ p.length ≤ 256 := by
  cases hr : (nodeIn t.node t.root).kind with
  | internal =>
    have hpath := ((h.code_iff hr i p).1 hp).2.1
    have hlen := h.path_length p h.root_valid hpath
    have hroot := h.rootValid.1
    have hhigh := h.high
    have hne : p ≠ [] := by
      rintro rfl
      exact absurd (hr.symm.trans (h.code_leads_to_leaf hr hp)) (by decide)
    exact ⟨List.length_pos_iff.2 hne, by omega⟩
  | leaf =>
    obtain ⟨-, rfl⟩ := (h.leaf_root_code_iff hr).1 hp
    decide

/-- A code that begins another is that one, so the symbols are the same: the longer path would go on through a Leaf. -/
theorem Built.eq_of_code_prefix (h : Built f t) (hp : codeIn (codeTable t.node t.root) i = some p)
    (hq : codeIn (codeTable t.node t.root) j = some q) (hpq : p <+: q) : i = j := by
  cases hr : (nodeIn t.node t.root).kind with
  | internal =>
    obtain ⟨hi, -, hpi⟩ := (h.code_iff hr i p).1 hp
    obtain ⟨hj, hpath, hqj⟩ := (h.code_iff hr j q).1 hq
    obtain ⟨r, rfl⟩ := hpq
    cases r with
    | nil => exact leafIx_inj hi hj (by rw [← hpi, ← hqj, List.append_nil])
    | cons b r =>
      have hinner := hpath p (b :: r) rfl (List.cons_ne_nil b r)
      exact absurd (hinner.symm.trans (h.code_leads_to_leaf hr hp)) (by decide)
  | leaf => exact ((h.leaf_root_code_iff hr).1 hp).1.trans ((h.leaf_root_code_iff hr).1 hq).1.symm

/-- A bit sequence as long as the longest code begins with a code: under an Internal root always, since it leads to a Leaf. -/
theorem Built.begins_with_code_iff (h : Built f t) {bits : List Bool} (hb : bits.length = 256) :
    (∃ i p, codeIn (codeTable t.node t.root) i = some p ∧ p <+: bits) ↔
      (nodeIn t.node t.root).kind = .internal ∨ bits.head? = some false := by
  cases hr : (nodeIn t.node t.root).kind with
  | internal =>
    have hroot : t.root.toNat ≤ bits.length + 256 := by have := h.rootValid.1; have := h.high; omega
    obtain ⟨p, hpre, hpath, hk⟩ := h.leaf_along _ t.root bits h.root_valid (Nat.lt_succ_self _) hroot
    exact iff_of_true ⟨_, p, h.code_of_path hr hpath hk, hpre⟩ (.inl rfl)
  | leaf =>
    have hone : (∃ i p, codeIn (codeTable t.node t.root) i = some p ∧ p <+: bits) ↔ [false] <+: bits := by
      simp [h.leaf_root_code_iff hr]
    rw [hone]
    cases bits <;> simp [eq_comm]

/-! ### The statements -/

/-- Settles O30: the codes of the finished tree are its paths to Leaves, one to each valid one (`Built.code_iff`). -/
theorem mkcodeGivesEveryLeafItsPath : Obligations.MkcodeGivesEveryLeafItsPath := by
  intro s hr ht hok hk
  have h := State.built_of_treeOk hok ht
  have present : ∀ i ≤ 256, (∃ p, codeIn (codeTable s.node s.root) i = some p) ↔ (s.nodeAt (leafIx i)).valid = true :=
    fun i hi => (h.code_exists hk hi).trans (h.leafIx_valid hi).symm
  refine ⟨_, exec_mkcode_of_treeValid hr ht, fun i hi hv => ?_, fun i hi hv => ?_, rfl⟩
  · obtain ⟨p, hp⟩ := (present i hi).2 hv
    obtain ⟨-, hpath, hend⟩ := (h.code_iff hk i p).1 hp
    exact ⟨p, hp, hend, hpath⟩
  · refine Option.eq_none_iff_forall_ne_some.2 fun p hp => ?_
    exact Bool.eq_false_iff.1 hv ((present i hi).1 ⟨p, hp⟩)

/-- Settles O31: a Leaf root is the sentinel's slot, and `MKCODE` gives it the one bit (`Built.leaf_root_code`). -/
theorem leafRootHasTheOneBitCode : Obligations.LeafRootHasTheOneBitCode := by
  intro s hr ht hok hk
  have h := State.built_of_treeOk hok ht
  exact ⟨_, exec_mkcode_of_treeValid hr ht, (h.leaf_root hk).1, fun i _ => h.leaf_root_code hk i, rfl⟩

/-- Settles O32: the flags promise the codes of a finished tree, where the counted symbols have one. -/
theorem codesArePresentForCountedSymbols : Obligations.CodesArePresentForCountedSymbols := by
  intro s hv hok hc i hi
  obtain ⟨h, hcode⟩ := State.built_of_codesOk hv hok hc
  rw [hcode]
  refine ⟨fun h0 => ?_, fun h0 => ?_⟩
  · exact Option.eq_none_iff_forall_ne_some.2 fun p hp => (h.code_present_iff hi).1 ⟨p, hp⟩ h0
  · obtain ⟨p, hp⟩ := (h.code_present_iff hi).2 h0
    exact ⟨p, hp, h.code_length hp⟩

/-- Settles O33: in a finished tree only a symbol's own code begins its code. -/
theorem codesArePrefixFree : Obligations.CodesArePrefixFree := by
  intro s hv hok hc i j p q hij hp hq hpq
  obtain ⟨h, hcode⟩ := State.built_of_codesOk hv hok hc
  rw [hcode] at hp hq
  exact hij (h.eq_of_code_prefix hp hq hpq)

/-- Settles O34: under an Internal root the bits lead to a Leaf; under a Leaf root the one code is the bit 0. -/
theorem codesAreComplete : Obligations.CodesAreComplete := by
  intro s hv hok hc bits hb
  obtain ⟨h, hcode⟩ := State.built_of_codesOk hv hok hc
  simp only [hcode]
  exact h.begins_with_code_iff hb

end Sys2Proof.Machine
end

section
/-! SUPPORT. The bit adapters (44_bit_writer_reader): the bytes of the BitWriter and the responses of `RBIT` as numbers, what
the three commands make of each outcome at their ports, the two laws of the bit streams, and what the stream commands leave
unchanged. -/

namespace Sys2Proof.Machine

variable {s t : State}

/-! ### The bytes of the BitWriter as numbers (R181, R182) -/

/-- One more bit at the low end, the top one dropped, is the library's `shiftConcat`. -/
theorem shiftIn_eq_shiftConcat (acc : BitVec 8) (b : Bool) : shiftIn acc b = acc.shiftConcat b := by
  apply BitVec.eq_of_getLsbD_eq
  intro i hi
  rw [shiftIn_getLsbD acc b i hi, BitVec.getLsbD_shiftConcat, decide_eq_true hi, Bool.true_and]

/-- The accumulator with one more bit, as R181 computes it. -/
theorem shiftIn_eq_ofNat (acc : BitVec 8) (b : Bool) : shiftIn acc b = BitVec.ofNat 8 (2 * acc.toNat + b.toNat) := by
  apply BitVec.eq_of_toNat_eq
  rw [shiftIn_eq_shiftConcat, BitVec.toNat_shiftConcat, BitVec.toNat_ofNat, Nat.shiftLeft_eq, pow_one, Nat.mul_comm]

/-- The padded byte, as R182 computes it. -/
theorem paddedByte_eq_ofNat (acc : BitVec 8) (n : BitVec 3) :
    paddedByte acc n = BitVec.ofNat 8 (acc.toNat * 2 ^ (8 - n.toNat)) := by
  apply BitVec.eq_of_toNat_eq
  rw [paddedByte, BitVec.toNat_shiftLeft, BitVec.toNat_ofNat, Nat.shiftLeft_eq]

/-! ### `WBIT` and `WCLOSE` (R183, R184) -/

/-- What a command waiting at `a` makes of each answer of the sink to the byte that its last operation offers (R68). -/
theorem State.flushByte_endAt (s : State) (byte : Byte) (rest : List Bool) (a : Activity) :
    (∀ s', s.sinkWrite byte = .accepted s' → (s.flushByte byte rest).endAt a = { s' with bwAcc := 0, bwN := 0 })
      ∧ (∀ s', s.sinkWrite byte = .failed s' → (s.flushByte byte rest).endAt a = { s' with err := .ioSnk, errInfo := 0 })
      ∧ (s.sinkWrite byte = .wait → (s.flushByte byte rest).endAt a = s.suspend a) := by
  refine ⟨fun s' e => ?_, fun s' e => ?_, fun e => ?_⟩
  · rw [State.flushByte, e]; rfl
  · rw [State.flushByte, e]; rfl
  · rw [State.flushByte, e]; rfl

/-- Outside the error state `WBIT` ends with its `WriteBit`. -/
theorem exec_wbit_of_ready (hr : s.Ready) (b : Bool) : exec (.wbit b) s = .next ((s.writeBit b).endAt (.wbit b)) :=
  congrArg Host.Outcome.next (s.unlessError_of_ok _ hr.2)

/-- Outside the error state `WCLOSE` ends with its `Close`. -/
theorem exec_wclose_of_ready (hr : s.Ready) : exec .wclose s = .next (s.closeWriter.endAt .wclose) :=
  congrArg Host.Outcome.next (s.unlessError_of_ok _ hr.2)

/-- Settles O36: below seven pending bits the bit joins them, and the eighth bit offers the byte. -/
theorem wbitWritesOneBit : Obligations.WbitWritesOneBit := by
  intro s b hr
  simp only [exec_wbit_of_ready hr, Host.Outcome.next.injEq, ← shiftIn_eq_ofNat]
  have hfull (h : s.bwN = 7) : s.writeBit b = s.flushByte (shiftIn s.bwAcc b) [b] := by
    rw [State.writeBit, if_neg (by rw [h]; decide)]
  obtain ⟨hok, hfail, hwait⟩ := s.flushByte_endAt (shiftIn s.bwAcc b) [b] (.wbit b)
  refine ⟨fun h => ?_, fun s' h e => ?_, fun s' h e => ?_, fun h e => ?_⟩
  · have hlt : s.bwN.toNat < 7 := by
      have hne : s.bwN.toNat ≠ 7 := fun e => h (BitVec.eq_of_toNat_eq e)
      have := s.bwN.isLt
      omega
    rw [State.writeBit, if_pos hlt]; rfl
  · rw [hfull h]; exact hok s' e
  · rw [hfull h]; exact hfail s' e
  · rw [hfull h]; exact hwait e

/-- Settles O37: with no pending bit `Close` is over at once, else it offers the padded byte. -/
theorem wcloseEmitsThePaddedByte : Obligations.WcloseEmitsThePaddedByte := by
  intro s hr
  simp only [exec_wclose_of_ready hr, Host.Outcome.next.injEq, ← paddedByte_eq_ofNat]
  have hpend (h : s.bwN ≠ 0) : s.closeWriter = s.flushByte (paddedByte s.bwAcc s.bwN) [] := if_neg h
  obtain ⟨hok, hfail, hwait⟩ := s.flushByte_endAt (paddedByte s.bwAcc s.bwN) [] .wclose
  refine ⟨fun h => ?_, fun s' h e => ?_, fun s' h e => ?_, fun h e => ?_⟩
  · rw [State.closeWriter, if_pos h]; rfl
  · rw [hpend h]; exact hok s' e
  · rw [hpend h]; exact hfail s' e
  · rw [hpend h]; exact hwait e

/-! ### `RBIT` (R186) -/

/-- The response for a bit, as a number (R96). -/
theorem bitResponse_eq (b : Bool) : bitResponse b = 0x8000000000000000#64 + BitVec.ofNat 64 b.toNat := by
  cases b <;> rfl

/-- `ReadBit` once the source has ended (R185). -/
theorem State.readBit_of_eof (he : s.brEof = true) : s.readBit = .eosSig s := if_pos he

/-- `ReadBit` while bits are held (R185). -/
theorem State.readBit_of_held (he : s.brEof = false) (hn : s.brN ≠ 0) :
    s.readBit = .bit (s.brBuf.getLsbD 7) { s with brBuf := s.brBuf <<< 1, brN := s.brN - 1 } := by
  rw [State.readBit, he, if_neg Bool.false_ne_true, if_neg hn, BitVec.msb_eq_getLsbD_last]

/-- `ReadBit` with no bit held takes the next byte: its bit 7 is read, its other seven are held (R185). -/
theorem State.readBit_of_byte {v : Byte} {ts : List Token} (he : s.brEof = false) (hn : s.brN = 0) (hi : s.inp = .byte v :: ts) :
    s.readBit = .bit (v.getLsbD 7) { s with brBuf := v <<< 1, brN := 7, inp := ts } := by
  simp only [State.readBit, State.srcRead, he, hn, hi, BitVec.msb_eq_getLsbD_last]; rfl

/-- `ReadBit` with no bit held takes `END` (R185). -/
theorem State.readBit_of_endTok {ts : List Token} (he : s.brEof = false) (hn : s.brN = 0) (hi : s.inp = .endTok :: ts) :
    s.readBit = .eosSig { s with brEof := true, inp := ts } := by
  simp only [State.readBit, State.srcRead, he, hn, hi]; rfl

/-- `ReadBit` with no bit held takes `FAIL` (R185). -/
theorem State.readBit_of_failTok {ts : List Token} (he : s.brEof = false) (hn : s.brN = 0) (hi : s.inp = .failTok :: ts) :
    s.readBit = .failed { s with inp := ts } := by
  simp only [State.readBit, State.srcRead, he, hn, hi]; rfl

/-- What `RBIT` responds for each outcome of its `ReadBit`, outside the error state and with RSP taken where `ReadBit` leaves it. -/
theorem exec_rbit_of_readBit (hr : s.Ready) :
    (∀ b t, s.readBit = .bit b t → t.RspTakes →
        exec .rbit s = .next (t.answered (0x8000000000000000#64 + BitVec.ofNat 64 b.toNat)))
      ∧ (∀ t, s.readBit = .eosSig t → t.RspTakes → exec .rbit s = .next (t.answered 0x8000000000000002#64))
      ∧ (∀ t, s.readBit = .failed t → t.RspTakes → exec .rbit s = .next ((t.answered 0).raise .ioSrc 0))
      ∧ (s.readBit = .wait → exec .rbit s = .next (s.suspend .rbitRead)) := by
  have hrun : exec .rbit s = .next s.rbitRun := congrArg Host.Outcome.next (s.unlessErrorResponding_of_ok _ hr.2)
  refine ⟨fun b t e ht => ?_, fun t e ht => ?_, fun t e ht => ?_, fun e => ?_⟩
  · rw [hrun, State.rbitRun, e, ← bitResponse_eq]
    exact congrArg Host.Outcome.next (t.respond_of_takes _ none ht)
  · rw [hrun, State.rbitRun, e]
    exact congrArg Host.Outcome.next (t.respond_of_takes eosResponse none ht)
  · rw [hrun, State.rbitRun, e]
    exact congrArg Host.Outcome.next (t.respond_of_takes zeroResponse _ ht)
  · rw [hrun, State.rbitRun, e]

/-- Settles O38: the outcome of `ReadBit` decides the response, and RSP takes it. -/
theorem rbitReadsOneBit : Obligations.RbitReadsOneBit := by
  intro s hr ht
  obtain ⟨hbit, heos, hfail, hwait⟩ := exec_rbit_of_readBit hr
  refine ⟨fun he => ?_, fun he hn => ?_, fun v ts he hn hi => ?_, fun ts he hn hi => ?_, fun ts he hn hi => ?_,
    fun he hn hi => ?_⟩
  · exact heos s (State.readBit_of_eof he) ht
  · exact hbit _ _ (State.readBit_of_held he hn) ht
  · exact hbit _ _ (State.readBit_of_byte he hn hi) ht
  · exact heos _ (State.readBit_of_endTok he hn hi) ht
  · exact hfail _ (State.readBit_of_failTok he hn hi) ht
  · exact hwait (State.readBit_eq_wait.2 ⟨he, hn, hi⟩)

/-! ### The writer law (R187) -/

/-- An empty BitWriter writes the whole bytes of the bits and leaves the rest pending. -/
theorem writeBits_of_empty (bits : List Bool) (hn : s.bwN = 0) (hs : s.SinkOk) :
    ∃ t, writeBits bits s = .done t ∧ t.out = s.out ++ (packBits bits).take (bits.length / 8)
      ∧ t.pending = bits.drop (8 * (bits.length / 8)) ∧ t.SinkOk := by
  obtain ⟨t, e, ho, hp, hs', -⟩ := writeBits_of_sinkOk bits s hs
  rw [State.pending_eq_nil hn, List.nil_append] at ho hp
  exact ⟨t, e, ho, hp, hs'⟩

/-- Settles O39: the whole bytes leave as they fill, and `Close` writes the bits left over. -/
theorem writerLaw : Obligations.WriterLaw := by
  intro s bits hn hs
  refine ⟨by rw [packBits_length]; omega, fun k hk => ?_, ?_⟩
  · obtain ⟨t, e, ho, -⟩ := writeBits_of_empty (bits.take k) hn hs
    rw [List.length_take_of_le hk, packBits_take bits k hk] at ho
    exact ⟨t, e, ho⟩
  · obtain ⟨t, e, ho, hp, hs'⟩ := writeBits_of_empty bits hn hs
    obtain ⟨u, ec, hu, hun, -⟩ := t.closeWriter_of_sinkOk hs'
    refine ⟨t, u, e, ec, ?_, hun⟩
    rw [hu, ho, hp, List.append_assoc, ← packBits_split _ bits le_rfl]

/-! ### The reader law (R188) -/

/-- With all bits of the bytes read, no bit is held and no byte is left on IN. -/
theorem readBits_all_bytes {v : List Byte} {rest : List Token} (hn : s.brN = 0) (he : s.brEof = false)
    (hi : s.inp = v.map .byte ++ rest) :
    ∃ t, readBits (8 * v.length) s = some (v.flatMap byteBits, t) ∧ t.brEof = false ∧ t.brN = 0 ∧ t.inp = rest := by
  have hu : s.unread.length = 0 := by rw [s.unread_length, hn]; rfl
  have hlen : (v.flatMap byteBits).length = 8 * v.length := by simp [List.length_flatMap, byteBits, Nat.mul_comm]
  obtain ⟨t, e, hf, hti, -, hmod⟩ := readBits_bytes (8 * v.length) s v rest he hi (by omega)
  rw [List.eq_nil_of_length_eq_zero hu, List.nil_append, List.take_of_length_le hlen.le] at e
  refine ⟨t, e, by rw [hf]; exact he, BitVec.eq_of_toNat_eq ?_, ?_⟩
  · rw [t.unread_length] at hmod
    have := t.brN.isLt
    change t.brN.toNat = 0
    omega
  · rw [hti, List.drop_eq_nil_of_le (by omega)]; rfl

/-- Settles O40: the bits of the bytes first; then `END` is taken, and the reader answers `EOS_SIG` and stays as it is. -/
theorem readerLaw : Obligations.ReaderLaw := by
  intro s v rest hn he hi
  have hu : s.unread = [] := List.eq_nil_of_length_eq_zero (by rw [s.unread_length, hn]; rfl)
  refine ⟨fun c hc => ?_, ?_⟩
  · obtain ⟨t, e, -, hti, -⟩ := readBits_bytes c s v _ he hi (by omega)
    rw [hu] at e hti
    exact ⟨t, e, hti⟩
  · obtain ⟨t, e, hte, htn, hti⟩ := readBits_all_bytes hn he hi
    exact ⟨t, _, e, State.readBit_of_endTok hte htn hti, rfl, State.readBit_of_eof rfl⟩

/-! ### The frames of the stream commands -/

/-- `ENCODE` raises `E_SEQ`, or changes what its loop changes (R201). -/
theorem State.encode_frame (s : State) : s.encode = frameOf .encode s s.encode := by
  rcases s.encode_cases with ⟨e, -⟩ | ⟨e, -⟩
  · rw [e]; rfl
  · rw [e]; exact (encodeLoop_cases s.inp s).1

/-- `DECODE` raises `E_SEQ`, or clears the BitReader, goes to the root and changes what its walk changes (R216). -/
theorem State.decode_frame (s : State) : s.decode = frameOf .decode s s.decode := by
  unfold State.decode
  split
  · rw [s.decodeStart.decodeRun_cases.1]; rfl
  · rfl

/-- Settles O50: each of the four keeps to its frame executed and discarded. -/
theorem frameOfStreamCommands : Obligations.FrameOfStreamCommands := by
  intro s t b
  refine ⟨fun e => ?_, fun e => ?_, fun e => ?_, fun e => ?_⟩ <;> cases e
  · exact State.unlessError_frame rfl (s.wbitRun_cases b).1
  · exact State.unlessError_frame rfl s.wcloseRun_cases.1
  · exact State.unlessError_frame rfl s.encode_frame
  · exact State.unlessError_frame rfl s.decode_frame

end Sys2Proof.Machine
end

section
/-! SUPPORT. The Encoder (45_encoder): what `ENCODE` makes of the token after a run of bytes whose codes it has written, and how it
ends on each answer of the sink inside a code and in `Close` (R201 to R203). -/

namespace Sys2Proof.Machine

variable {s t : State} {x : List Byte} {bits : List Bool} {ts rest : List Token} {as : List SinkAnswer} {k : Nat}

/-! ### How `ENCODE` leaves the machine (R203, R271) -/

/-- An error raised where only the BitWriter has acted and the tokens before `rest` are taken. -/
theorem encodeStopsAt_of_withWriter {w : List Byte} {p : List Bool} (hf : t = s.withWriter t) (ho : t.out = s.out ++ w)
    (hp : t.pending = p) (rest : List Token) (e : ErrCode) (info : Info) :
    EncodeStopsAt s (State.raise { t with inp := rest } e info) w p rest e info :=
  ⟨rfl, rfl, ho, hp, by rw [hf]; rfl⟩

/-- A wait where only the BitWriter has acted and the tokens before `rest` are taken. -/
theorem encodeWaitsAt_of_withWriter {w : List Byte} {p : List Bool} (hf : t = s.withWriter t) (ho : t.out = s.out ++ w)
    (hp : t.pending = p) (rest : List Token) (a : Activity) :
    EncodeWaitsAt s (State.suspend { t with inp := rest } a) w p rest a :=
  ⟨ho, hp, by rw [hf]; rfl⟩

/-! ### An empty BitWriter and the sink's answers (R181) -/

/-- Bits that are written change the BitWriter and OUT only. -/
theorem eq_withWriter_of_writeBits_done (e : writeBits bits s = .done t) : t = s.withWriter t := by
  rcases writeBits_cases bits s with ⟨u, eu, hu⟩ | ⟨u, eu, -⟩ | ⟨r, u, eu, -⟩
  · obtain rfl : u = t := WriteResult.done.inj (eu.symm.trans e)
    exact hu
  · cases eu.symm.trans e
  · cases eu.symm.trans e

/-- A sink that will refuse a byte has listed `OK` for those before it, and refuses once these answers are used up. -/
theorem State.SinkRefuses.listed (h : s.SinkRefuses k as) :
    ∃ l, s.sinkNext = List.replicate k SinkAnswer.ok ++ l
      ∧ ∀ t : State, t.sinkNext = l → t.sinkRest = s.sinkRest → t.SinkRefuses 0 as := by
  rcases h with h | ⟨h, hr, ha⟩
  · exact ⟨_, h, fun t hl _ => .inl hl⟩
  · exact ⟨[], by rw [h, List.append_nil], fun t hl ht => .inr ⟨hl, ht.trans hr, ha⟩⟩

/-- A sink that will give no answer has listed `OK` for the bytes before it, and nothing after. -/
theorem State.SinkSilent.listed (h : s.SinkSilent k) : s.sinkNext = List.replicate k SinkAnswer.ok ++ [] :=
  h.1.trans (List.append_nil _).symm

/-- With `OK` listed for `k` bytes, bits that do not fill one more byte are written. -/
theorem writeBits_done_of_listed {l : List SinkAnswer} (hn : s.bwN = 0)
    (hs : s.sinkNext = List.replicate k SinkAnswer.ok ++ l) (h : bits.length < 8 * (k + 1)) :
    ∃ t, writeBits bits s = .done t := by
  obtain ⟨t, e, -⟩ := writeBits_of_listed bits s k l hs (by rw [State.pending_eq_nil hn, List.nil_append]; exact h)
  exact ⟨t, e⟩

/-- Bits that end inside byte `k` leave it pending, after the `k` bytes with listed answers. -/
theorem writeBits_into_byte {l : List SinkAnswer} (hn : s.bwN = 0) (hs : s.sinkNext = List.replicate k SinkAnswer.ok ++ l)
    (hlo : 8 * k < bits.length) (hhi : bits.length < 8 * (k + 1)) :
    ∃ t, writeBits bits s = .done t ∧ t.out = s.out ++ (packBits bits).take k ∧ t.pending = (bits.drop (8 * k)).take 7
      ∧ t.bwN ≠ 0 ∧ t.sinkNext = l ∧ t = s.withWriter t := by
  obtain ⟨t, e, ho, hp, hl, hf⟩ :=
    writeBits_of_listed bits s k l hs (by rw [State.pending_eq_nil hn, List.nil_append]; exact hhi)
  have hk : bits.length / 8 = k := by omega
  rw [State.pending_eq_nil hn, List.nil_append, hk] at ho hp hl
  refine ⟨t, e, ho, ?_, fun h0 => ?_, by simpa using hl, hf⟩
  · rw [hp, List.take_of_length_le (by rw [List.length_drop]; omega)]
  · have hempty : (bits.drop (8 * k)).length = 0 := by rw [← hp, State.pending_eq_nil h0]; rfl
    rw [List.length_drop] at hempty
    omega

/-! ### `Close` (R182, R201) -/

/-- `ENCODE` ends with the pending bits in a last byte when the sink answers `OK`. -/
theorem State.encodeClose_of_sinkOk (s : State) (hs : s.SinkOk) :
    ∃ u, s.encodeClose = u ∧ u.out = s.out ++ packBits s.pending
      ∧ u = { s with bwAcc := u.bwAcc, bwN := 0, out := u.out, sinkNext := u.sinkNext } := by
  obtain ⟨u, e, ho, -, hf⟩ := s.closeWriter_of_sinkOk hs
  exact ⟨u, by rw [State.encodeClose, e], ho, hf⟩

/-- `ENCODE` stops where the sink refuses the byte of `Close`. -/
theorem State.encodeClose_of_sinkRefuses (h : s.bwN ≠ 0) (hs : s.SinkRefuses 0 as) :
    s.encodeClose = State.raise { s with sinkNext := as } .ioSnk 0 := by
  rw [State.encodeClose, State.closeWriter_of_sinkRefuses h hs]

/-- `ENCODE` waits where the sink does not answer to the byte of `Close`. -/
theorem State.encodeClose_of_sinkSilent (h : s.bwN ≠ 0) (hs : s.SinkSilent 0) : s.encodeClose = s.suspend .encodeClose := by
  rw [State.encodeClose, State.closeWriter_of_sinkSilent h hs]

/-! ### The bits of a token's code (R201) -/

/-- What `ENCODE` makes of the writing of a code when `rest` follows its token: after the sentinel's code `Close`, after a byte's
the next token. -/
def WriteResult.encodeOn (rest : List Token) (eos : Bool) : WriteResult → State
  | .done u => if eos then State.encodeClose { u with inp := rest } else State.encodeRun { u with inp := rest }
  | .raised u => { u with inp := rest }
  | .wait left u => State.suspend { u with inp := rest } (.encodeBits left eos)

/-- The tokens left on IN do not matter to the bits of the code. -/
theorem State.encodeResume_encodeOn (s : State) (rest : List Token) (bits : List Bool) (eos : Bool) :
    State.encodeResume { s with inp := rest } bits eos = (writeBits bits s).encodeOn rest eos := by
  rw [State.encodeResume_eq, writeBits_inp]
  cases writeBits bits s <;> rfl

/-- The sink refuses byte `k` of the bits: `ENCODE` stops before its eighth bit (R181, R265). -/
theorem encodeOn_of_sinkRefuses (hn : s.bwN = 0) (hs : s.SinkRefuses k as) (h : 8 * (k + 1) ≤ bits.length)
    (rest : List Token) (eos : Bool) :
    ((writeBits bits s).encodeOn rest eos).sinkNext = as
      ∧ EncodeStopsAt s ((writeBits bits s).encodeOn rest eos) ((packBits bits).take k) ((bits.drop (8 * k)).take 7) rest
        .ioSnk 0 := by
  have hw := (writeBits_of_sinkRefuses bits s k as hs).2
  rw [State.pending_eq_nil hn, List.nil_append] at hw
  obtain ⟨t, e, ho, hp, hf⟩ := hw h
  rw [e]
  exact ⟨by rw [hf]; rfl, encodeStopsAt_of_withWriter (by rw [hf]; rfl) ho hp rest .ioSnk 0⟩

/-- The sink does not answer to byte `k` of the bits: `ENCODE` waits before its eighth bit (R181, R81). -/
theorem encodeOn_of_sinkSilent (hn : s.bwN = 0) (hs : s.SinkSilent k) (h : 8 * (k + 1) ≤ bits.length)
    (rest : List Token) (eos : Bool) :
    ((writeBits bits s).encodeOn rest eos).sinkNext = []
      ∧ EncodeWaitsAt s ((writeBits bits s).encodeOn rest eos) ((packBits bits).take k) ((bits.drop (8 * k)).take 7) rest
        (.encodeBits (bits.drop (8 * k + 7)) eos) := by
  have hw := writeBits_of_sinkSilent bits s k hs
  rw [State.pending_eq_nil hn, List.nil_append] at hw
  obtain ⟨t, e, ho, hp, hf⟩ := hw h
  rw [e]
  exact ⟨by rw [hf]; rfl, encodeWaitsAt_of_withWriter (by rw [hf]; rfl) ho hp rest _⟩

/-- A sink that answers `OK` takes the packing of the bits, and the BitWriter is empty again (R202). -/
theorem encodeOn_close_of_sinkOk (hn : s.bwN = 0) (hs : s.SinkOk) (rest : List Token) :
    ∃ u, (writeBits bits s).encodeOn rest true = u ∧ u.out = s.out ++ packBits bits
      ∧ u = { s with bwAcc := u.bwAcc, inp := rest, out := u.out, sinkNext := u.sinkNext } := by
  obtain ⟨t, e, ho, hp, hst, hf⟩ := writeBits_of_sinkOk bits s hs
  rw [State.pending_eq_nil hn, List.nil_append] at ho hp
  obtain ⟨u, eu, huo, huf⟩ := State.encodeClose_of_sinkOk { t with inp := rest } hst
  refine ⟨u, by rw [e]; exact eu, ?_, ?_⟩
  · calc u.out
        = t.out ++ packBits t.pending := huo
      _ = s.out ++ packBits bits := by rw [ho, hp, List.append_assoc, ← packBits_split _ bits le_rfl]
  · rw [huf, hf, ← hn]

/-- The sink refuses byte `k`, which the bits begin and `Close` offers: the bits of that byte stay pending (R182). -/
theorem encodeOn_close_of_sinkRefuses (hn : s.bwN = 0) (hs : s.SinkRefuses k as) (hlo : 8 * k < bits.length)
    (hhi : bits.length < 8 * (k + 1)) (rest : List Token) :
    ((writeBits bits s).encodeOn rest true).sinkNext = as
      ∧ EncodeStopsAt s ((writeBits bits s).encodeOn rest true) ((packBits bits).take k) ((bits.drop (8 * k)).take 7) rest
        .ioSnk 0 := by
  obtain ⟨l, hl, hrefuses⟩ := hs.listed
  obtain ⟨t, e, ho, hp, h0, htl, hf⟩ := writeBits_into_byte hn hl hlo hhi
  have hclose : (writeBits bits s).encodeOn rest true = State.raise { t with inp := rest, sinkNext := as } .ioSnk 0 := by
    rw [e]; exact State.encodeClose_of_sinkRefuses h0 (hrefuses _ htl (by rw [hf]; rfl))
  rw [hclose]
  exact ⟨rfl, encodeStopsAt_of_withWriter (t := { t with sinkNext := as }) (by rw [hf]; rfl) ho hp rest .ioSnk 0⟩

/-- The sink does not answer to byte `k`, which the bits begin and `Close` offers: `ENCODE` waits in `Close` (R182, R81). -/
theorem encodeOn_close_of_sinkSilent (hn : s.bwN = 0) (hs : s.SinkSilent k) (hlo : 8 * k < bits.length)
    (hhi : bits.length < 8 * (k + 1)) (rest : List Token) :
    ((writeBits bits s).encodeOn rest true).sinkNext = []
      ∧ EncodeWaitsAt s ((writeBits bits s).encodeOn rest true) ((packBits bits).take k) ((bits.drop (8 * k)).take 7) rest
        .encodeClose := by
  obtain ⟨t, e, ho, hp, h0, htl, hf⟩ := writeBits_into_byte hn hs.listed hlo hhi
  have hclose : (writeBits bits s).encodeOn rest true = State.suspend { t with inp := rest } .encodeClose := by
    rw [e]; exact State.encodeClose_of_sinkSilent h0 ⟨htl, by rw [hf]; exact hs.2⟩
  rw [hclose]
  exact ⟨htl, encodeWaitsAt_of_withWriter hf ho hp rest .encodeClose⟩

/-! ### `ENCODE` past a run of bytes (R201) -/

/-- `ENCODE` passes its checks in `s`, and IN holds the bytes `x`, which all have codes, and then `ts`. -/
structure State.EncodesRun (s : State) (x : List Byte) (ts : List Token) : Prop where
  ready : s.Ready
  valid : s.codesValid = true
  empty : s.bwN = 0
  codes : ∀ b ∈ x, s.codeAt b.toNat ≠ none
  tokens : s.inp = x.map .byte ++ ts

/-- Once the codes of the run are written, `ENCODE` goes on with the tokens after it. -/
theorem State.EncodesRun.exec_encode (h : s.EncodesRun x ts) (e : writeBits (codeBits s.code x) s = .done t) :
    exec .encode s = .next (State.encodeRun { t with inp := ts }) := by
  have hrun : s.encode = encodeLoop s.inp s := by
    rcases s.encode_cases with ⟨-, hno⟩ | ⟨hrun, -⟩
    · exact absurd ⟨h.valid, h.empty⟩ hno
    · exact hrun
  refine congrArg Host.Outcome.next ?_
  rw [s.unlessError_of_ok _ h.ready.2, hrun, h.tokens, encodeLoop_bytes x s t ts h.codes e]
  exact (encodeLoop_inp ts t ts).symm

/-- A sink that answers `OK` takes the whole bytes of the codes of the run, and the other bits stay pending. -/
theorem State.EncodesRun.written_of_sinkOk (h : s.EncodesRun x ts) (hs : s.SinkOk) :
    ∃ t, exec .encode s = .next (State.encodeRun { t with inp := ts })
      ∧ t.out = s.out ++ (packBits (codeBits s.code x)).take ((codeBits s.code x).length / 8)
      ∧ t.pending = (codeBits s.code x).drop (8 * ((codeBits s.code x).length / 8)) ∧ t = s.withWriter t := by
  obtain ⟨t, e, ho, hp, -, hf⟩ := writeBits_of_sinkOk (codeBits s.code x) s hs
  rw [State.pending_eq_nil h.empty, List.nil_append] at ho hp
  exact ⟨t, h.exec_encode e, ho, hp, hf⟩

/-- The codes of a run and one more byte are the codes of the longer run. -/
theorem codeBits_append_singleton (c : CodeTable) (x : List Byte) (b : Byte) :
    codeBits c (x ++ [b]) = codeBits c x ++ Code.bits (codeIn c (symbolOf b)) := by
  rw [codeBits, codeBits, List.flatMap_append, List.flatMap_singleton]

/-- After the run a byte with a code: `ENCODE` goes on as the writing of all the codes comes out. -/
theorem State.EncodesRun.exec_encode_byte {b : Byte} (h : s.EncodesRun x (.byte b :: rest)) (hb : s.codeAt b.toNat ≠ none)
    (e : writeBits (codeBits s.code x) s = .done t) :
    exec .encode s = .next ((writeBits (codeBits s.code (x ++ [b])) s).encodeOn rest false) := by
  obtain ⟨bits, hbits⟩ := Option.ne_none_iff_exists'.1 hb
  have hf := eq_withWriter_of_writeBits_done e
  have hcode : State.codeAt { t with inp := .byte b :: rest } (symbolOf b) = some bits := by rw [hf]; exact hbits
  have hwhole : codeBits s.code (x ++ [b]) = codeBits s.code x ++ bits := by
    rw [codeBits_append_singleton, show codeIn s.code (symbolOf b) = some bits from hbits]; rfl
  rw [h.exec_encode e, State.encodeRun_byte rfl hcode, hwhole, writeBits_append, e]
  exact congrArg Host.Outcome.next (t.encodeResume_encodeOn rest bits false)

/-- After the run `END`: `ENCODE` goes on as the writing of all the codes, the sentinel's last, comes out. -/
theorem State.EncodesRun.exec_encode_endTok (h : s.EncodesRun x (.endTok :: rest))
    (e : writeBits (codeBits s.code x) s = .done t) :
    exec .encode s = .next ((writeBits (payloadBits s.code x) s).encodeOn rest true) := by
  have hcode : t.code = s.code := by rw [eq_withWriter_of_writeBits_done e]; rfl
  rw [h.exec_encode e, payloadBits, writeBits_append, e, ← hcode]
  exact congrArg Host.Outcome.next (t.encodeResume_encodeOn rest _ true)

/-! ### The statements -/

/-- Settles O43: the one way out of the loop without an error and without a wait is through `Close`, which empties the BitWriter. -/
theorem encodeDoneLeavesTheWriterEmpty : Obligations.EncodeDoneLeavesTheWriterEmpty := by
  intro s t hr e herr hidle
  obtain rfl : s.encode = t := by
    rw [← s.unlessError_of_ok State.encode hr.2]; exact Host.Outcome.next.inj e
  rcases s.encode_cases with ⟨eseq, -⟩ | ⟨erun, -⟩
  · rw [eseq] at herr; cases herr
  · rw [erun] at herr hidle ⊢
    rcases (encodeLoop_cases s.inp s).2 with ⟨-, -, hempty⟩ | ⟨hmem, -⟩ | ⟨-, hwaits⟩
    · exact hempty
    · rw [herr] at hmem; exact absurd hmem (by decide)
    · rw [hidle] at hwaits; simp [EncodeWaits] at hwaits

/-- Settles O41: the whole bytes leave as they fill, and `Close` writes the bits left over. -/
theorem encoderLaw : Obligations.EncoderLaw := by
  intro s x rest hr hv hn hs hi hc
  have h : s.EncodesRun x (.endTok :: rest) := ⟨hr, hv, hn, hc, hi⟩
  obtain ⟨t, e, -⟩ := writeBits_of_sinkOk (codeBits s.code x) s hs
  obtain ⟨u, eu, ho, hf⟩ := encodeOn_close_of_sinkOk (bits := payloadBits s.code x) hn hs rest
  exact ⟨u, (h.exec_encode_endTok e).trans (congrArg _ eu), ho, hf⟩

/-- Settles O42: in (1) to (3) the run is written whole and the next turn ends or waits; in (4) and (5) the sink's answer to byte `k`
falls among the bits of the token's code, or in (5) on `Close` when the code ends before that byte does. -/
theorem encodeStopsOnAMissingCode : Obligations.EncodeStopsOnAMissingCode := by
  intro s x b rest hr hv hn hc
  have run {ts : List Token} (hi : s.inp = x.map .byte ++ ts) : s.EncodesRun x ts := ⟨hr, hv, hn, hc, hi⟩
  refine ⟨fun hs hi hb => ?_, fun hs hi => ?_, fun hs hi => ?_, fun k hi hb hlo hhi => ?_, fun k hi hlo hhi => ?_⟩
  · obtain ⟨t, e, ho, hp, hf⟩ := (run hi).written_of_sinkOk hs
    have hcode : State.codeAt { t with inp := .byte b :: rest } (symbolOf b) = none := by rw [hf]; exact hb
    rw [State.encodeRun_absent rfl hcode] at e
    exact ⟨_, e, encodeStopsAt_of_withWriter hf ho hp rest .noCode (byteInfo b)⟩
  · obtain ⟨t, e, ho, hp, hf⟩ := (run hi).written_of_sinkOk hs
    exact ⟨_, e, encodeStopsAt_of_withWriter hf ho hp rest .ioSrc 0⟩
  · obtain ⟨t, e, ho, hp, hf⟩ := (run (hi.trans (List.append_nil _).symm)).written_of_sinkOk hs
    rw [State.encodeRun_nil rfl] at e
    exact ⟨_, e, encodeWaitsAt_of_withWriter hf ho hp [] .encodeRead⟩
  · have goes {l} (hl : s.sinkNext = List.replicate k SinkAnswer.ok ++ l) :
        exec .encode s = .next ((writeBits (codeBits s.code (x ++ [b])) s).encodeOn rest false) :=
      (writeBits_done_of_listed hn hl hlo).elim fun _ e => (run hi).exec_encode_byte hb e
    refine ⟨fun as hs => ?_, fun hs => ?_⟩
    · obtain ⟨l, hl, -⟩ := hs.listed
      exact ⟨_, goes hl, encodeOn_of_sinkRefuses hn hs hhi rest false⟩
    · exact ⟨_, goes hs.listed, encodeOn_of_sinkSilent hn hs hhi rest false⟩
  · have goes {l} (hl : s.sinkNext = List.replicate k SinkAnswer.ok ++ l) :
        exec .encode s = .next ((writeBits (payloadBits s.code x) s).encodeOn rest true) :=
      (writeBits_done_of_listed hn hl hlo).elim fun _ e => (run hi).exec_encode_endTok e
    refine ⟨fun as hs => ?_, fun hs => ?_⟩
    · obtain ⟨l, hl, -⟩ := hs.listed
      refine ⟨_, goes hl, ?_⟩
      by_cases h8 : 8 * (k + 1) ≤ (payloadBits s.code x).length
      · exact encodeOn_of_sinkRefuses hn hs h8 rest true
      · exact encodeOn_close_of_sinkRefuses hn hs hhi (Nat.lt_of_not_le h8) rest
    · refine ⟨_, goes hs.listed, ?_⟩
      split
      · next h8 => exact encodeOn_of_sinkSilent hn hs h8 rest true
      · next h8 => exact encodeOn_close_of_sinkSilent hn hs hhi (Nat.lt_of_not_le h8) rest

end Sys2Proof.Machine
end


section
/-! SUPPORT. The Decoder (46_decoder): the bits of codes take `DECODE` to their symbols' Leaves and back to the root (R221), and
on any bytes its turns end on the sentinel's Leaf or where the bytes do, `CUR` at the end of a path that holds no whole code (R219,
R220). -/

namespace Sys2Proof.Machine

variable {s u r : State} {p q bits : List Bool} {x v w : List Byte} {ts : List Token} {l as : List SinkAnswer} {i k n : Nat}
  {b c : Bool} {a : Byte}

/-- With a valid tree `DECODE` starts at the root with a fresh BitReader (R216). -/
theorem exec_decode_of_treeValid (hr : s.Ready) (ht : s.treeValid = true) :
    exec .decode s = .next s.decodeStart.decodeRun :=
  congrArg Host.Outcome.next ((s.unlessError_of_ok State.decode hr.2).trans (if_pos ht))

/-! ### `ReadBit` many times (R188) -/

theorem length_of_readBits_eq_some (k : Nat) : ∀ {s : State}, readBits k s = some (bits, r) → bits.length = k := by
  induction k generalizing bits with
  | zero => intro s h; cases h; rfl
  | succ k ih =>
    intro s h
    rw [readBits] at h
    cases e : s.readBit with
    | wait | failed u | eosSig u => simp [e] at h
    | bit c u =>
      simp only [e] at h
      cases e' : readBits k u with
      | none => simp [e'] at h
      | some p =>
        simp only [e', Option.some.injEq, Prod.mk.injEq] at h
        obtain ⟨rfl, rfl⟩ := h
        rw [List.length_cons, ih e']

/-- Bits read one string after the other. -/
theorem readBits_split (h : readBits (p ++ q).length s = some (p ++ q, r)) :
    ∃ m, readBits p.length s = some (p, m) ∧ readBits q.length m = some (q, r) := by
  rw [List.length_append, readBits_add, Option.bind_eq_some_iff] at h
  obtain ⟨⟨p', m⟩, hp, h⟩ := h
  obtain ⟨⟨q', r'⟩, hq, h⟩ := Option.map_eq_some_iff.1 h
  obtain ⟨hpq, rfl⟩ := Prod.mk.inj h
  obtain ⟨rfl, rfl⟩ := List.append_inj hpq (length_of_readBits_eq_some _ hp)
  exact ⟨m, hp, hq⟩

/-- Bits read from a BitReader are read from any state that has it. -/
theorem readBits_withReader_of (h : readBits k u = some (bits, r)) (s : State) :
    readBits k (s.withReader u) = some (bits, s.withReader r) := by
  rw [readBits_withReader, h]; rfl

theorem readBit_of_readBits_one (h : readBits 1 s = some ([b], r)) : s.readBit = .bit b r := by
  rw [readBits] at h
  cases e : s.readBit with
  | wait | failed u | eosSig u => simp [e] at h
  | bit c u => simp only [e, readBits] at h; cases h; rfl

theorem State.unread_eq_nil (h : u.brN = 0) : u.unread = [] := by simp [State.unread, h]

/-- A byte has eight bits. -/
theorem length_flatMap_byteBits (v : List Byte) : (v.flatMap byteBits).length = 8 * v.length := by
  simp [List.length_flatMap, byteBits, Nat.mul_comm]

/-- What a fresh BitReader has done when it has read `bits` off the bytes of IN: the bytes that hold them are taken, and the
other bits of the last one are unread (R185, R188). -/
theorem State.decodeStart_readBits (hi : s.inp = v.map .byte ++ ts) (hv : bits <+: v.flatMap byteBits) :
    ∃ r, readBits bits.length s.decodeStart = some (bits, r) ∧ r.brEof = false
      ∧ r.inp = (v.drop ((bits.length + 7) / 8)).map .byte ++ ts
      ∧ r.unread = ((v.flatMap byteBits).drop bits.length).take r.brN.toNat ∧ (bits.length + r.brN.toNat) % 8 = 0 := by
  have hlen := hv.length_le
  rw [length_flatMap_byteBits] at hlen
  have hu : s.decodeStart.unread = [] := State.unread_eq_nil rfl
  obtain ⟨r, e, hf, hri, hru, hmod⟩ := readBits_bytes bits.length s.decodeStart v ts rfl hi (by omega)
  rw [hu, List.nil_append] at e hru
  rw [hu] at hri hmod
  rw [← List.prefix_iff_eq_take.1 hv] at e
  rw [r.unread_length, Nat.add_comm] at hmod
  exact ⟨r, e, by rw [hf]; rfl, hri, hru, hmod⟩

/-! ### The sink (R68) -/

/-- The sink answers `OK` to `k` more bytes. -/
def State.SinkTakes (s : State) (k : Nat) : Prop :=
  (∀ a ∈ s.sinkNext.take k, a = SinkAnswer.ok) ∧ (k ≤ s.sinkNext.length ∨ s.sinkRest = some .ok)

theorem State.SinkOk.takes (h : s.SinkOk) (k : Nat) : s.SinkTakes k :=
  ⟨fun a ha => h.1 a (List.mem_of_mem_take ha), .inr h.2⟩

theorem State.sinkTakes_of_listed (h : s.sinkNext = List.replicate k SinkAnswer.ok ++ l) : s.SinkTakes k := by
  refine ⟨fun a ha => ?_, .inl ?_⟩
  · rw [h, List.take_left' List.length_replicate] at ha
    exact List.eq_of_mem_replicate ha
  · rw [h, List.length_append, List.length_replicate]
    omega

/-- `s` with the bytes `x` taken by the sink. -/
def State.written (s : State) (x : List Byte) : State :=
  { s with out := s.out ++ x, sinkNext := s.sinkNext.drop x.length }

theorem State.written_nil (s : State) : s.written [] = s := by
  rw [State.written, List.append_nil]; rfl

theorem State.written_written (s : State) (x v : List Byte) : (s.written x).written v = s.written (x ++ v) := by
  simp [State.written, List.drop_drop]

/-- A byte that the sink takes (R68). -/
theorem State.SinkTakes.sinkWrite (h : s.SinkTakes (k + 1)) (b : Byte) :
    s.sinkWrite b = .accepted (s.written [b]) ∧ (s.written [b]).SinkTakes k := by
  obtain ⟨hall, henough⟩ := h
  rcases s.sinkWrite_cases b with ⟨as, e, hl | ⟨hl, rfl, hrest⟩⟩ | ⟨_, -, hl | ⟨hl, -, hrest⟩⟩ | ⟨-, hl, hrest⟩
    <;> rw [hl] at hall henough
  · refine ⟨by rw [e, State.written, hl]; rfl, ?_⟩
    rw [State.SinkTakes, show (s.written [b]).sinkNext = as by rw [State.written, hl]; rfl]
    exact ⟨fun a ha => hall a (List.mem_cons_of_mem _ ha), henough.imp_left Nat.le_of_succ_le_succ⟩
  · refine ⟨by rw [e, State.written, hl]; rfl, ?_⟩
    rw [State.SinkTakes, show (s.written [b]).sinkNext = [] by rw [State.written, hl]; rfl]
    exact ⟨by simp, .inr hrest⟩
  · exact absurd (hall .fail (by simp)) (by decide)
  · exact absurd (hrest.symm.trans (henough.resolve_left (by simp))) (by decide)
  · exact absurd (hrest.symm.trans (henough.resolve_left (by simp))) (by decide)

/-- `DECODE` whose byte is taken goes on at the root (R216). -/
theorem State.SinkTakes.decodeEmit (h : s.SinkTakes (k + 1)) :
    s.decodeEmit = State.decodeRun { s.written [emittedByte s.cur] with cur := s.root } := by
  rw [State.decodeEmit, (h.sinkWrite _).1]; rfl

/-- `DECODE` whose byte a sink that answers `OK` takes goes on at the root (R216). -/
theorem State.decodeEmit_of_sinkOk (h : s.SinkOk) : ∃ l, s.decodeEmit = (s.emitted l).decodeRun ∧ (s.emitted l).SinkOk := by
  obtain ⟨l, e, hl⟩ := s.sinkWrite_of_sinkOk (emittedByte s.cur) h
  exact ⟨l, by rw [State.decodeEmit, e]; rfl, hl, h.2⟩

/-- `DECODE` whose byte is refused ends where it stands (R216, R265). -/
theorem State.decodeEmit_of_sinkRefuses (h : s.SinkRefuses 0 as) :
    s.decodeEmit = State.raise { s with sinkNext := as } .ioSnk 0 := by
  rw [State.decodeEmit, (State.sinkWrite_of_sinkRefuses _ h).1 rfl]

/-- `DECODE` whose byte gets no answer waits where it stands (R68, R81). -/
theorem State.decodeEmit_of_sinkSilent (h : s.SinkSilent 0) : s.decodeEmit = s.suspend .decodeEmit := by
  rw [State.decodeEmit, State.sinkWrite_of_sinkSilent _ h]

/-! ### The codes of a tree that `DECODE` walks (R167, R217) -/

/-- `CUR` is at the root of a finished tree, and that is an Internal node. -/
structure State.AtRoot (s : State) : Prop where
  tree : Built s.freq s.tree
  internal : (s.nodeAt s.root).kind = .internal
  cur : s.cur = s.root

/-- `s` with what `ReadBit` has made of the BitReader and of IN taken from `r`, and `CUR` on `n`. -/
def State.readTo (s r : State) (n : NodeIx) : State := { s.withReader r with cur := n }

/-- The bits of a path to a Leaf take `DECODE` there: to its end on the sentinel's, else to the byte to offer (R216, R217). -/
theorem State.decodeRun_path (hr : (s.nodeAt s.root).kind = .internal) (hq : q ≠ []) (hp : IsPath s.node s.cur q)
    (hl : (s.nodeAt (follow s.node s.cur q)).kind = .leaf) (e : readBits q.length s = some (q, r)) :
    s.decodeRun =
      if follow s.node s.cur q = Config.eosIx then s.readTo r (follow s.node s.cur q)
      else (s.readTo r (follow s.node s.cur q)).decodeEmit := by
  have hwalk := decodeWalk_path q (s.bitBudget + r.bitBudget + 1) s s r hq hp hl e
  rw [s.withReader_self, decodeWalk_eq_decodeRun hr (by omega)] at hwalk
  rw [hwalk]
  split
  · next hc => exact if_pos hc
  · next hc => exact leafTurn_eq_decodeEmit hc hr (Nat.lt_succ_of_le (Nat.le_add_left r.bitBudget s.bitBudget))

/-- The bits of a code take `DECODE` from the root to the Leaf of its symbol (R217, R221). -/
theorem State.AtRoot.decodeRun_code (h : s.AtRoot) (hp : codeIn (codeTable s.node s.root) i = some p)
    (e : readBits p.length s = some (p, r)) :
    s.decodeRun =
      if leafIx i = Config.eosIx then s.readTo r (leafIx i) else (s.readTo r (leafIx i)).decodeEmit := by
  obtain ⟨-, hpath, hend⟩ := (h.tree.code_iff h.internal i p).1 hp
  have hne : p ≠ [] := List.length_pos_iff.1 (h.tree.code_length hp).1
  have hleaf := h.tree.code_leads_to_leaf h.internal hp
  have hcur : follow s.node s.cur p = leafIx i := by rw [h.cur]; exact hend
  rw [← hcur]
  exact State.decodeRun_path h.internal hne (h.cur ▸ hpath) (by rw [h.cur]; exact hleaf) e

/-- The Leaf of a byte is not the sentinel's. -/
theorem leafIx_byte_ne_eos (b : Byte) : leafIx b.toNat ≠ Config.eosIx := by
  have hb := b.isLt
  exact fun e => absurd (leafIx_inj (j := 256) (by omega) (Nat.le_refl _) e) (by omega)

/-- The Leaf of a byte stands for that byte (R217). -/
theorem emittedByte_leafIx (b : Byte) : emittedByte (leafIx b.toNat) = b := by
  rw [emittedByte, leafIx, BitVec.ofNat_toNat]
  exact BitVec.setWidth_setWidth_of_le b (by decide)

/-- The codes of bytes that the sink takes: `DECODE` writes these bytes and is at the root again (R217, R221). -/
theorem State.AtRoot.decodeRun_codeBits (x : List Byte) : ∀ {s r : State}, s.AtRoot →
    (∀ b ∈ x, codeIn (codeTable s.node s.root) b.toNat ≠ none) → s.SinkTakes x.length →
      readBits (codeBits (codeTable s.node s.root) x).length s = some (codeBits (codeTable s.node s.root) x, r) →
        s.decodeRun = ((s.written x).withReader r).decodeRun := by
  induction x with
  | nil => intro s r _ _ _ e; cases e; rw [State.written_nil]; rfl
  | cons b x ih =>
    intro s r h hx hs e
    obtain ⟨p, hp⟩ := Option.ne_none_iff_exists'.1 (hx b List.mem_cons_self)
    have hcons : codeBits (codeTable s.node s.root) (b :: x) = p ++ codeBits (codeTable s.node s.root) x := by
      rw [codeBits, List.flatMap_cons, symbolOf, hp]; rfl
    rw [hcons] at e
    obtain ⟨m, em, er⟩ := readBits_split e
    have hemit : s.decodeRun = ((s.written [b]).withReader m).decodeRun := by
      rw [h.decodeRun_code hp em, if_neg (leafIx_byte_ne_eos b),
        State.SinkTakes.decodeEmit (s := s.readTo m (leafIx b.toNat)) hs]
      simp only [State.readTo, emittedByte_leafIx]
      exact congrArg (fun n => ((s.written [b]).readTo m n).decodeRun) h.cur.symm
    have hat : ((s.written [b]).withReader m).AtRoot := ⟨h.tree, h.internal, h.cur⟩
    rw [hemit, ih hat (fun c hc => hx c (List.mem_cons_of_mem b hc)) (hs.sinkWrite b).2
      (readBits_withReader_of er (s.written [b]))]
    exact congrArg (fun u => (u.withReader r).decodeRun) (s.written_written [b] x)

/-- The codes of bytes that the sink takes, then one more code: `DECODE` comes to the Leaf of that one (R216, R221). -/
theorem State.AtRoot.decodeRun_codeBits_append (h : s.AtRoot)
    (hx : ∀ b ∈ x, codeIn (codeTable s.node s.root) b.toNat ≠ none) (hs : s.SinkTakes x.length)
    (hp : codeIn (codeTable s.node s.root) i = some p)
    (e : readBits (codeBits (codeTable s.node s.root) x ++ p).length s = some (codeBits (codeTable s.node s.root) x ++ p, r)) :
    s.decodeRun =
      if leafIx i = Config.eosIx then (s.written x).readTo r (leafIx i) else ((s.written x).readTo r (leafIx i)).decodeEmit := by
  obtain ⟨m, em, er⟩ := readBits_split e
  rw [h.decodeRun_codeBits x hx hs em]
  have hat : ((s.written x).withReader m).AtRoot := ⟨h.tree, h.internal, h.cur⟩
  exact (hat.decodeRun_code hp (readBits_withReader_of er (s.written x))).trans rfl

/-- A payload whose bytes the sink takes: `DECODE` writes them and ends on the sentinel's Leaf, under either kind of root (R221). -/
theorem State.decodeRun_payloadBits (hb : Built s.freq s.tree) (heos : s.freqAt 256 = 1) (hcur : s.cur = s.root)
    (hx : ∀ b ∈ x, codeIn (codeTable s.node s.root) b.toNat ≠ none) (hs : s.SinkTakes x.length)
    (e : readBits (payloadBits (codeTable s.node s.root) x).length s = some (payloadBits (codeTable s.node s.root) x, r)) :
    s.decodeRun = (s.written x).readTo r Config.eosIx := by
  cases hr : (s.nodeAt s.root).kind with
  | internal =>
    have hroot : s.AtRoot := ⟨hb, hr, hcur⟩
    have hcounted : countIn s.freq 256 ≠ 0#32 := by rw [show countIn s.freq 256 = 1 from heos]; decide
    obtain ⟨p, hp⟩ := (hb.code_present_iff (Nat.le_refl _)).2 hcounted
    change codeIn (codeTable s.node s.root) 256 = some p at hp
    rw [payloadBits, hp] at e
    exact (hroot.decodeRun_codeBits_append hx hs hp e).trans (if_pos rfl)
  | leaf =>
    have hcode := hb.leaf_root_code hr
    obtain rfl : x = [] := by
      refine List.eq_nil_iff_forall_not_mem.2 fun b hbx => hx b hbx ((hcode b.toNat).trans (if_neg ?_))
      exact Nat.ne_of_lt b.isLt
    have hbits : payloadBits (codeTable s.node s.root) [] = [false] := by
      rw [payloadBits, show codeIn (codeTable s.node s.root) 256 = _ from hcode 256]; rfl
    rw [hbits] at e
    have hread := readBit_of_readBits_one e
    have hf := s.readBit_frame
    rw [hread] at hf
    have hroot : s.cur = Config.eosIx := hcur.trans (hb.leaf_root hr).1
    rw [State.decodeRun_leaf hr hread, State.written_nil, ← hroot]
    exact hf

/-- The codes of bytes of which the sink takes all but the last: `DECODE` offers that one (R216). -/
theorem State.AtRoot.decodeRun_offers (h : s.AtRoot)
    (hx : ∀ c ∈ x ++ [a], codeIn (codeTable s.node s.root) c.toNat ≠ none) (hs : s.SinkTakes x.length)
    (e : readBits (codeBits (codeTable s.node s.root) (x ++ [a])).length s
      = some (codeBits (codeTable s.node s.root) (x ++ [a]), r)) :
    s.decodeRun = ((s.written x).readTo r (leafIx a.toNat)).decodeEmit := by
  obtain ⟨p, hp⟩ := Option.ne_none_iff_exists'.1 (hx a (by simp))
  rw [codeBits_append_singleton, symbolOf, hp] at e
  have hcodes := h.decodeRun_codeBits_append (fun c hc => hx c (List.mem_append_left _ hc)) hs hp e
  exact hcodes.trans (if_neg (leafIx_byte_ne_eos a))

/-- `DECODE` in `s` comes to offer the byte `a` once the sink has taken the bytes `x` (R216). -/
theorem exec_decode_offers (hr : s.Ready) (ht : s.treeValid = true) (hk : (s.nodeAt s.root).kind = .internal) (hok : s.TreeOk)
    (hi : s.inp = v.map .byte ++ ts) (hx : ∀ c ∈ x ++ [a], codeIn (codeTable s.node s.root) c.toNat ≠ none)
    (hv : codeBits (codeTable s.node s.root) (x ++ [a]) <+: v.flatMap byteBits)
    (hl : s.sinkNext = List.replicate x.length SinkAnswer.ok ++ l) :
    ∃ u, exec .decode s = .next u.decodeEmit ∧ DecodeOffers s u v ts x a
      ∧ u = { s with
              brBuf := u.brBuf, brN := u.brN, brEof := false, cur := u.cur, inp := u.inp, out := u.out, sinkNext := l } := by
  obtain ⟨r, e, heof, hri, hru, hmod⟩ := s.decodeStart_readBits hi hv
  have hat : s.decodeStart.AtRoot := ⟨State.built_of_treeOk hok ht, hk, rfl⟩
  have hrun := hat.decodeRun_offers hx (State.sinkTakes_of_listed (s := s.decodeStart) hl) e
  have hdrop : s.sinkNext.drop x.length = l := by rw [hl, List.drop_left' List.length_replicate]
  exact ⟨_, (exec_decode_of_treeValid hr ht).trans (congrArg _ hrun),
    ⟨_, rfl, BitVec.ofNat_toNat 10 a, rfl, hri, hru, hmod⟩, by rw [← heof, ← hdrop]; rfl⟩

/-! ### Where the walk stands (R216, R217, R220) -/

/-- Bits that hold no whole code are a path from the root that has not come to a Leaf. -/
theorem Built.no_code_begins_iff {f : FreqTable} {t : Tree} (h : Built f t) (hr : (nodeIn t.node t.root).kind = .internal) :
    (∀ i p, codeIn (codeTable t.node t.root) i = some p → ¬ p <+: q) ↔
      IsPath t.node t.root q ∧ (nodeIn t.node (follow t.node t.root q)).kind = .internal := by
  constructor
  · intro hno
    induction q using List.reverseRecOn with
    | nil => exact ⟨isPath_nil _ _, hr⟩
    | append_singleton q c ih =>
      obtain ⟨hq, hend⟩ := ih fun i p hp hpq => hno i p hp (hpq.trans (List.prefix_append q [c]))
      have hpath := (isPath_append q [c]).2 ⟨hq, isPath_cons.2 ⟨hend, isPath_nil _ _⟩⟩
      refine ⟨hpath, ?_⟩
      cases hk : (nodeIn t.node (follow t.node t.root (q ++ [c]))).kind with
      | internal => rfl
      | leaf => exact absurd (List.prefix_refl _) (hno _ _ (h.code_of_path hr hpath hk))
  · rintro ⟨hpath, hend⟩ i p hp ⟨q', rfl⟩
    have hleaf := h.code_leads_to_leaf hr hp
    cases q' with
    | nil => rw [List.append_nil, hleaf] at hend; cases hend
    | cons c q' => exact absurd (hleaf.symm.trans (hpath p (c :: q') rfl (List.cons_ne_nil c q'))) (by decide)

/-- One more bit goes on along the path from the root. -/
theorem DecodeStandsAt.next_bit (h : DecodeStandsAt s u bits) (hb : Built s.freq s.tree)
    (hr : (s.nodeAt s.root).kind = .internal) (c : Bool) :
    ∃ x q, bits = codeBits (codeTable s.node s.root) x ++ q ∧ (∀ b ∈ x, codeIn (codeTable s.node s.root) b.toNat ≠ none)
      ∧ u.out = s.out ++ x ∧ IsPath s.node s.root (q ++ [c])
      ∧ follow s.node s.root (q ++ [c]) = childOf s.node u.cur c := by
  obtain ⟨x, q, hbits, hx, hno, hout, hcur, -⟩ := h
  obtain ⟨hpath, hend⟩ := (hb.no_code_begins_iff hr).1 hno
  exact ⟨x, q, hbits, hx, hout, (isPath_append q [c]).2 ⟨hpath, isPath_cons.2 ⟨hend, isPath_nil _ _⟩⟩,
    by rw [follow_append, hcur]; rfl⟩

/-- One more bit that leads to an Internal node (R217). -/
theorem DecodeStandsAt.descend (h : DecodeStandsAt s u bits) (hb : Built s.freq s.tree)
    (hr : (s.nodeAt s.root).kind = .internal) (hk : (nodeIn s.node (childOf s.node u.cur c)).kind = .internal)
    (ho : r.out = u.out) (hc : r.cur = childOf s.node u.cur c) : DecodeStandsAt s r (bits ++ [c]) := by
  obtain ⟨x, q, hbits, hx, hout, hpath, hend⟩ := h.next_bit hb hr c
  have hno := (hb.no_code_begins_iff hr).2 ⟨hpath, (congrArg (fun n => (nodeIn s.node n).kind) hend).trans hk⟩
  exact ⟨x, q ++ [c], by rw [hbits, List.append_assoc], hx, hno, ho.trans hout, hc.trans hend.symm, by rw [hc]; exact hk⟩

/-- A Leaf but the sentinel's has the slot of the byte it stands for. -/
theorem emittedByte_toNat {m : NodeIx} (h : m.toNat ≤ 256) (hne : m ≠ Config.eosIx) : (emittedByte m).toNat = m.toNat := by
  have hne' : m.toNat ≠ 256 := fun e => hne (BitVec.eq_of_toNat_eq e)
  rw [emittedByte, BitVec.toNat_setWidth]
  omega

/-- One more bit that leads to the Leaf of a byte, which is written (R217). -/
theorem DecodeStandsAt.emit (h : DecodeStandsAt s u bits) (hb : Built s.freq s.tree)
    (hr : (s.nodeAt s.root).kind = .internal) (hk : (nodeIn s.node (childOf s.node u.cur c)).kind = .leaf)
    (hne : childOf s.node u.cur c ≠ Config.eosIx) (ho : r.out = u.out ++ [emittedByte (childOf s.node u.cur c)])
    (hc : r.cur = s.root) : DecodeStandsAt s r (bits ++ [c]) := by
  obtain ⟨x, q, hbits, hx, hout, hpath, hend⟩ := h.next_bit hb hr c
  rw [← hend] at hk hne ho
  have hcode := hb.code_of_path hr hpath hk
  have hslot := (hb.leaf_iff (hb.follow_valid _ hb.root_valid hpath)).1 hk
  have hbyte : codeIn (codeTable s.node s.root) (emittedByte (follow s.node s.root (q ++ [c]))).toNat = some (q ++ [c]) :=
    (congrArg _ (emittedByte_toNat hslot hne)).trans hcode
  generalize emittedByte (follow s.node s.root (q ++ [c])) = a at hbyte ho
  refine ⟨x ++ [a], [], ?_, fun b hbx => ?_, (hb.no_code_begins_iff hr).2 ⟨isPath_nil _ _, hr⟩, ?_, hc, hc ▸ hr⟩
  · rw [codeBits_append_singleton, symbolOf, hbyte, hbits, List.append_nil, List.append_assoc]; rfl
  · rcases List.mem_append.1 hbx with hbx | hbx
    · exact hx b hbx
    · rw [List.mem_singleton.1 hbx, hbyte]; exact Option.some_ne_none _
  · rw [ho, hout, List.append_assoc]

/-! ### The walk over bytes (R216, R217) -/

/-- While bytes are left `ReadBit` gives the first bit of those to come; a byte is taken when its first bit is read (R185). -/
theorem State.readBit_of_bytes (he : u.brEof = false) (hi : u.inp = w.map .byte ++ ts) :
    (u.brN = 0 ∧ w = [])
      ∨ ∃ c r w', u.readBit = .bit c r ∧ r.brEof = false ∧ w' <:+ w ∧ r.inp = w'.map .byte ++ ts
        ∧ u.unread ++ w.flatMap byteBits = c :: (r.unread ++ w'.flatMap byteBits) := by
  by_cases hn : u.brN = 0
  · cases w with
    | nil => exact .inl ⟨hn, rfl⟩
    | cons a w =>
      obtain ⟨c, r, e, hbits, rfl⟩ := u.readBit_refill he hn hi
      refine .inr ⟨c, _, w, e, he, List.suffix_cons a w, rfl, ?_⟩
      rw [State.unread_eq_nil hn, List.nil_append, List.flatMap_cons, hbits]; rfl
  · obtain ⟨c, r, e, hbits, rfl⟩ := u.readBit_unread he hn
    exact .inr ⟨c, _, w, e, he, List.suffix_refl w, hi, by rw [hbits]; rfl⟩

/-- Everything a turn that reads the bit `c` can come to: a descent, the end on the sentinel's Leaf, or a byte to offer (R216,
R217). -/
theorem State.decodeRun_turn {m : NodeIx} (hk : (u.nodeAt u.root).kind = .internal) (e : u.readBit = .bit c r)
    (hm : childOf u.node u.cur c = m) :
    ((nodeIn u.node m).kind = .internal ∧ u.decodeRun = (u.readTo r m).decodeRun)
      ∨ ((nodeIn u.node m).kind = .leaf ∧ m = Config.eosIx ∧ u.decodeRun = u.readTo r m)
      ∨ ((nodeIn u.node m).kind = .leaf ∧ m ≠ Config.eosIx ∧ u.decodeRun = (u.readTo r m).decodeEmit) := by
  have hf : r = u.withReader r := by have hf := u.readBit_frame; rw [e] at hf; exact hf
  have hd : r.descend c = u.readTo r m := by rw [← hm, hf]; rfl
  rw [State.decodeRun_bit hk e, hd, show (u.readTo r m).nodeAt (u.readTo r m).cur = nodeIn u.node m from rfl]
  cases (nodeIn u.node m).kind with
  | internal => exact .inl ⟨rfl, rfl⟩
  | leaf =>
    by_cases heos : m = Config.eosIx
    · exact .inr (.inl ⟨rfl, heos, if_pos heos⟩)
    · exact .inr (.inr ⟨rfl, heos, if_neg heos⟩)

/-- `u` is a turn of a `DECODE` in `s` on the bytes `v` with `ts` after them: `bits` have been read, `w` are the bytes left, and the
sink answers `OK`. -/
structure DecodeTurn (s : State) (v w : List Byte) (ts : List Token) (bits : List Bool) (u : State) : Prop where
  frame : u = s.withDecode u
  ready : u.Ready
  eof : u.brEof = false
  sink : u.SinkOk
  left : w <:+ v
  tokens : u.inp = w.map .byte ++ ts
  unread : v.flatMap byteBits = bits ++ (u.unread ++ w.flatMap byteBits)
  stands : s.TreeOk → DecodeStandsAt s u bits

/-- `DECODE` on the bytes `v` with `ts` after them has ended on the sentinel's Leaf with some of the bytes taken (R219). -/
structure EndsOnSentinel (v : List Byte) (ts : List Token) (t : State) : Prop where
  ready : t.Ready
  cur : t.cur = 256#10
  eof : t.brEof = false
  tokens : ∃ k ≤ v.length, t.inp = (v.drop k).map .byte ++ ts

/-- The first turn. -/
theorem DecodeTurn.start (hr : s.Ready) (ht : s.treeValid = true) (hk : (s.nodeAt s.root).kind = .internal) (hs : s.SinkOk)
    (hi : s.inp = v.map .byte ++ ts) : DecodeTurn s v v ts [] s.decodeStart where
  frame := rfl
  ready := hr
  eof := rfl
  sink := hs
  left := List.suffix_refl v
  tokens := hi
  unread := rfl
  stands hok :=
    ⟨[], [], rfl, nofun, ((State.built_of_treeOk hok ht).no_code_begins_iff hk).2 ⟨isPath_nil _ _, hk⟩,
      (List.append_nil _).symm, rfl, hk⟩

/-- The turn after one that has read the bit `c`. -/
theorem DecodeTurn.next {w' : List Byte} {d : State} (h : DecodeTurn s v w ts bits u) (heof : r.brEof = false) (hw : w' <:+ w)
    (hi : r.inp = w'.map .byte ++ ts) (hbits : u.unread ++ w.flatMap byteBits = c :: (r.unread ++ w'.flatMap byteBits))
    (hd : d = (u.withDecode d).withReader r) (hready : d.Ready) (hsink : d.SinkOk)
    (hstands : s.TreeOk → DecodeStandsAt s d (bits ++ [c])) : DecodeTurn s v w' ts (bits ++ [c]) d where
  frame := by rw [hd, h.frame]; rfl
  ready := hready
  eof := (congrArg State.brEof hd).trans heof
  sink := hsink
  left := hw.trans h.left
  tokens := (congrArg State.inp hd).trans hi
  unread := by
    have hu : d.unread = r.unread := by rw [hd]; rfl
    rw [h.unread, hbits, hu, List.append_assoc]; rfl
  stands := hstands

/-- The turns go on until `DECODE` ends on the sentinel's Leaf, or every bit of the bytes has been read (R219, R220). -/
theorem DecodeTurn.decodeRun_ends (ht : s.treeValid = true) (hk : (s.nodeAt s.root).kind = .internal) (n : Nat) :
    ∀ {u : State} {w : List Byte} {bits : List Bool}, u.bitBudget < n → DecodeTurn s v w ts bits u →
      EndsOnSentinel v ts u.decodeRun
        ∨ ∃ e, DecodeTurn s v [] ts (v.flatMap byteBits) e ∧ e.brN = 0 ∧ u.decodeRun = e.decodeRun := by
  induction n with
  | zero => intro u w bits hn; omega
  | succ n ih =>
    intro u w bits hn h
    rcases State.readBit_of_bytes h.eof h.tokens with ⟨h0, rfl⟩ | ⟨c, r, w', e, heof, hw, hi, hbits⟩
    · have hall : v.flatMap byteBits = bits := by rw [h.unread, State.unread_eq_nil h0]; exact List.append_nil bits
      exact .inr ⟨u, hall ▸ h, h0, rfl⟩
    · have hku : (u.nodeAt u.root).kind = .internal := by rw [h.frame]; exact hk
      have hnode : u.node = s.node := by rw [h.frame]; rfl
      have hroot : u.root = s.root := by rw [h.frame]; rfl
      have hbudget : r.bitBudget < n := Nat.lt_of_lt_of_le (State.bitBudget_readBit e) (Nat.le_of_lt_succ hn)
      have hturn := State.decodeRun_turn hku e rfl
      rw [hnode] at hturn
      rcases hturn with ⟨hkind, erun⟩ | ⟨-, heos, erun⟩ | ⟨hkind, hne, erun⟩ <;> rw [erun]
      · refine ih hbudget (h.next heof hw hi hbits rfl h.ready h.sink fun hok => ?_)
        exact (h.stands hok).descend (State.built_of_treeOk hok ht) hk hkind rfl rfl
      · have hdrop := List.suffix_iff_eq_drop.1 (hw.trans h.left)
        exact .inl ⟨h.ready, heos, heof, _, Nat.sub_le _ _, hdrop ▸ hi⟩
      · obtain ⟨l, el, hl⟩ := State.decodeEmit_of_sinkOk (s := u.readTo r (childOf s.node u.cur c)) h.sink
        rw [el]
        refine ih hbudget (h.next heof hw hi hbits rfl h.ready hl fun hok => ?_)
        exact (h.stands hok).emit (State.built_of_treeOk hok ht) hk hkind hne rfl hroot

/-! ### The statements -/

/-- Settles O44: the first token decides `ReadBit`, and that the one turn of `DECODE`. -/
theorem decodeReadsOneBitUnderALeafRoot : Obligations.DecodeReadsOneBitUnderALeafRoot := by
  intro s hr ht hk
  rw [exec_decode_of_treeValid hr ht]
  have run {v : Byte} {ts : List Token} (hi : s.inp = .byte v :: ts) :=
    State.decodeRun_leaf (s := s.decodeStart) hk (State.readBit_of_byte rfl rfl hi)
  refine ⟨fun v ts hi hb => ?_, fun v ts hi hb => ?_, fun ts hi => ?_, fun ts hi => ?_, fun hi => ?_⟩
  · rw [run hi, hb]; rfl
  · rw [run hi, hb]; rfl
  · rw [State.decodeRun_eosSig (State.readBit_of_endTok (s := s.decodeStart) rfl rfl hi)]; rfl
  · rw [State.decodeRun_failed (State.readBit_of_failTok (s := s.decodeStart) rfl rfl hi)]; rfl
  · rw [State.decodeRun_wait (s := s.decodeStart) (State.readBit_eq_wait.2 ⟨rfl, rfl, hi⟩)]; rfl

/-- Settles O47: the walk ends on the sentinel's Leaf; a Leaf root, where `CUR` stays, is that Leaf (`Built.leaf_root`). -/
theorem decodeDoneStandsOnTheSentinel : Obligations.DecodeDoneStandsOnTheSentinel := by
  intro s t hr ht hok e herr hidle
  obtain rfl := Host.Outcome.next.inj ((exec_decode_of_treeValid hr ht).symm.trans e)
  rcases s.decodeStart.decodeRun_cases.2 with ⟨-, -, hend | ⟨hleaf, hstay⟩⟩ | ⟨hmem, -⟩ | ⟨-, hwaits⟩
  · exact hend
  · exact hstay.trans ((State.built_of_treeOk hok ht).leaf_root hleaf).1
  · rw [herr] at hmem; exact absurd hmem (by decide)
  · rw [hidle] at hwaits; simp [DecodeWaits] at hwaits


/-- Settles O45: the payload takes `DECODE` to the sentinel's Leaf, and what is left of its last byte stays unread. -/
theorem decoderLaw : Obligations.DecoderLaw := by
  intro s x rest hr ht hok hs hx
  have padded (v : List Byte) (pad : List Bool) (hi : s.inp = v.map .byte ++ rest) (hpad : pad.length < 8)
      (hv : v.flatMap byteBits = payloadBits (codeTable s.node s.root) x ++ pad) :
      ∃ t, exec .decode s = .next t ∧ t.out = s.out ++ x ∧ t.unread = pad
        ∧ t = { s with
                brBuf := t.brBuf, brN := t.brN, brEof := false, cur := 256#10, inp := rest, out := t.out,
                sinkNext := t.sinkNext } := by
    obtain ⟨r, e, heof, hri, hru, hmod⟩ := s.decodeStart_readBits hi (hv ▸ List.prefix_append _ pad)
    have hrun := State.decodeRun_payloadBits (s := s.decodeStart) (State.built_of_treeOk hok ht) (hok ht).1 rfl hx
      (hs.takes x.length) e
    have hlen : 8 * v.length = (payloadBits (codeTable s.node s.root) x).length + pad.length := by
      rw [← length_flatMap_byteBits, hv, List.length_append]
    have hbr := r.brN.isLt
    rw [List.drop_eq_nil_of_le (by omega)] at hri
    rw [hv, List.drop_left, List.take_of_length_le (by omega)] at hru
    refine ⟨_, (exec_decode_of_treeValid hr ht).trans (congrArg _ hrun), rfl, hru, ?_⟩
    rw [← heof, ← show r.inp = rest from hri]
    rfl
  refine ⟨fun hi => ?_, padded⟩
  obtain ⟨t, e, ho, -, hf⟩ := padded _ _ hi (by rw [List.length_replicate]; omega) (bits_of_packBits _ _ le_rfl)
  exact ⟨t, e, ho, hf⟩

/-- Settles O46: in (1) and (2) the turns end on the sentinel's Leaf or come to the token after the bytes; in (3) the sink takes the
bytes of all codes but the last, whose byte is offered. -/
theorem decodeEndsOrIsTruncated : Obligations.DecodeEndsOrIsTruncated := by
  intro s v rest hr ht hk
  have turns {ts : List Token} (hs : s.SinkOk) (hi : s.inp = v.map .byte ++ ts) :=
    (DecodeTurn.start hr ht hk hs hi).decodeRun_ends ht hk _ (Nat.lt_succ_self _)
  refine ⟨fun tok e htok hs hi => ?_, fun hs hi => ?_, fun x a hok hi hx hpre => ?_⟩
  · refine ⟨_, exec_decode_of_treeValid hr ht, ?_⟩
    rcases turns hs hi with hend | ⟨u, hu, hn, erun⟩
    · exact ⟨hend.ready.1, .inl ⟨hend.ready.2, hend.cur, hend.eof, hend.tokens⟩⟩
    · rw [erun]
      simp only [List.mem_cons, Prod.mk.injEq, List.not_mem_nil, or_false] at htok
      rcases htok with ⟨rfl, rfl⟩ | ⟨rfl, rfl⟩
      · rw [State.decodeRun_eosSig (State.readBit_of_endTok hu.eof hn hu.tokens)]
        exact ⟨hu.ready.1, .inr ⟨rfl, rfl, rfl, hn, rfl, hu.stands⟩⟩
      · rw [State.decodeRun_failed (State.readBit_of_failTok hu.eof hn hu.tokens)]
        exact ⟨hu.ready.1, .inr ⟨rfl, rfl, hu.eof, hn, rfl, hu.stands⟩⟩
  · refine ⟨_, exec_decode_of_treeValid hr ht, ?_⟩
    rcases turns (ts := []) hs (by rw [hi, List.append_nil]) with hend | ⟨u, hu, hn, erun⟩
    · obtain ⟨k, hkv, hik⟩ := hend.tokens
      exact ⟨hend.ready.2, hend.eof, .inl ⟨hend.ready.1, hend.cur, k, hkv, by rw [hik, List.append_nil]⟩⟩
    · rw [erun, State.decodeRun_wait (State.readBit_eq_wait.2 ⟨hu.eof, hn, hu.tokens⟩)]
      exact ⟨hu.ready.2, hu.eof, .inr ⟨rfl, hn, hu.tokens, hu.stands⟩⟩
  · have offers {l : List SinkAnswer} (hl : s.sinkNext = List.replicate x.length SinkAnswer.ok ++ l) :=
      exec_decode_offers hr ht hk hok hi hx hpre hl
    refine ⟨fun as hs => ?_, fun hs => ?_⟩
    · obtain ⟨l, hl, hrefuses⟩ := hs.listed
      obtain ⟨u, erun, hoffers, hf⟩ := offers hl
      have hu : u.SinkRefuses 0 as := hrefuses u (by rw [hf]) (by rw [hf])
      exact ⟨_, erun.trans (congrArg _ (State.decodeEmit_of_sinkRefuses hu)), rfl, rfl, hoffers, by rw [hf]; rfl⟩
    · obtain ⟨u, erun, hoffers, hf⟩ := offers hs.listed
      have hu : u.SinkSilent 0 := ⟨by rw [hf]; rfl, by rw [hf]; exact hs.2⟩
      exact ⟨_, erun.trans (congrArg _ (State.decodeEmit_of_sinkSilent hu)), hoffers, by rw [hf]; rfl⟩

end Sys2Proof.Machine
end

section
/-! SUPPORT. The pipeline (47_pipeline): the two Leaves of a table with two counts (R243), and the round trip (R241) from the laws
of its commands. Where a proof needs no more of the built tree than its stated facts, the tree is generalized, so that nothing
evaluates `buildTree`. -/

namespace Sys2Proof.Machine

variable {f : FreqTable} {t : Tree} {s : State} {a b i : Nat} {x : List Byte}

/-! ### `MKCODE` after `BUILD` (R166) -/

/-- The state with the codes of its tree, as `MKCODE` leaves it. -/
def State.withCodes (s : State) : State := { s with code := codeTable s.node s.root, codesValid := true }

/-- After `BUILD` the tree is valid, so `MKCODE` writes its codes. -/
theorem exec_mkcode_withTree (hr : s.Ready) (t : Tree) : exec .mkcode (s.withTree t) = .next (s.withTree t).withCodes :=
  exec_mkcode_of_treeValid (s := s.withTree t) hr rfl

/-! ### A table with two counts (R147, R148, R166) -/

/-- The counted symbols are `a` and `b`, and the Leaf of `a` comes first in the order of R147. -/
structure CountsTwo (f : FreqTable) (a b : Nat) : Prop where
  left_le : a ≤ 256
  right_le : b ≤ 256
  counted : ∀ i ≤ 256, countIn f i ≠ 0#32 ↔ i = a ∨ i = b
  order : (countIn f a).toNat < (countIn f b).toNat ∨ ((countIn f a).toNat = (countIn f b).toNat ∧ a < b)

/-- A table with two counts has two Leaves (R152). -/
theorem CountsTwo.leafCount_eq (h : CountsTwo f a b) : leafCount f = 2 := by
  have hab : a ≠ b := by rintro rfl; have := h.order; omega
  have hperm : ((List.range 257).filter fun i => countIn f i != 0#32).Perm [a, b] := by
    refine (List.perm_ext_iff_of_nodup (List.nodup_range.filter _) (by simpa using hab)).2 fun i => ?_
    have hle : i = a ∨ i = b → i ≤ 256 := by have := h.left_le; have := h.right_le; omega
    simp only [List.mem_filter, List.mem_range, bne_iff_ne, List.mem_cons, List.not_mem_nil, or_false, Nat.lt_succ_iff]
    exact ⟨fun ⟨hi, hc⟩ => (h.counted i hi).1 hc, fun hi => ⟨hle hi, (h.counted i (hle hi)).2 hi⟩⟩
  rw [leafCount, List.countP_eq_length_filter, hperm.length_eq]
  rfl

/-- The slot of a counted symbol holds its Leaf. -/
theorem Built.nodeIn_leafIx (h : Built f t) (hi : i ≤ 256) (hc : countIn f i ≠ 0#32) :
    nodeIn t.node (leafIx i) = leafNode (countIn f i) := by
  rw [Tree.nodeIn_eq, leafIx_toNat (by omega), h.leaves i hi, if_neg hc]

theorem leafNode_w_toNat (c : Count) : (leafNode c).w.toNat = c.toNat :=
  BitVec.toNat_setWidth_of_le (by decide)

theorem CountsTwo.nodeIn_left (h2 : CountsTwo f a b) (h : Built f t) : nodeIn t.node (leafIx a) = leafNode (countIn f a) :=
  h.nodeIn_leafIx h2.left_le ((h2.counted a h2.left_le).2 (.inl rfl))

theorem CountsTwo.nodeIn_right (h2 : CountsTwo f a b) (h : Built f t) : nodeIn t.node (leafIx b) = leafNode (countIn f b) :=
  h.nodeIn_leafIx h2.right_le ((h2.counted b h2.right_le).2 (.inr rfl))

/-- In the tree's queue the Leaf of `b` is not before that of `a` (R147). -/
theorem CountsTwo.not_keyLt (h2 : CountsTwo f a b) (h : Built f t) : ¬ keyLt t.node (leafIx b) (leafIx a) = true := by
  have := h2.left_le
  have := h2.right_le
  have := h2.order
  rw [keyLt_iff, h2.nodeIn_left h, h2.nodeIn_right h, leafNode_w_toNat, leafNode_w_toNat, leafIx_toNat (by omega),
    leafIx_toNat (by omega)]
  omega

/-- The valid nodes below slot 257 are the two Leaves. -/
theorem CountsTwo.eq_leafIx (h2 : CountsTwo f a b) (h : Built f t) {n : NodeIx} (hn : n.toNat < 257)
    (hv : (nodeIn t.node n).valid = true) : n = leafIx a ∨ n = leafIx b := by
  have hi : n.toNat ≤ 256 := Nat.le_of_lt_succ hn
  rw [← leafIx_of_toNat n] at hv ⊢
  exact ((h2.counted _ hi).1 ((h.leafIx_valid hi).1 hv)).imp (congrArg leafIx) (congrArg leafIx)

/-- Two Leaves make one merge, so the one Internal node is the root in slot 257. -/
theorem CountsTwo.root_eq (h2 : CountsTwo f a b) (h : Built f t) : t.root = 257#10 ∧ t.nn = 258#10 := by
  have hL := h2.leafCount_eq
  have hnn : t.nn.toNat = 258 := by have := h.size; omega
  have hroot := h.rootAt
  rw [if_neg (by omega), hnn] at hroot
  exact ⟨BitVec.eq_of_toNat_eq hroot, BitVec.eq_of_toNat_eq hnn⟩

/-- The merge takes the two Leaves in the order of R147, the first as the left child (R150). -/
theorem CountsTwo.nodeIn_root (h2 : CountsTwo f a b) (h : Built f t) : nodeIn t.node 257#10 =
    ⟨true, .internal, (countIn f a).setWidth 41 + (countIn f b).setWidth 41, leafIx a, leafIx b⟩ := by
  have hnn : 257 < t.nn.toNat := by rw [(h2.root_eq h).2]; decide
  obtain ⟨hv, hk⟩ := h.slots 257 le_rfl hnn
  obtain ⟨hne, hl, hr, hlv, hrv, hw⟩ := h.children 257 le_rfl hnn
  have hlt := (h.smallest 257 le_rfl hnn).1
  have hat : nodeIn t.node 257#10 = t.at 257 := rfl
  rw [hat]
  generalize t.at 257 = n at hv hk hne hl hr hlv hrv hw hlt
  obtain ⟨v, k, w, l, r⟩ := n
  have hchildren : l = leafIx a ∧ r = leafIx b := by
    rcases h2.eq_leafIx h hl hlv with rfl | rfl <;> rcases h2.eq_leafIx h hr hrv with rfl | rfl
    · exact absurd rfl hne
    · exact ⟨rfl, rfl⟩
    · exact absurd hlt (h2.not_keyLt h)
    · exact absurd rfl hne
  obtain ⟨rfl, rfl⟩ := hchildren
  have hweight : w = (countIn f a).setWidth 41 + (countIn f b).setWidth 41 := by
    apply BitVec.eq_of_toNat_eq
    simp only [← Tree.nodeIn_eq, h2.nodeIn_left h, h2.nodeIn_right h, leafNode_w_toNat] at hw
    bv_omega
  rw [hweight, show v = true from hv, show k = .internal from hk]

/-- The codes of two Leaves are the bits of the two edges (R166, R167). -/
theorem CountsTwo.codes (h2 : CountsTwo f a b) (h : Built f t) :
    codeIn (codeTable t.node t.root) a = some [false] ∧ codeIn (codeTable t.node t.root) b = some [true] := by
  have hnode := h2.nodeIn_root h
  rw [← (h2.root_eq h).1] at hnode
  have hk : (nodeIn t.node t.root).kind = .internal := by rw [hnode]
  have hcode {i : Nat} (c : Bool) (hi : i ≤ 256) (hc : childOf t.node t.root c = leafIx i) :
      codeIn (codeTable t.node t.root) i = some [c] :=
    (h.code_iff hk i [c]).2 ⟨hi, isPath_cons.2 ⟨hk, isPath_nil _ _⟩, hc⟩
  exact ⟨hcode false h2.left_le (by rw [childOf, hnode]; rfl), hcode true h2.right_le (by rw [childOf, hnode]; rfl)⟩

/-- `BUILD` and `MKCODE` on two counts: the one Internal node, and a code of one bit for each symbol. -/
theorem CountsTwo.exec_build_mkcode (h2 : CountsTwo s.freq a b) (hr : s.Ready) (hs : s.freqAt 256 = 1) :
    ∃ t u, exec .build s = .next t ∧ exec .mkcode t = .next u ∧ t.root = 257#10 ∧ t.nn = 258#10
      ∧ t.nodeAt 257#10 =
          ⟨true, .internal, (s.freqAt a).setWidth 41 + (s.freqAt b).setWidth 41, leafIx a, leafIx b⟩
      ∧ u.codeAt a = some [false] ∧ u.codeAt b = some [true] := by
  have h := State.built_of_sentinel hs
  have ebuild := exec_build_of_sentinel hr hs
  generalize buildTree s.freq = t at h ebuild
  obtain ⟨hroot, hnn⟩ := h2.root_eq h
  exact ⟨_, _, ebuild, exec_mkcode_withTree hr t, hroot, hnn, h2.nodeIn_root h, h2.codes h⟩

theorem leafIx_byte (v : Byte) : leafIx v.toNat = v.setWidth 10 := BitVec.ofNat_toNat ..

/-- Settles O27: the byte's Leaf comes first exactly when its count is the sentinel's, 1. -/
theorem singleByteTableGivesTwoLeaves : Obligations.SingleByteTableGivesTwoLeaves := by
  intro s v k hr hk hf
  have hv := v.isLt
  have hbyte : s.freqAt v.toNat = k := (hf _ (by omega)).trans (if_pos rfl)
  have heos : s.freqAt 256 = 1 := by rw [hf 256 le_rfl, if_neg (by omega), if_pos rfl]
  have hcounted : ∀ i ≤ 256, countIn s.freq i ≠ 0#32 ↔ i = v.toNat ∨ i = 256 := by
    intro i hi
    rw [show countIn s.freq i = _ from hf i hi]
    split
    · next h => exact iff_of_true hk (.inl h)
    · next h => simp [h]
  by_cases h1 : k = 1
  · have hle : (s.freqAt v.toNat).toNat = (s.freqAt 256).toNat := by rw [hbyte, heos, h1]
    have h2 : CountsTwo s.freq v.toNat 256 := ⟨by omega, le_rfl, hcounted, .inr ⟨hle, hv⟩⟩
    obtain ⟨t, u, et, eu, hroot, hnn, hnode, hcode, hcode'⟩ := h2.exec_build_mkcode hr heos
    rw [hbyte, heos, leafIx_byte] at hnode
    subst h1
    exact ⟨t, u, et, eu, hroot, hnn, hnode, hcode, hcode'⟩
  · have hlt : (s.freqAt 256).toNat < (s.freqAt v.toNat).toNat := by rw [hbyte, heos]; bv_omega
    have h2 : CountsTwo s.freq 256 v.toNat := ⟨le_rfl, by omega, fun i hi => (hcounted i hi).trans Or.comm, .inl hlt⟩
    obtain ⟨t, u, et, eu, hroot, hnn, hnode, hcode, hcode'⟩ := h2.exec_build_mkcode hr heos
    rw [hbyte, heos, leafIx_byte, BitVec.add_comm] at hnode
    rw [if_neg h1, bne_iff_ne.2 h1, beq_false_of_ne h1]
    exact ⟨t, u, et, eu, hroot, hnn, hnode, hcode', hcode⟩

/-! ### The round trip (R235, R236, R241) -/

/-- In the tree of a table with the sentinel's count every counted byte has a code (R170). -/
theorem codeIn_buildTree_ne_none (heos : s.freqAt 256 = 1) (hx : ∀ b ∈ x, s.freqAt b.toNat ≠ 0) :
    ∀ b ∈ x, codeIn (codeTable (buildTree s.freq).node (buildTree s.freq).root) b.toNat ≠ none := by
  intro b hb
  have hle : b.toNat ≤ 256 := Nat.le_of_lt b.isLt
  exact Option.ne_none_iff_exists'.2 (((State.built_of_sentinel heos).code_present_iff hle).2 (hx b hb))

/-- A table that agrees with another on every symbol is that table (R21). -/
theorem State.freq_eq_of_freqAt {u : State} (h : ∀ i ≤ 256, s.freqAt i = u.freqAt i) : s.freq = u.freq :=
  table_ext 0#32 fun i hi => h i (Nat.le_of_lt_succ hi)

/-- `BUILD` leaves what `TREE_VALID` promises (R30). -/
theorem State.treeOk_withTree (heos : s.freqAt 256 = 1) (ht : buildTree s.freq = t) : (s.withTree t).TreeOk :=
  fun _ => ⟨heos, congrArg Tree.node ht.symm, congrArg Tree.root ht.symm, congrArg Tree.nn ht.symm⟩

/-- `BUILD` and `DECODE` on a payload made under the codes of the table (R153, R221). -/
theorem exec_build_decode_of_payload {rest : List Token} (hr : s.Ready) (hs : s.SinkOk) (heos : s.freqAt 256 = 1)
    (hx : ∀ b ∈ x, s.freqAt b.toNat ≠ 0)
    (hi : s.inp = (packBits (payloadBits (codeTable (buildTree s.freq).node (buildTree s.freq).root) x)).map .byte ++ rest) :
    ∃ t u, exec .build s = .next t ∧ exec .decode t = .next u
      ∧ u.err = .none ∧ u.seq = .idle ∧ u.out = s.out ++ x ∧ u.inp = rest := by
  have ebuild := exec_build_of_sentinel hr heos
  have hcode := codeIn_buildTree_ne_none heos hx
  generalize ht : buildTree s.freq = t at ebuild hcode hi
  obtain ⟨u, eu, hout, hu⟩ := (decoderLaw (s.withTree t) x rest hr rfl (State.treeOk_withTree heos ht) hs hcode).1 hi
  exact ⟨_, u, ebuild, eu, by rw [hu]; exact hr.2, by rw [hu]; exact hr.1, hout, by rw [hu]⟩

/-- `BUILD`, `MKCODE` and `ENCODE` on a counted sequence write its payload (R202). -/
theorem exec_build_mkcode_encode {rest : List Token} (hr : s.Ready) (hs : s.SinkOk) (hn : s.bwN = 0) (heos : s.freqAt 256 = 1)
    (hx : ∀ b ∈ x, s.freqAt b.toNat ≠ 0) (hi : s.inp = x.map .byte ++ .endTok :: rest) :
    ∃ t u v, exec .build s = .next t ∧ exec .mkcode t = .next u ∧ exec .encode u = .next v
      ∧ v.err = .none ∧ v.seq = .idle ∧ v.inp = rest
      ∧ v.out = s.out ++ packBits (payloadBits (codeTable (buildTree s.freq).node (buildTree s.freq).root) x) := by
  have ebuild := exec_build_of_sentinel hr heos
  have hcode := codeIn_buildTree_ne_none heos hx
  generalize buildTree s.freq = t at ebuild hcode ⊢
  obtain ⟨v, ev, hout, hv⟩ := encoderLaw (s.withTree t).withCodes x rest hr rfl hn hs hi hcode
  exact ⟨_, _, v, ebuild, exec_mkcode_withTree hr t, ev, by rw [hv]; exact hr.2, by rw [hv]; exact hr.1, by rw [hv], hout⟩

/-- Settles O60: `COUNT` counts every byte of `X` and the sentinel (R133), so each has a code, and the second machine makes the
same tree of the same table (R153). -/
theorem roundTrip : Obligations.RoundTrip := by
  intro s x rest hx hsink hi
  obtain ⟨s₁, ecount, hbyte, -, heos, hs₁⟩ := countCountsOccurrences s.clear x _ ⟨rfl, rfl⟩ hx hi
  have hcounted : ∀ b ∈ x, s₁.freqAt b.toNat ≠ 0 := by
    intro b hb h0
    have hcount : x.count b = 0 := by rw [← hbyte b, h0]; rfl
    exact List.count_eq_zero.1 hcount hb
  obtain ⟨s₂, s₃, s₄, ebuild, emkcode, eencode, herr, hseq, hinp, hout⟩ :=
    exec_build_mkcode_encode (s := s₁) (rest := rest) (by rw [hs₁]; exact ⟨rfl, rfl⟩) (by rw [hs₁]; exact hsink)
      (by rw [hs₁]; rfl) heos hcounted (by rw [hs₁])
  have hout₁ : s₁.out = s.out := by rw [hs₁]; rfl
  rw [hout₁] at hout
  refine ⟨s₁, s₂, s₃, s₄, _, ecount, ebuild, emkcode, eencode, herr, hseq, hinp, hout, ?_⟩
  intro d rest' hd hdsink hfreq hdi
  have hf : s₁.freq = d.freq := State.freq_eq_of_freqAt fun i hle => (hfreq i hle).symm
  rw [State.freqAt, hf] at heos
  simp only [State.freqAt, hf] at hcounted
  rw [hf] at hdi
  exact exec_build_decode_of_payload hd hdsink heos hcounted hdi

end Sys2Proof.Machine
end

section
/-! SUPPORT. The exceptions (60_exceptions): what the error state discards and how it is left (R272, R273), the row of errors that
each command keeps to through all its waits (R263), and the sequence preconditions (R262). -/

namespace Sys2Proof.Machine

variable {s t u : State} {i : Instr} {row row' : List ErrCode}

/-- Settles O8: every arm of `exec` is a next state. -/
theorem everyCommandAnswersANextState : Obligations.EveryCommandAnswersANextState := exec_next

/-! ### The error state (R272, R273) -/

/-- In the error state a command that does not respond is discarded, `NOP` and `CLR` apart (R272). -/
theorem exec_of_error_discards (he : s.err ≠ .none) (hi : runsInError i = false) (hr : responds i = false) :
    exec i s = .next s := by
  have discarded : ∀ body, Host.Outcome.next (s.unlessError body) = (.next s : Host.Outcome State Fault Refusal) :=
    fun body => congrArg _ (s.unlessError_of_error body he)
  cases i with
  | nop | clr | rds => cases hi
  | rdf _ | rbit => cases hr
  | count | wrf _ _ | build | mkcode | encode | decode | wbit _ | wclose => exact discarded _

/-- In the error state `RDF` and `RBIT` respond the zero word (R96, R272). -/
theorem exec_of_error_responds (he : s.err ≠ .none) (hi : runsInError i = false) (hr : responds i = true) :
    exec i s = .next (s.respond zeroResponse none) := by
  have discarded : ∀ body, Host.Outcome.next (s.unlessErrorResponding body)
      = (.next (s.respond zeroResponse none) : Host.Outcome State Fault Refusal) :=
    fun body => congrArg _ (s.unlessErrorResponding_of_error body he)
  cases i with
  | rds => cases hi
  | rdf _ | rbit => exact discarded _
  | nop | clr | count | wrf _ _ | build | mkcode | encode | decode | wbit _ | wclose => cases hr

/-- Settles O7: stage 2 discards each of the ten, and `RDF` and `RBIT` respond the zero word, taken or waiting. -/
theorem errorStateDiscardsCommands : Obligations.ErrorStateDiscardsCommands := by
  intro s i he hi
  refine ⟨exec_of_error_discards he hi, fun hr htakes => ?_, fun hr hfull => ?_⟩
  · rw [exec_of_error_responds he hi hr, s.respond_of_takes _ _ htakes]; rfl
  · rcases s.respond_cases zeroResponse none with ⟨htakes, -⟩ | ⟨-, e⟩
    · exact absurd hfull htakes
    · rw [exec_of_error_responds he hi hr, e]; rfl

/-- In the error state a command other than `CLR` changes nothing or only responds, and raises nothing after it. -/
theorem exec_of_error (he : s.err ≠ .none) (hi : i ≠ .clr) (e : exec i s = .next t) :
    t = s ∨ ∃ w, t = s.respond w none := by
  cases hrun : runsInError i with
  | true =>
    cases i with
    | nop => cases e; exact .inl rfl
    | clr => exact absurd rfl hi
    | rds => cases e; exact .inr ⟨_, rfl⟩
    | count | wrf _ _ | rdf _ | build | mkcode | encode | decode | wbit _ | wclose | rbit => cases hrun
  | false =>
    cases hr : responds i with
    | true => exact .inr ⟨_, Host.Outcome.next.inj (e.symm.trans (exec_of_error_responds he hrun hr))⟩
    | false => exact .inl (Host.Outcome.next.inj (e.symm.trans (exec_of_error_discards he hrun hr)))

/-- Nothing but CMD, RSP and the sequencer differs from `s`, and the sequencer is idle or has a response waiting that raises
nothing after it. -/
def OnlyRespondsFrom (s t : State) : Prop :=
  t = { s with cmd := t.cmd, rsp := t.rsp, rspRoom := t.rspRoom, seq := t.seq }
    ∧ (t.seq = .idle ∨ ∃ w, t.seq = .respond w none)

/-- An idle sequencer that does nothing only responds. -/
theorem onlyRespondsFrom_self (hs : s.seq = .idle) : OnlyRespondsFrom s s := ⟨rfl, .inl hs⟩

/-- A response of an idle sequencer, taken or waiting, with nothing raised after it, only responds. -/
theorem onlyRespondsFrom_respond (hs : s.seq = .idle) (w : Word64) : OnlyRespondsFrom s (s.respond w none) := by
  rcases s.respond_cases w none with ⟨-, e⟩ | ⟨-, e⟩
  · rw [e]; exact ⟨rfl, .inl hs⟩
  · rw [e]; exact ⟨rfl, .inr ⟨w, rfl⟩⟩

/-- In the error state the one command that can be waiting has a response to give and raises nothing after it. -/
theorem State.SeqOk.seq_of_error (h : s.SeqOk) (he : s.err ≠ .none) : s.seq = .idle ∨ ∃ w, s.seq = .respond w none := by
  cases hs : s.seq with
  | idle => exact .inl rfl
  | countRead | encodeRead | encodeBits _ _ | encodeClose | decodeRead | decodeEmit =>
    simp only [State.SeqOk, hs] at h
    exact absurd h.1 he
  | wbit _ | wclose | rbitRead =>
    simp only [State.SeqOk, hs] at h
    exact absurd h he
  | respond w after =>
    simp only [State.SeqOk, hs] at h
    have hnone : after = none := not_not.1 fun ha => he (h ha)
    exact .inr ⟨w, hnone ▸ rfl⟩

/-- Settles O53: the word of `CLR` clears, every other word is discarded or responds, and what can be waiting is a response. -/
theorem onlyClrLeavesTheErrorState : Obligations.OnlyClrLeavesTheErrorState := by
  intro s t he hq hstep
  rcases step_cases hstep with ⟨hs, w, ws, hc, ⟨i, hd, e⟩ | ⟨x, -, rfl⟩⟩ | ⟨hs, -, rfl⟩
  · by_cases hi : i = .clr
    · subst hi
      obtain ⟨-, rfl⟩ := encodes_of_decode hd
      exact .inl ⟨ws, hs, hc, (Host.Outcome.next.inj e).symm⟩
    · rcases exec_of_error (s := { s with cmd := ws }) he hi e with rfl | ⟨v, rfl⟩
      · exact .inr (onlyRespondsFrom_self hs)
      · exact .inr (onlyRespondsFrom_respond (s := { s with cmd := ws }) hs v)
  · exact .inr (State.unlessError_keeps (P := OnlyRespondsFrom s) (onlyRespondsFrom_self hs) fun h => absurd h he)
  · rcases hq.seq_of_error he with h | ⟨w, h⟩
    · exact absurd h hs
    · rw [h]
      exact .inr (onlyRespondsFrom_respond (s := s.suspend .idle) rfl w)

/-! ### Within a row of R263 -/

/-- What holds of a command whose row is `row` from its acceptance to its end: the errors it has raised and those that it can
still raise where it waits are in the row, and while it waits it has raised none (R263, R270). -/
structure WithinRow (row : List ErrCode) (t : State) : Prop where
  raised : t.err = .none ∨ t.err ∈ row
  waiting : t.seq ≠ .idle → t.err = .none ∧ errorsAfterWait t.seq ⊆ row

/-- A command within its row is within every longer one. -/
theorem WithinRow.mono (h : WithinRow row t) (hsub : row ⊆ row') : WithinRow row' t :=
  ⟨h.raised.imp_right (hsub ·), fun hs => ⟨(h.waiting hs).1, fun _ he => hsub ((h.waiting hs).2 he)⟩⟩

/-- A command that is over. -/
theorem withinRow_of_idle (hs : t.seq = .idle) (he : t.err = .none ∨ t.err ∈ row) : WithinRow row t :=
  ⟨he, fun h => absurd hs h⟩

/-- Nothing raised and nothing waiting. -/
theorem State.Ready.withinRow (hr : s.Ready) (row : List ErrCode) : WithinRow row s := withinRow_of_idle hr.1 (.inl hr.2)

/-- An error of the row raised. -/
theorem State.Ready.withinRow_raise {e : ErrCode} (hr : s.Ready) (info : Info) (he : e ∈ row) :
    WithinRow row (s.raise e info) :=
  withinRow_of_idle hr.1 (.inr he)

/-- A command that waits, at a place from where it raises errors of the row alone. -/
theorem withinRow_of_waits (he : t.err = .none) (ha : errorsAfterWait t.seq ⊆ row) : WithinRow row t :=
  ⟨.inl he, fun _ => ⟨he, ha⟩⟩

/-- A stream command keeps to its row when its errors are in it and those of the places where it waits are. -/
theorem EndsAs.withinRow {ended : Prop} {errs : List ErrCode} {waits : Activity → Prop} (h : EndsAs s t ended errs waits)
    (hr : s.Ready) (herrs : errs ⊆ row) (hwaits : ∀ a, waits a → errorsAfterWait a ⊆ row) : WithinRow row t := by
  rcases h with ⟨he, hs, -⟩ | ⟨he, hs⟩ | ⟨he, hw⟩
  · exact withinRow_of_idle (hs.trans hr.1) (.inl (he.trans hr.2))
  · exact withinRow_of_idle (hs.trans hr.1) (.inr (herrs he))
  · exact withinRow_of_waits (he.trans hr.2) (hwaits _ hw)

/-- At every place where `ENCODE` waits it can still raise what its loop raises, and no more. -/
theorem EncodeWaits.errorsAfterWait_subset {a : Activity} (h : EncodeWaits a) :
    errorsAfterWait a ⊆ [.ioSrc, .noCode, .ioSnk] := by
  rcases h with rfl | rfl | ⟨rest, eos, -, rfl⟩ <;> exact List.Subset.refl _

/-- At every place where `DECODE` waits it can still raise what its walk raises, and no more. -/
theorem DecodeWaits.errorsAfterWait_subset {a : Activity} (h : DecodeWaits a) :
    errorsAfterWait a ⊆ [.ioSrc, .trunc, .badCode, .ioSnk] := by
  rcases h with rfl | rfl <;> exact List.Subset.refl _

/-! ### Each command's body (R263) -/

/-- A response raises what comes after it, or waits to do so (R96). -/
theorem State.Ready.respond_withinRow (hr : s.Ready) (w : Word64) (after : Option (ErrCode × Info)) :
    WithinRow (errorsAfterWait (.respond w after)) (s.respond w after) := by
  rcases s.respond_cases w after with ⟨-, e⟩ | ⟨-, e⟩
  · rw [e]
    cases after with
    | none => exact State.Ready.withinRow (s := s.answered w) hr []
    | some p => exact State.Ready.withinRow_raise (s := s.answered w) hr p.2 (List.mem_singleton_self p.1)
  · rw [e]; exact withinRow_of_waits hr.2 (List.Subset.refl _)

/-- A response with no error after it, or one of the row. -/
theorem State.Ready.respond_withinRow_of (hr : s.Ready) (w : Word64) {after : Option (ErrCode × Info)} {e : ErrCode}
    {info : Info} (ha : after = none ∨ after = some (e, info)) (he : e ∈ row) : WithinRow row (s.respond w after) := by
  refine (hr.respond_withinRow w after).mono ?_
  rcases ha with rfl | rfl
  · exact List.nil_subset row
  · exact List.cons_subset.2 ⟨he, List.nil_subset row⟩

/-- `RDF` raises `E_INDEX` alone (R137). -/
theorem State.Ready.readFreq_withinRow (hr : s.Ready) (idx : Nat) : WithinRow [.index] (s.readFreq idx) := by
  obtain ⟨w, after, e, ha⟩ := s.readFreq_cases idx
  rw [e]; exact hr.respond_withinRow_of w ha (by decide)

/-- `RBIT` raises `E_IO_SRC` alone (R186). -/
theorem State.Ready.rbitRun_withinRow (hr : s.Ready) : WithinRow [.ioSrc] s.rbitRun := by
  rcases s.rbitRun_cases with ⟨r, w, after, e, ha⟩ | e
  · rw [e]; exact State.Ready.respond_withinRow_of (s := s.withReader r) hr w ha (by decide)
  · rw [e]; exact withinRow_of_waits hr.2 (List.Subset.refl _)

/-- `WRF` raises `E_INDEX` alone (R136). -/
theorem State.Ready.writeFreq_withinRow (hr : s.Ready) (idx : Nat) (v : Count) : WithinRow [.index] (s.writeFreq idx v) := by
  unfold State.writeFreq
  split
  · exact withinRow_of_idle hr.1 (.inl hr.2)
  · exact hr.withinRow_raise _ (by decide)

/-- The loop of `COUNT` raises `E_IO_SRC` and `E_OVERFLOW` alone (R131). -/
theorem State.Ready.countRun_withinRow (hr : s.Ready) : WithinRow [.ioSrc, .overflow] s.countRun := by
  rcases (countLoop_cases s.inp s).2 with ⟨he, hs⟩ | ⟨he, hs⟩ | ⟨he, hs, -⟩
  · exact withinRow_of_idle (hs.trans hr.1) (.inl (he.trans hr.2))
  · exact withinRow_of_idle (hs.trans hr.1) (.inr he)
  · exact withinRow_of_waits (he.trans hr.2) (by rw [State.countRun, hs]; exact List.Subset.refl _)

/-- `BUILD` raises `E_FORMAT` alone (R146). -/
theorem State.Ready.build_withinRow (hr : s.Ready) : WithinRow [.format] s.build := by
  unfold State.build
  split
  · exact withinRow_of_idle hr.1 (.inl hr.2)
  · exact hr.withinRow_raise 0 (by decide)

/-- `MKCODE` raises `E_SEQ` alone (R166). -/
theorem State.Ready.makeCodes_withinRow (hr : s.Ready) : WithinRow [.seq] s.makeCodes := by
  unfold State.makeCodes
  split
  · exact withinRow_of_idle hr.1 (.inl hr.2)
  · exact hr.withinRow_raise _ (by decide)

/-- `ENCODE` past its preconditions, from any place in it (R201). -/
theorem EndsAs.withinRow_encode {ended : Prop} (h : EndsAs s t ended [.ioSrc, .noCode, .ioSnk] EncodeWaits) (hr : s.Ready) :
    WithinRow [.ioSrc, .noCode, .ioSnk] t :=
  h.withinRow hr (List.Subset.refl _) fun _ ha => ha.errorsAfterWait_subset

/-- `DECODE` past its precondition, from any place in it (R216). -/
theorem EndsAs.withinRow_decode {ended : Prop} (h : EndsAs s t ended [.ioSrc, .trunc, .badCode, .ioSnk] DecodeWaits)
    (hr : s.Ready) : WithinRow [.ioSrc, .trunc, .badCode, .ioSnk] t :=
  h.withinRow hr (List.Subset.refl _) fun _ ha => ha.errorsAfterWait_subset

/-- `ENCODE` raises `E_SEQ`, or what its loop raises (R201, R262). -/
theorem State.Ready.encode_withinRow (hr : s.Ready) : WithinRow (errorsOf .encode) s.encode := by
  rcases s.encode_cases with ⟨e, -⟩ | ⟨e, -⟩
  · rw [e]; exact hr.withinRow_raise _ (by decide)
  · rw [e]; exact ((encodeLoop_cases s.inp s).2.withinRow_encode hr).mono (List.subset_cons_self _ _)

/-- `DECODE` raises `E_SEQ`, or what its walk raises (R216, R262). -/
theorem State.Ready.decode_withinRow (hr : s.Ready) : WithinRow (errorsOf .decode) s.decode := by
  unfold State.decode
  split
  · exact (s.decodeStart.decodeRun_cases.2.withinRow_decode hr).mono (List.subset_cons_self _ _)
  · exact hr.withinRow_raise _ (by decide)

/-- `WBIT` raises `E_IO_SNK` alone (R183). -/
theorem State.Ready.wbitRun_withinRow (hr : s.Ready) (b : Bool) : WithinRow [.ioSnk] (s.wbitRun b) :=
  (s.wbitRun_cases b).2.withinRow hr (List.Subset.refl _) fun _ ha => ha ▸ List.Subset.refl _

/-- `WCLOSE` raises `E_IO_SNK` alone (R184). -/
theorem State.Ready.wcloseRun_withinRow (hr : s.Ready) : WithinRow [.ioSnk] s.wcloseRun :=
  s.wcloseRun_cases.2.withinRow hr (List.Subset.refl _) fun _ ha => ha ▸ List.Subset.refl _

/-! ### From acceptance to the end (R263) -/

/-- A command keeps to its row of R263. -/
theorem exec_withinRow (hr : s.Ready) (e : exec i s = .next t) : WithinRow (errorsOf i) t := by
  have zero : ∀ row, WithinRow row (s.respond zeroResponse none) :=
    fun row => (hr.respond_withinRow _ none).mono (List.nil_subset row)
  cases i with
  | nop => cases e; exact hr.withinRow _
  | clr => cases e; exact State.Ready.withinRow (s := s.clear) ⟨rfl, rfl⟩ _
  | rds => cases e; exact hr.respond_withinRow _ none
  | count =>
    cases e
    exact State.unlessError_keeps (hr.withinRow _) fun _ => State.Ready.countRun_withinRow (s := s.countStart) hr
  | wrf idx v => cases e; exact State.unlessError_keeps (hr.withinRow _) fun _ => hr.writeFreq_withinRow idx v
  | rdf idx => cases e; exact State.unlessErrorResponding_keeps (zero _) fun _ => hr.readFreq_withinRow idx
  | build => cases e; exact State.unlessError_keeps (hr.withinRow _) fun _ => hr.build_withinRow
  | mkcode => cases e; exact State.unlessError_keeps (hr.withinRow _) fun _ => hr.makeCodes_withinRow
  | encode => cases e; exact State.unlessError_keeps (hr.withinRow _) fun _ => hr.encode_withinRow
  | decode => cases e; exact State.unlessError_keeps (hr.withinRow _) fun _ => hr.decode_withinRow
  | wbit b => cases e; exact State.unlessError_keeps (hr.withinRow _) fun _ => hr.wbitRun_withinRow b
  | wclose => cases e; exact State.unlessError_keeps (hr.withinRow _) fun _ => hr.wcloseRun_withinRow
  | rbit => cases e; exact State.unlessErrorResponding_keeps (zero _) fun _ => hr.rbitRun_withinRow

/-- A command that goes on raises what its place leaves it, and waits again only where it can raise no more than that. -/
theorem State.Ready.resume_withinRow (hr : s.Ready) (a : Activity) : WithinRow (errorsAfterWait a) (s.resume a) := by
  cases a with
  | idle => exact hr.withinRow _
  | countRead => exact hr.countRun_withinRow
  | encodeRead => exact (encodeLoop_cases s.inp s).2.withinRow_encode hr
  | encodeBits rest eos => exact (s.encodeResume_cases rest eos).2.withinRow_encode hr
  | encodeClose => exact s.encodeClose_cases.2.withinRow_encode hr
  | decodeRead => exact s.decodeRun_cases.2.withinRow_decode hr
  | decodeEmit => exact s.decodeEmit_cases.2.withinRow_decode hr
  | wbit b => exact hr.wbitRun_withinRow b
  | wclose => exact hr.wcloseRun_withinRow
  | rbitRead => exact hr.rbitRun_withinRow
  | respond w after => exact hr.respond_withinRow w after

/-- The step of a command that waits raises what its place leaves it. -/
theorem step_withinRow (hs : s.seq ≠ .idle) (he : s.err = .none) (e : step s = .next t) :
    WithinRow (errorsAfterWait s.seq) t := by
  rcases step_cases e with ⟨hi, -⟩ | ⟨-, -, rfl⟩
  · exact absurd hi hs
  · exact State.Ready.resume_withinRow (s := s.suspend .idle) ⟨rfl, he⟩ s.seq

/-- No action of the HOST takes a command out of its row: the ports are not ERR, and reset ends the command (R80, R301). -/
theorem WithinRow.hostAct (h : WithinRow row t) (a : HostAction) : WithinRow row (t.hostAct a) := by
  cases a with
  | command _ | token _ | answer _ | room _ => exact ⟨h.raised, h.waiting⟩
  | reset => exact State.Ready.withinRow (s := t.clear) ⟨rfl, rfl⟩ row

/-- A command stays in its row however often it goes on and whatever the HOST does meanwhile. -/
theorem WithinRow.goesOn (h : WithinRow row t) (hg : GoesOn t u) : WithinRow row u := by
  induction hg with
  | start => exact h
  | host _ a ih => exact ih.hostAct a
  | goOn _ hs e ih =>
    obtain ⟨he, hrow⟩ := ih.waiting hs
    exact (step_withinRow hs he e).mono hrow

/-- Settles O51: a command is accepted within its row and stays there, and an undecodable word raises `E_ILLCMD`. -/
theorem errorsOfEachCommand : Obligations.ErrorsOfEachCommand := by
  refine ⟨fun i s t hr e => (exec_withinRow hr e).raised, fun i s t u hr e hg => ((exec_withinRow hr e).goesOn hg).raised,
    fun s t hs he e => (step_withinRow hs he e).raised, fun w x s t hr hd e => ?_⟩
  rw [runWord, hd, State.illegal, s.unlessError_of_ok _ hr.2] at e
  cases e; rfl

/-! ### The sequence preconditions (R262) -/

/-- A command whose row does not hold `E_SEQ` does not raise it. -/
theorem WithinRow.err_ne_seq (h : WithinRow row t) (hrow : .seq ∉ row) : t.err ≠ .seq := by
  intro he
  rcases h.raised with h | h
  · cases h.symm.trans he
  · exact hrow (he ▸ h)

/-- Outside the error state `ENCODE` checks its two preconditions (R262). -/
theorem exec_encode_of_ready (hr : s.Ready) : exec .encode s = .next s.encode :=
  congrArg Host.Outcome.next (s.unlessError_of_ok State.encode hr.2)

/-- Without one of its preconditions `ENCODE` raises `E_SEQ` alone (R262). -/
theorem exec_encode_of_not_precondition (hr : s.Ready) (h : ¬(s.codesValid = true ∧ s.bwN = 0)) :
    exec .encode s = .next (s.raise .seq (opInfo 0x30#8)) := by
  rcases s.encode_cases with ⟨e, -⟩ | ⟨-, hpre⟩
  · rw [exec_encode_of_ready hr, e]
  · exact absurd hpre h

/-- With both preconditions `ENCODE` is its loop (R201, R262). -/
theorem exec_encode_of_precondition (hr : s.Ready) (hc : s.codesValid = true) (hn : s.bwN = 0) :
    exec .encode s = .next (encodeLoop s.inp s) := by
  rcases s.encode_cases with ⟨-, h⟩ | ⟨e, -⟩
  · exact absurd ⟨hc, hn⟩ h
  · rw [exec_encode_of_ready hr, e]

/-- Without a valid tree `MKCODE` raises `E_SEQ` alone (R262). -/
theorem exec_mkcode_of_no_tree (hr : s.Ready) (ht : s.treeValid = false) :
    exec .mkcode s = .next (s.raise .seq (opInfo 0x21#8)) :=
  congrArg Host.Outcome.next ((s.unlessError_of_ok State.makeCodes hr.2).trans (if_neg (by simp [ht])))

/-- Without a valid tree `DECODE` raises `E_SEQ` alone (R262). -/
theorem exec_decode_of_no_tree (hr : s.Ready) (ht : s.treeValid = false) :
    exec .decode s = .next (s.raise .seq (opInfo 0x31#8)) :=
  congrArg Host.Outcome.next ((s.unlessError_of_ok State.decode hr.2).trans (if_neg (by simp [ht])))

/-- `E_SEQ` stands in the rows of `MKCODE`, `ENCODE` and `DECODE` alone (R262, R263). -/
theorem seq_not_mem_errorsOf (hm : i ≠ .mkcode) (he : i ≠ .encode) (hd : i ≠ .decode) : .seq ∉ errorsOf i := by
  cases i with
  | mkcode => exact absurd rfl hm
  | encode => exact absurd rfl he
  | decode => exact absurd rfl hd
  | nop | clr | rds | count | wrf _ _ | rdf _ | build | wbit _ | wclose | rbit => simp [errorsOf]

/-- Settles O29: a precondition that fails is `E_SEQ` and nothing else, past it no error of the loop or the walk is `E_SEQ`,
and no other row holds it. -/
theorem sequencePreconditions : Obligations.SequencePreconditions := by
  intro s hr
  refine ⟨exec_mkcode_of_no_tree hr, fun hc => exec_encode_of_not_precondition hr fun h => by simp [hc] at h,
    fun hn => exec_encode_of_not_precondition hr fun h => hn h.2, exec_decode_of_no_tree hr, ?_, ?_, ?_⟩
  · rintro ht t (e | e)
    · cases (exec_mkcode_of_treeValid hr ht).symm.trans e
      exact (State.Ready.withinRow (s := s.withCodes) hr []).err_ne_seq (by decide)
    · cases (exec_decode_of_treeValid hr ht).symm.trans e
      exact (s.decodeStart.decodeRun_cases.2.withinRow_decode hr).err_ne_seq (by decide)
  · intro hc hn t e
    cases (exec_encode_of_precondition hr hc hn).symm.trans e
    exact ((encodeLoop_cases s.inp s).2.withinRow_encode hr).err_ne_seq (by decide)
  · intro i t hm hen hd e
    exact (exec_withinRow hr e).err_ne_seq (seq_not_mem_errorsOf hm hen hd)

end Sys2Proof.Machine
end
